-- ==== Sys2Proof/Word.lean ====
section
/-! DEFINITION. The word types of the engine and the plainest arithmetic of spec/00_scope.md (R7, R8). -/

namespace Sys2Proof

/-- A byte of the buffer space (R7). -/
abbrev Byte := BitVec 8

/-- A 32-bit register: `CMD`, `STATUS`, `COUNT`, `SPB`, `BLKSZ` and the 32-bit `WF_*` fields (R21). -/
abbrev Word := BitVec 32

/-- The bit pattern of an IEEE 754 binary32 value (`bits_f32` of R8). -/
abbrev F32 := BitVec 32

/-- The bit pattern of an IEEE 754 binary64 value (R8). -/
abbrev F64 := BitVec 64

/-- `sext_N(v)` of R8: the low `N` bits of `v` read as two's complement. -/
def sext (bits v : Nat) : Int := (BitVec.ofNat bits v).toInt

/-- `clamp(v, lo, hi)` of R8. -/
def clamp (v lo hi : Int) : Int := if v < lo then lo else if hi < v then hi else v

end Sys2Proof
end

