-- ==== Sys2Proof/Config.lean ====
section
/-! DEFINITION. The launch parameters of spec/00_scope.md R6 and R62, and the free values.

The parameters are plain data that State carries and no step changes, so a statement about every
state is a statement about every value of them (log 1). -/

namespace Sys2Proof

/-- A span of byte addresses `base .. base + size - 1` of the buffer space. -/
structure Region where
  base : Nat
  size : Nat
  deriving DecidableEq, Repr

/-- The parameters the model takes (R6), and the host's allocation (R62). -/
structure Config where
  /-- `AW`: the width in bits of a buffer address, of `LEN` and of the parser's offsets. -/
  aw : Nat
  /-- `MAX_INDEX`: the source's "maximum-array-index". -/
  maxIndex : Nat
  /-- `ADPCM_INDEX_BYTE_SIGNED` (R244). -/
  adpcmIndexByteSigned : Bool
  /-- `alaw_entry`: the total function from A-law codes to binary32 (R211). -/
  alawEntry : Vector F32 256
  /-- `ulaw_entry`: the total function from μ-law codes to binary32 (R211). -/
  ulawEntry : Vector F32 256
  /-- The complement of `ALLOC` (R62): the spans of addresses the host has NOT allocated. -/
  unallocated : List Region
  deriving DecidableEq, Repr

/-- The free values: the `k`-th draw. It has no body, so nothing can be proved about a value of it
except what holds of every number (log 5). Each use takes the low bits it needs. -/
opaque Config.freeValue : Nat → Nat

end Sys2Proof
end

