-- ==== Sys2Proof/Syntax.lean ====
section
/-! DEFINITION. The twenty operations (spec/30_encoding.md R93), the fields of a command word (R90),
and the reasons a command word is illegal (R96). -/

namespace Sys2Proof

/-- One constructor per row of spec/opcode_table.json. No operation has an operand field: every
operand comes from an operand register (R92). -/
inductive Instr
  | initTables | parseHeader
  | u8M | u8S | s16M | s16S | s24M | s24S | s32M | s32S
  | f32M | f32S | f64M | f64S
  | alawM | alawS | ulawM | ulawS
  | imaM | imaS
  deriving DecidableEq, Repr

/-- The fields of format `CMD8` (R90): bits 31:8, 7:5, 4, 3:1 and 0 of the command word. -/
structure CmdFields where
  zero : BitVec 24
  unit : BitVec 3
  z4 : BitVec 1
  fmt : BitVec 3
  st : BitVec 1
  deriving DecidableEq, Repr

/-- Why a command word is illegal: the five classes of R96. -/
inductive IllegalCmd
  /-- bits 31:8 non-zero -/
  | zeroBits
  /-- `UNIT` 4 to 7 -/
  | reservedUnit
  /-- `Z4` = 1 with `UNIT` 1 to 3 -/
  | z4Set
  /-- a reserved `FMT` -/
  | reservedFmt
  /-- a reserved `FUNC`, the all-zero word among them -/
  | reservedFunc
  deriving DecidableEq, Repr

/-- The textual form of a command: its mnemonic alone (R93, R98). -/
def Instr.mnemonic : Instr → String
  | .initTables => "INIT_TABLES" | .parseHeader => "PARSE_HEADER"
  | .u8M => "U8.M" | .u8S => "U8.S" | .s16M => "S16.M" | .s16S => "S16.S"
  | .s24M => "S24.M" | .s24S => "S24.S" | .s32M => "S32.M" | .s32S => "S32.S"
  | .f32M => "F32.M" | .f32S => "F32.S" | .f64M => "F64.M" | .f64S => "F64.S"
  | .alawM => "ALAW.M" | .alawS => "ALAW.S" | .ulawM => "ULAW.M" | .ulawS => "ULAW.S"
  | .imaM => "IMA.M" | .imaS => "IMA.S"

end Sys2Proof
end

