-- ==== Sys2Proof/WellFormed.lean ====
section
/-! DEFINITION. When the fields of a command word are well formed (spec/30_encoding.md R90, R91, R96),
and when the launch parameters are (spec/00_scope.md R6, spec/42_companded_law.md R219).

An `Instr` has no operand field (R92), so each of its constructors is well formed as it stands; what
can be ill formed is a command word. -/

namespace Sys2Proof

/-- `FUNC`: bits 4:0 as one field, for `UNIT` 0 (R90). -/
def CmdFields.func (c : CmdFields) : BitVec 5 := c.z4 ++ c.fmt ++ c.st

/-- Bits 31:8 are zero (R90). -/
def CmdFields.zeroOk (c : CmdFields) : Bool := c.zero == 0

/-- `UNIT` is one of SYS, LIN, LAW, ADPCM (R90). -/
def CmdFields.unitOk (c : CmdFields) : Bool := c.unit.toNat < 4

/-- `Z4` is 0 for the decoding units (R90). -/
def CmdFields.z4Ok (c : CmdFields) : Bool := c.unit == 0 || c.z4 == 0

/-- `FMT` is not reserved: six formats in LIN, two in LAW, one in ADPCM (R91). -/
def CmdFields.fmtOk (c : CmdFields) : Bool :=
  c.fmt.toNat < (match c.unit.toNat with | 1 => 6 | 2 => 2 | 3 => 1 | _ => 8)

/-- `FUNC` is INIT_TABLES or PARSE_HEADER in unit SYS (R91). -/
def CmdFields.funcOk (c : CmdFields) : Bool := c.unit != 0 || c.func == 1 || c.func == 2

/-- The word is one of the twenty legal commands (R90, R91, R96). -/
def CmdFields.wellFormed (c : CmdFields) : Bool :=
  c.zeroOk && c.unitOk && c.z4Ok && c.fmtOk && c.funcOk

/-- The binary32 pattern is a normalized float (R11): a finite value in [-1, 1], that is a magnitude
pattern not above that of 1.0. -/
def normalized (w : F32) : Bool := (w &&& 0x7FFFFFFF#32).toNat ≤ 0x3F800000

/-- "`N_MAX` >= 1" (spec/92_eei_decisions.md D6). -/
def Config.maxIndexOk (c : Config) : Bool := 16 ≤ c.maxIndex

/-- Each A-law entry is a finite binary32 value "in [-1, 1]" (R219 a). -/
def Config.alawOk (c : Config) : Bool := c.alawEntry.toList.all normalized

/-- Each μ-law entry is a finite binary32 value "in [-1, 1]" (R219 a). -/
def Config.ulawOk (c : Config) : Bool := c.ulawEntry.toList.all normalized

/-- What the source requires of any replacement of the parameters (R219). -/
def Config.wellFormed (c : Config) : Bool := c.maxIndexOk && c.alawOk && c.ulawOk

end Sys2Proof
end

