-- ==== Sys2Proof/Decode.lean ====
section
/-! DEFINITION. The command decoder, total on every 32-bit word and rejecting by name
(spec/30_encoding.md R90, R91, R96), and after it the encoder (R93). The decoder reads the fields;
the encoder is the opcode map: neither is written from the other. -/

namespace Sys2Proof

/-- The fields of a command word (R90). -/
def splitCmd (w : Word) : CmdFields :=
  { zero := w.extractLsb' 8 24
    unit := w.extractLsb' 5 3
    z4 := w.extractLsb' 4 1
    fmt := w.extractLsb' 1 3
    st := w.extractLsb' 0 1 }

/-- Mono or stereo, by bit 0 (R90). -/
def byLayout (st : BitVec 1) (mono stereo : Instr) : Instr := if st = 0 then mono else stereo

/-- Unit SYS: `FUNC` 1 and 2 (R91). -/
def decodeSys (func : BitVec 5) : Except IllegalCmd Instr :=
  match func.toNat with
  | 1 => .ok .initTables
  | 2 => .ok .parseHeader
  | _ => .error .reservedFunc

/-- Unit LIN: `FMT` 0 to 5 (R91). -/
def decodeLin (fmt : BitVec 3) (st : BitVec 1) : Except IllegalCmd Instr :=
  match fmt.toNat with
  | 0 => .ok (byLayout st .u8M .u8S)
  | 1 => .ok (byLayout st .s16M .s16S)
  | 2 => .ok (byLayout st .s24M .s24S)
  | 3 => .ok (byLayout st .s32M .s32S)
  | 4 => .ok (byLayout st .f32M .f32S)
  | 5 => .ok (byLayout st .f64M .f64S)
  | _ => .error .reservedFmt

/-- Unit LAW: `FMT` 0 and 1 (R91). -/
def decodeLaw (fmt : BitVec 3) (st : BitVec 1) : Except IllegalCmd Instr :=
  match fmt.toNat with
  | 0 => .ok (byLayout st .alawM .alawS)
  | 1 => .ok (byLayout st .ulawM .ulawS)
  | _ => .error .reservedFmt

/-- Unit ADPCM: `FMT` 0 (R91). -/
def decodeAdpcm (fmt : BitVec 3) (st : BitVec 1) : Except IllegalCmd Instr :=
  match fmt.toNat with
  | 0 => .ok (byLayout st .imaM .imaS)
  | _ => .error .reservedFmt

/-- The decoder on the fields: every combination is an operation or an illegal command (R91, R96). -/
def decodeFields (c : CmdFields) : Except IllegalCmd Instr :=
  if c.zero ≠ 0 then .error .zeroBits
  else match c.unit.toNat with
    | 0 => decodeSys c.func
    | 1 => if c.z4 ≠ 0 then .error .z4Set else decodeLin c.fmt c.st
    | 2 => if c.z4 ≠ 0 then .error .z4Set else decodeLaw c.fmt c.st
    | 3 => if c.z4 ≠ 0 then .error .z4Set else decodeAdpcm c.fmt c.st
    | _ => .error .reservedUnit

/-- The decoder: total on all 2^32 values of `CMD` (R93, R96). -/
def decode (w : Word) : Except IllegalCmd Instr := decodeFields (splitCmd w)

/-- The opcode map of R93. -/
def Instr.opcode : Instr → Nat
  | .initTables => 0x01 | .parseHeader => 0x02
  | .u8M => 0x20 | .u8S => 0x21 | .s16M => 0x22 | .s16S => 0x23
  | .s24M => 0x24 | .s24S => 0x25 | .s32M => 0x26 | .s32S => 0x27
  | .f32M => 0x28 | .f32S => 0x29 | .f64M => 0x2A | .f64S => 0x2B
  | .alawM => 0x40 | .alawS => 0x41 | .ulawM => 0x42 | .ulawS => 0x43
  | .imaM => 0x60 | .imaS => 0x61

/-- The encoder: the `CMD` value of an operation, its opcode with bits 31:8 zero (R93). -/
def encode (i : Instr) : Word := BitVec.ofNat 32 i.opcode

/-- The host's reading of the decoder: a command is one 32-bit value (R90); bits at or above `nbits`
are 0. -/
def decodeTableWord (nbits w : Nat) : Option Instr :=
  match decode (BitVec.ofNat 32 (w % 2 ^ nbits)) with
  | .ok i => some i
  | .error _ => none

end Sys2Proof
end

