-- ==== Sys2Proof/Machine/Float.lean ====
section
/-! DEFINITION. Binary32 and binary64: the exact conversion `f32(q)` of spec/00_scope.md R8 with the
rounding of spec/41_linear_pcm_float.md R183, and the values of float patterns. -/

namespace Sys2Proof.Machine

/-- The integer nearest to `num / den`, ties to the even one. -/
def roundHalfEven (num den : Nat) : Nat :=
  let q := num / den
  let r := num % den
  if 2 * r < den then q else if den < 2 * r then q + 1 else q + q % 2

/-- The magnitude bits of `f32(num / den)`: nearest, ties to even, gradual underflow (R8, R183).

`scaled / den` is the magnitude in units of 2^-149, the least subnormal. Its quantum is
`2^u` such units: `u` = 0 below 2^24 units, else what leaves a 24-bit significand. The
significand carries into the exponent field by the addition; above the largest finite value the
pattern is that of infinity. -/
def f32Magnitude (num den : Nat) : Nat :=
  let scaled := num * 2 ^ 149
  let u := (scaled / den).log2 - 23
  min (u * 2 ^ 23 + roundHalfEven scaled (den * 2 ^ u)) 0x7F800000

/-- A sign bit before 31 magnitude bits. -/
def signed (neg : Bool) (magnitude : Nat) : F32 := BitVec.ofBool neg ++ BitVec.ofNat 31 magnitude

/-- `f32(num / den)` as a bit pattern (R8). `f32(0)` is +0.0. -/
def f32 (num : Int) (den : Nat) : F32 := signed (decide (num < 0)) (f32Magnitude num.natAbs den)

/-- What a float pattern stands for: a NaN, an infinity, or a sign and the exact magnitude
`num / den`. -/
inductive FloatValue
  | nan
  | inf (neg : Bool)
  | finite (neg : Bool) (num den : Nat)
  deriving DecidableEq, Repr

/-- `f32_of_bits` (R8): 8 exponent bits, 23 fraction bits; the magnitude of a finite pattern is
`significand * 2^(max exponent 1) / 2^150`. -/
def unpack32 (w : F32) : FloatValue :=
  let ex := (w.extractLsb' 23 8).toNat
  let frac := (w.extractLsb' 0 23).toNat
  if ex = 255 then (if frac = 0 then .inf w.msb else .nan)
  else .finite w.msb ((frac + if ex = 0 then 0 else 2 ^ 23) * 2 ^ (max ex 1)) (2 ^ 150)

/-- `f64_of_bits` (R8): 11 exponent bits, 52 fraction bits; the magnitude of a finite pattern is
`significand * 2^(max exponent 1) / 2^1075`. -/
def unpack64 (w : F64) : FloatValue :=
  let ex := (w.extractLsb' 52 11).toNat
  let frac := (w.extractLsb' 0 52).toNat
  if ex = 2047 then (if frac = 0 then .inf w.msb else .nan)
  else .finite w.msb ((frac + if ex = 0 then 0 else 2 ^ 52) * 2 ^ (max ex 1)) (2 ^ 1075)

/-- `x > 1.0` (R178, R180); false of a NaN. -/
def FloatValue.aboveOne : FloatValue → Bool
  | .nan => false
  | .inf neg => !neg
  | .finite neg num den => !neg && den < num

/-- `x < -1.0` (R178, R180); false of a NaN. -/
def FloatValue.belowMinusOne : FloatValue → Bool
  | .nan => false
  | .inf neg => neg
  | .finite neg num den => neg && den < num

/-- The clamp to [-1, 1] on the exact value (R180). -/
def FloatValue.clampUnit (x : FloatValue) : FloatValue :=
  if x.aboveOne then .finite false 1 1
  else if x.belowMinusOne then .finite true 1 1
  else x

/-- Narrowing to binary32 (R180): the sign is kept, on a zero too, and the magnitude is rounded once.
A NaN is replaced before it comes here; its image is the default quiet NaN. -/
def FloatValue.narrow : FloatValue → F32
  | .nan => 0x7FC00000#32
  | .inf neg => signed neg 0x7F800000
  | .finite neg num den => signed neg (f32Magnitude num den)

end Sys2Proof.Machine
end

