-- ==== Sys2Proof/Machine/LawTable.lean ====
section
/-! DEFINITION. The default companded-law tables: spec/42_companded_law.md R213, R214 (μ-law) and
R216, R217 (A-law). -/

namespace Sys2Proof.Machine

/-- `ulaw_int(c)` (R213): bit-invert, then sign bit 7 (1 = negative), exponent bits 6:4, mantissa
bits 3:0. -/
def ulawInt (c : Byte) : Int :=
  let u := c ^^^ 0xFF#8
  let ex := (u.extractLsb' 4 3).toNat
  let man := (u.extractLsb' 0 4).toNat
  let mag : Int := ((33 + 2 * man) <<< ex : Nat) - 33
  if u.msb then -mag else mag

/-- `ulaw_entry(c)`, default (R214): the exact quotient by 8031, rounded once. -/
def ulawEntry (c : Byte) : F32 := f32 (ulawInt c) 8031

/-- `alaw_int(c)` (R216): exclusive-or with 0x55, then sign bit 7 (1 = POSITIVE), exponent bits 6:4,
mantissa bits 3:0. -/
def alawInt (c : Byte) : Int :=
  let a := c ^^^ 0x55#8
  let ex := (a.extractLsb' 4 3).toNat
  let man := (a.extractLsb' 0 4).toNat
  let mag : Nat := if ex = 0 then (man <<< 4) + 8 else ((man <<< 4) + 0x108) <<< (ex - 1)
  if a.msb then mag else -mag

/-- `alaw_entry(c)`, default (R217): the quotient by 32768, exact. -/
def alawEntry (c : Byte) : F32 := f32 (alawInt c) 32768

/-- A function on codes as a 256-entry table. -/
def tableOf (entry : Byte → F32) : Vector F32 256 := Vector.ofFn fun c : Fin 256 => entry (BitVec.ofFin c)

/-- Reading a table at a code 0..255 (R220 to R223). -/
def lawEntry (tab : Vector F32 256) (code : Nat) : F32 :=
  tab[code % 256]'(Nat.mod_lt code (by decide))

end Sys2Proof.Machine
end

