-- ==== Sys2Proof/Machine/Params.lean ====
section
/-! DEFINITION. The defaults the spec recommends for the launch parameters (spec/00_scope.md R6). -/

namespace Sys2Proof.Machine

/-- `AW`, `MAX_INDEX` and `ADPCM_INDEX_BYTE_SIGNED` at their defaults, the default tables (R214, R217),
and every byte of the buffer space allocated (log 1, log 2; DESIGN CHOICE for the allocation). -/
def defaultConfig : Config :=
  { aw := 32
    maxIndex := 2147483647
    adpcmIndexByteSigned := false
    alawEntry := tableOf alawEntry
    ulawEntry := tableOf ulawEntry
    unallocated := [] }

end Sys2Proof.Machine
end

