-- ==== Sys2Proof/Machine/State.lean ====
section
/-! DEFINITION. The state of one engine instance, the buffer space and the host's pending actions
(spec/10_state.md R20, R21, R25, R30 to R34, R38; spec/20_memory.md R60), and the state after reset. -/

namespace Sys2Proof.Machine

/-- `STATUS.RESULT` (R9, R25): closed, so that the values 5 to 7 never occur. -/
inductive ResultCode
  | none | ok | rejected | parseFail | illegalCmd
  deriving DecidableEq, Repr

/-- The eight WaveFormat result registers, numbers 16 to 23 (R21, R30). `dataOffset` is `AW` bits
wide, held as a number below `2^AW`. -/
structure WaveFormat where
  format : BitVec 16
  channels : BitVec 16
  sampleRate : BitVec 32
  byteRate : BitVec 32
  blockAlign : BitVec 16
  bits : BitVec 16
  dataOffset : Nat
  dataLen : BitVec 32
  deriving DecidableEq, Repr

/-- The ADPCM state of one channel (R34): `PRED`, an s16, and `IDX`, 0..88. -/
structure Channel where
  pred : BitVec 16
  idx : Fin 89
  deriving DecidableEq, Repr

/-- The buffer space (R60): the listed bytes, addresses strictly rising, none equal to what an
unlisted address reads as. -/
abbrev Memory := List Host.Cell

/-- What acts on the engine from outside (R98, R300, R310, R311). -/
inductive HostAction
  /-- `WR register, value`: a whole-register write; register 0 is `CMD` and starts an operation. -/
  | wr (reg value : Nat)
  /-- a write narrower than the register, which R22 does not define, whatever the register number (log 11:
  R21 ignores a write of a number that does not exist, R22 leaves a narrow one without meaning). -/
  | wrPart (reg value : Nat)
  /-- `RD register`. -/
  | rd (reg : Nat)
  /-- `ST8 address, byte ...`: bytes stored to the buffer space, lowest address first. -/
  | st8 (addr : Nat) (bytes : List Byte)
  /-- one byte of the buffer space loaded (R63, R311). -/
  | ld8 (addr : Nat)
  /-- `LD32 address`: a 32-bit little-endian word loaded. -/
  | ld32 (addr : Nat)
  /-- the reset event between commands (R300). -/
  | reset
  /-- a write of `CMD` with this value, and the reset event while its operation runs (R300; U27 of
  spec/93_implementation_defined.md; log 18). -/
  | resetDuring (value : Nat)
  deriving DecidableEq, Repr

/-- The machine. -/
structure State where
  /-- launch parameters (R6, R62); no step changes them -/
  cfg : Config
  /-- register 0, `CMD` -/
  cmd : Word
  /-- `STATUS.RESULT` (R25) -/
  result : ResultCode
  /-- `STATUS.TABLES_READY` (R25, R32) -/
  tablesReady : Bool
  /-- register 2, `IN_BASE`, a number below `2^AW` -/
  inBase : Nat
  /-- register 3, `OUT0_BASE`, a number below `2^AW` -/
  out0Base : Nat
  /-- register 4, `OUT1_BASE`, a number below `2^AW` -/
  out1Base : Nat
  /-- register 5, `COUNT`, read as s32 -/
  count : Word
  /-- register 6, `SPB`, read as s32 -/
  spb : Word
  /-- register 7, `BLKSZ`, read as s32 -/
  blksz : Word
  /-- register 8, `LEN`, a number below `2^AW` -/
  len : Nat
  /-- registers 16 to 23, `WF_*` -/
  wf : WaveFormat
  /-- the model's own: the `WF_*` registers hold specified values (R31, R308; log 4) -/
  wfValid : Bool
  /-- `ALAW_TAB` (R32) -/
  alawTab : Vector F32 256
  /-- `ULAW_TAB` (R32) -/
  ulawTab : Vector F32 256
  /-- `PRED[0]`, `IDX[0]` (R34) -/
  ch0 : Channel
  /-- `PRED[1]`, `IDX[1]` (R34) -/
  ch1 : Channel
  /-- the buffer space (R60) -/
  mem : Memory
  /-- the host's pending actions, the next one first (R27, R310; log 8) -/
  host : List HostAction
  /-- what the host has read, the latest first (R98; log 9) -/
  seen : List Nat
  /-- the model's own: how many free values have been drawn (log 5) -/
  draws : Nat
  deriving DecidableEq, Repr

/-- What stops the machine. -/
inductive Fault
  /-- Raised by a host load or store of the buffer space (`st8`, `ld8`, `ld32`) that reaches an address
  at or above `2^AW`, which does not exist (R60). Safe: nothing is written (log 12). -/
  | noSuchAddress
  deriving DecidableEq, Repr

/-- What the model gives no meaning. -/
inductive Refusal
  /-- An instruction without a meaning yet; raised by exec's arms alone. Safe. -/
  | notModelled (mnemonic : String)
  /-- Raised by the four LAW decoders when `TABLES_READY` = 0 (R224, R304). Safe: the spec refuses. -/
  | tablesNotReady
  /-- Raised by an accepted decoder, or PARSE_HEADER, whose footprint reaches `2^AW` (R62, R277). Safe:
  the spec refuses. -/
  | beyondBufferSpace
  /-- Raised by an accepted decoder, or PARSE_HEADER, whose footprint leaves the host's allocation
  (R62, R277). Safe: the spec refuses. -/
  | outsideAllocation
  /-- Raised by an accepted decoder whose input, left-output and right-output footprints are not
  pairwise disjoint (R72, R277). Safe: the spec refuses. -/
  | overlappingFootprints
  /-- Raised by a host write narrower than the register (R22; U26 of spec/93_implementation_defined.md).
  Safe: the spec refuses. Raised for a register number that does not exist too, where R21 says that a host
  write is ignored: that R22 governs there is the model's choice (log 11; DESIGN CHOICE), safe as well. -/
  | partialWidthWrite
  deriving DecidableEq, Repr

/-- The machine right after reset (R38): every field at the value the spec states; the `WF_*`
registers, the tables and the ADPCM state, which the spec leaves unspecified, at zero (DESIGN CHOICE,
log 4, log 6, log 7); no byte of the buffer space listed (log 3); the host has nothing pending. -/
def State.reset : State :=
  { cfg := defaultConfig
    cmd := 0
    result := .none
    tablesReady := false
    inBase := 0
    out0Base := 0
    out1Base := 0
    count := 0
    spb := 0
    blksz := 0
    len := 0
    wf :=
      { format := 0, channels := 0, sampleRate := 0, byteRate := 0, blockAlign := 0, bits := 0
        dataOffset := 0, dataLen := 0 }
    wfValid := false
    alawTab := Vector.replicate 256 0
    ulawTab := Vector.replicate 256 0
    ch0 := { pred := 0, idx := 0 }
    ch1 := { pred := 0, idx := 0 }
    mem := []
    host := []
    seen := []
    draws := 0 }

end Sys2Proof.Machine
end

