-- ==== Sys2Proof/Machine/Ops.lean ====
section
/-! DEFINITION. The named operations over memory and registers: byte and little-endian accesses of the
buffer space (spec/00_scope.md R8, spec/20_memory.md R60, R63), the end of a command (R8, R270, R275),
and the loss of the WaveFormat record (R31, R138). -/

namespace Sys2Proof.Machine

/-- What a byte that nothing has written reads as (log 3; DESIGN CHOICE). -/
def Memory.unwritten : Byte := 0

/-- The byte at an address (R60). -/
def Memory.read : Memory → Nat → Byte
  | [], _ => Memory.unwritten
  | (k, b) :: m, a => if k = a then b else Memory.read m a

/-- A cell put at its place in a memory that does not list its address. -/
def Memory.insertCell (a : Nat) (b : Byte) : Memory → Memory
  | [] => [(a, b)]
  | c :: m => if a < c.1 then (a, b) :: c :: m else c :: Memory.insertCell a b m

/-- The memory without the cell at an address. -/
def Memory.eraseCell (m : Memory) (a : Nat) : Memory := m.filter fun c => c.1 != a

/-- A byte stored (R60); the canonical form is kept. -/
def Memory.write (m : Memory) (a : Nat) (b : Byte) : Memory :=
  if b = Memory.unwritten then m.eraseCell a else Memory.insertCell a b (m.eraseCell a)

/-- The canonical form: addresses strictly rising, no cell equal to an unwritten byte. -/
def Memory.wf : Memory → Bool
  | [] => true
  | [c] => c.2 != Memory.unwritten
  | c :: d :: m => c.2 != Memory.unwritten && decide (c.1 < d.1) && Memory.wf (d :: m)

/-- `MemRead(addr, n)` of R8: `n` bytes, little-endian (R63), as an unsigned integer. -/
def Memory.readLE (m : Memory) (addr : Nat) : Nat → Nat
  | 0 => 0
  | n + 1 => (m.read addr).toNat + 256 * m.readLE (addr + 1) n

/-- `MemWrite(addr, n, v)` of R8: the `n` low bytes of `v`, little-endian (R63). -/
def Memory.writeLE (m : Memory) (addr : Nat) : Nat → Nat → Memory
  | 0, _ => m
  | n + 1, v => (m.write addr (BitVec.ofNat 8 v)).writeLE (addr + 1) n (v / 256)

/-- One output element: a binary32 pattern as 4 little-endian bytes (R63, R64). -/
def Memory.writeF32 (m : Memory) (addr : Nat) (w : F32) : Memory := m.writeLE addr 4 w.toNat

/-- Bytes stored one after another, the first at `addr` (`ST8` of R98). -/
def Memory.writeBytes (m : Memory) (addr : Nat) : List Byte → Memory
  | [] => m
  | b :: bs => (m.write addr b).writeBytes (addr + 1) bs

/-- `n` bytes from `addr` on made unspecified: free values, draws `k` to `k + n - 1` (log 5). -/
def Memory.writeFree (m : Memory) (addr k : Nat) : Nat → Memory
  | 0 => m
  | n + 1 => (m.write addr (BitVec.ofNat 8 (Config.freeValue k))).writeFree (addr + 1) (k + 1) n

/-- The bytes of some spans made unspecified, one span after another, draws from `k` on. -/
def Memory.loseSpans (m : Memory) (k : Nat) : List Region → Memory
  | [] => m
  | r :: rs => (m.writeFree r.base k r.size).loseSpans (k + r.size) rs

/-- `finish(code)` (R8, R9): the one way every command ends, failing or not. It is what this engine has
in place of taking an exception and of returning from one (R270, R275, R276): nothing is saved, no
mode changes, control goes nowhere, and `STATUS.RESULT` receives the code. -/
def State.finish (s : State) (code : ResultCode) : State := { s with result := code }

/-- The buffer space replaced. -/
def State.withMem (s : State) (m : Memory) : State := { s with mem := m }

/-- The ADPCM state of the two channels replaced (R34). -/
def State.withChannels (s : State) (c0 c1 : Channel) : State := { s with ch0 := c0, ch1 := c1 }

/-- Both tables filled and `TABLES_READY` set (R212). -/
def State.withTables (s : State) (alaw ulaw : Vector F32 256) : State :=
  { s with alawTab := alaw, ulawTab := ulaw, tablesReady := true }

/-- The eight `WF_*` registers written with a parsed record (R31). -/
def State.withRecord (s : State) (r : WaveFormat) : State := { s with wf := r, wfValid := true }

/-- Eight free values for the `WF_*` registers, draws `k` to `k + 7` (log 5). -/
def WaveFormat.free (aw k : Nat) : WaveFormat :=
  { format := BitVec.ofNat 16 (Config.freeValue k)
    channels := BitVec.ofNat 16 (Config.freeValue (k + 1))
    sampleRate := BitVec.ofNat 32 (Config.freeValue (k + 2))
    byteRate := BitVec.ofNat 32 (Config.freeValue (k + 3))
    blockAlign := BitVec.ofNat 16 (Config.freeValue (k + 4))
    bits := BitVec.ofNat 16 (Config.freeValue (k + 5))
    dataOffset := Config.freeValue (k + 6) % 2 ^ aw
    dataLen := BitVec.ofNat 32 (Config.freeValue (k + 7)) }

/-- The `WF_*` registers made unspecified: each holds a free value and is marked as holding none that
the spec gives (R31, R138, R308). -/
def State.loseRecord (s : State) : State :=
  { s with wf := WaveFormat.free s.cfg.aw s.draws, wfValid := false, draws := s.draws + 8 }

/-- The bytes of some spans of the buffer space made unspecified, a fresh draw for each (R300). -/
def State.loseSpans (s : State) (rs : List Region) : State :=
  { s with mem := s.mem.loseSpans s.draws rs, draws := s.draws + (rs.map Region.size).sum }

/-- A free ADPCM channel state (R34, R38): draws `k` and `k + 1`. -/
def Channel.free (k : Nat) : Channel :=
  { pred := BitVec.ofNat 16 (Config.freeValue k)
    idx := ⟨Config.freeValue (k + 1) % 89, Nat.mod_lt _ (by decide)⟩ }

/-- A table of free values (R32, R38): draws `k` to `k + 255`. -/
def freeTable (k : Nat) : Vector F32 256 :=
  Vector.ofFn fun c : Fin 256 => BitVec.ofNat 32 (Config.freeValue (k + c.val))

/-- The reset event (R300, R38): `CMD`, `STATUS` and the operand registers 0; the `WF_*` registers, the
tables and the ADPCM state unspecified (free values); the buffer space, the launch parameters and
what is the host's untouched (log 18). -/
def State.applyReset (s : State) : State :=
  { s with
    cmd := 0, result := .none, tablesReady := false
    inBase := 0, out0Base := 0, out1Base := 0, count := 0, spb := 0, blksz := 0, len := 0
    wf := WaveFormat.free s.cfg.aw s.draws, wfValid := false
    ch0 := Channel.free (s.draws + 8), ch1 := Channel.free (s.draws + 10)
    alawTab := freeTable (s.draws + 12), ulawTab := freeTable (s.draws + 268)
    draws := s.draws + 524 }

end Sys2Proof.Machine
end

