-- ==== Sys2Proof/Machine/Flags.lean ====
section
/-! DEFINITION. The status register, the engine's only condition code (spec/10_state.md R25). -/

namespace Sys2Proof.Machine

/-- The number of a result code (R9, R271). -/
def ResultCode.code : ResultCode → Nat
  | .none => 0
  | .ok => 1
  | .rejected => 2
  | .parseFail => 3
  | .illegalCmd => 4

/-- `STATUS` as software reads it (R25): `RESULT` in bits 2:0, `TABLES_READY` in bit 3, the reserved
bits 31:4 zero. -/
def State.statusWord (s : State) : Word :=
  BitVec.ofNat 32 (s.result.code + if s.tablesReady then 8 else 0)

end Sys2Proof.Machine
end

