-- ==== Sys2Proof/Machine/Operands.lean ====
section
/-! DEFINITION. The operands of the operations, each whole from one operand register
(spec/10_state.md R24, spec/30_encoding.md R92), their validation (R161, R248), and the footprints with
the host duties on them (spec/20_memory.md R62, R64, R72). -/

namespace Sys2Proof.Machine

/-- `n` = `sext_32(r[COUNT])` (R161). -/
def State.n (s : State) : Int := s.count.toInt

/-- `spb` = `sext_32(r[SPB])` (R248). -/
def State.samplesPerBlock (s : State) : Int := s.spb.toInt

/-- `bs` = `sext_32(r[BLKSZ])` (R248). -/
def State.blockSize (s : State) : Int := s.blksz.toInt

/-- `N_MAX` = floor(`MAX_INDEX` / 16) (R6). -/
def Config.nMax (c : Config) : Nat := c.maxIndex / 16

/-- `reject_common(stereo)` (R161). A buffer is absent exactly when its base register holds 0 (R23). -/
def State.rejectCommon (s : State) (stereo : Bool) : Bool :=
  s.inBase == 0 || s.out0Base == 0 || (stereo && s.out1Base == 0)
    || decide (s.n ≤ 0) || decide ((Config.nMax s.cfg : Int) < s.n)

/-- `reject_adpcm(stereo)` (R248). -/
def State.rejectAdpcm (s : State) (stereo : Bool) : Bool :=
  s.rejectCommon stereo || decide (s.samplesPerBlock ≤ 0) || decide (s.samplesPerBlock % 2 ≠ 0)
    || decide (s.blockSize ≤ 0)

/-- The span lies below `2^AW` (R60, R62). -/
def Region.below (r : Region) (aw : Nat) : Bool := r.size == 0 || decide (r.base + r.size ≤ 2 ^ aw)

/-- The two spans share no address. -/
def Region.apart (r q : Region) : Bool :=
  r.size == 0 || q.size == 0 || decide (r.base + r.size ≤ q.base) || decide (q.base + q.size ≤ r.base)

/-- Every byte of the span is in `ALLOC` (R62). -/
def Config.allocates (c : Config) (r : Region) : Bool := c.unallocated.all fun hole => Region.apart hole r

/-- What an operation reads and writes (R64). -/
structure Footprint where
  reads : List Region
  writes : List Region
  deriving DecidableEq, Repr

/-- Each span apart from every later one. -/
def pairwiseApart : List Region → Bool
  | [] => true
  | r :: rs => rs.all (Region.apart r) && pairwiseApart rs

/-- The disjointness duty (R72). -/
def Footprint.disjoint (f : Footprint) : Bool :=
  f.reads.all (fun r => f.writes.all (Region.apart r)) && pairwiseApart f.writes

/-- Why a command with this footprint is refused, or none when the host has kept its duties
(R62, R72, R277). -/
def Footprint.refusal (f : Footprint) (c : Config) : Option Refusal :=
  if !(f.reads ++ f.writes).all (fun r => Region.below r c.aw) then some .beyondBufferSpace
  else if !(f.reads ++ f.writes).all (Config.allocates c) then some .outsideAllocation
  else if !f.disjoint then some .overlappingFootprints
  else none

/-- The output spans of a decoder: `4n` bytes at `OUT0_BASE`, and for stereo `4n` at `OUT1_BASE` (R64). -/
def State.outputSpans (s : State) (stereo : Bool) : List Region :=
  ⟨s.out0Base, 4 * s.n.toNat⟩ :: if stereo then [⟨s.out1Base, 4 * s.n.toNat⟩] else []

/-- The output footprint of an operation that is not rejected (R64): INIT_TABLES and PARSE_HEADER write no
byte. -/
def State.outputFootprint (s : State) (i : Instr) : List Region :=
  match i with
  | .initTables | .parseHeader => []
  | .u8M | .s16M | .s24M | .s32M | .f32M | .f64M | .alawM | .ulawM | .imaM => s.outputSpans false
  | .u8S | .s16S | .s24S | .s32S | .f32S | .f64S | .alawS | .ulawS | .imaS => s.outputSpans true

/-- The footprint of a LIN or LAW decoder with elements of `w` bytes (R64). -/
def State.sampleFootprint (s : State) (w : Nat) (stereo : Bool) : Footprint :=
  { reads := [⟨s.inBase, w * (if stereo then 2 else 1) * s.n.toNat⟩]
    writes := s.outputSpans stereo }

/-- How many blocks `n` frames take: ceil(n / spb) (R64). -/
def blockCount (n spb : Nat) : Nat := (n + spb - 1) / spb

/-- What one IMA block at `base` with `frames` frames reads (R64): header bytes 0 to 2 of each channel,
and the data bytes. -/
def blockReads (stereo : Bool) (base frames : Nat) : List Region :=
  if stereo then [⟨base, 3⟩, ⟨base + 4, 3⟩, ⟨base + 8, frames⟩]
  else [⟨base, 3⟩, ⟨base + 4, (frames + 1) / 2⟩]

/-- The footprint of an IMA decoder (R64). -/
def State.adpcmFootprint (s : State) (stereo : Bool) : Footprint :=
  let n := s.n.toNat
  let spb := s.samplesPerBlock.toNat
  { reads := (List.range (blockCount n spb)).flatMap fun b =>
      blockReads stereo (s.inBase + b * s.blockSize.toNat) (min spb (n - b * spb))
    writes := s.outputSpans stereo }

end Sys2Proof.Machine
end

