-- ==== Sys2Proof/Machine/Frames.lean ====
section
/-! DEFINITION. The common decode contract (spec/41_linear_pcm_float.md R160 to R166): validation, the
host duties, and the mono and stereo frame loops. -/

namespace Sys2Proof.Machine

/-- The mono frame loop (R163): the frames `i .. i + k - 1`. -/
def monoFrames (w : Nat) (conv : Nat → F32) (inp out : Nat) : Nat → Nat → Memory → Memory
  | 0, _, m => m
  | k + 1, i, m =>
    monoFrames w conv inp out k (i + 1) (m.writeF32 (out + 4 * i) (conv (m.readLE (inp + w * i) w)))

/-- The stereo frame loop (R164): the left element of a frame first, both read before either is
written. -/
def stereoFrames (w : Nat) (conv : Nat → F32) (inp outL outR : Nat) : Nat → Nat → Memory → Memory
  | 0, _, m => m
  | k + 1, i, m =>
    let left := conv (m.readLE (inp + w * (2 * i)) w)
    let right := conv (m.readLE (inp + w * (2 * i + 1)) w)
    stereoFrames w conv inp outL outR k (i + 1)
      ((m.writeF32 (outL + 4 * i) left).writeF32 (outR + 4 * i) right)

/-- The end of a rejected decoder (R162): nothing but `STATUS.RESULT` changes. -/
def reject (s : State) : Host.Outcome State Fault Refusal := .next (s.finish .rejected)

/-- A command's own effect, under the host duties of its footprint (R62, R72). -/
def underDuties (f : Footprint) (s t : State) : Host.Outcome State Fault Refusal :=
  match f.refusal s.cfg with
  | some r => .refused r
  | none => .next t

/-- A mono decoder with element width `w` and conversion `conv` (R161 to R165). -/
def decodeMono (w : Nat) (conv : Nat → F32) (s : State) : Host.Outcome State Fault Refusal :=
  if s.rejectCommon false then reject s
  else underDuties (s.sampleFootprint w false) s
    ((s.withMem (monoFrames w conv s.inBase s.out0Base s.n.toNat 0 s.mem)).finish .ok)

/-- A stereo decoder with element width `w` and conversion `conv` (R161 to R165). -/
def decodeStereo (w : Nat) (conv : Nat → F32) (s : State) : Host.Outcome State Fault Refusal :=
  if s.rejectCommon true then reject s
  else underDuties (s.sampleFootprint w true) s
    ((s.withMem (stereoFrames w conv s.inBase s.out0Base s.out1Base s.n.toNat 0 s.mem)).finish .ok)

end Sys2Proof.Machine
end

