-- ==== Sys2Proof/Machine/Adpcm.lean ====
section
/-! DEFINITION. Unit ADPCM: the IMA ADPCM decoder (spec/43_ima_adpcm.md R240 to R251). -/

namespace Sys2Proof.Machine

/-- `StepTable[0..88]` (R241). -/
def stepTable : Vector Nat 89 := #v[
  7, 8, 9, 10, 11, 12, 13, 14, 16, 17,
  19, 21, 23, 25, 28, 31, 34, 37, 41, 45,
  50, 55, 60, 66, 73, 80, 88, 97, 107, 118,
  130, 143, 157, 173, 190, 209, 230, 253, 279, 307,
  337, 371, 408, 449, 494, 544, 598, 658, 724, 796,
  876, 963, 1060, 1166, 1282, 1411, 1552, 1707, 1878, 2066,
  2272, 2499, 2749, 3024, 3327, 3660, 4026, 4428, 4871, 5358,
  5894, 6484, 7132, 7845, 8630, 9493, 10442, 11487, 12635, 13899,
  15289, 16818, 18500, 20350, 22385, 24623, 27086, 29794, 32767]

/-- `IndexTable[0..15]` (R242), indexed by the whole nibble. -/
def indexTable : Vector Int 16 := #v[-1, -1, -1, -1, 2, 4, 6, 8, -1, -1, -1, -1, 2, 4, 6, 8]

/-- An index clamped into [0, 88] (R244, R245). -/
def clampIndex (i : Int) : Fin 89 := ⟨min i.toNat 88, by omega⟩

/-- `diff` of R245, on the step the index selects before its update. -/
def nibbleDiff (step : Nat) (nib : BitVec 4) : Nat :=
  (step >>> 3) + (if nib[2] then step else 0) + (if nib[1] then step >>> 1 else 0)
    + (if nib[0] then step >>> 2 else 0)

/-- The state half of `nib_step` (R245): the new predictor, clamped, and the new index, clamped. The
sum is a mathematical integer, not wrapped before the clamp (R249). -/
def Channel.step (c : Channel) (nib : BitVec 4) : Channel :=
  let diff : Int := nibbleDiff stepTable[c.idx] nib
  let t := if nib[3] then c.pred.toInt - diff else c.pred.toInt + diff
  { pred := BitVec.ofInt 16 (clamp t (-32768) 32767)
    idx := clampIndex (c.idx.val + indexTable[nib.toFin]) }

/-- The emitted sample (R245): the NEW predictor over 32768, exact. -/
def Channel.sample (c : Channel) : F32 := f32 c.pred.toInt 32768

/-- `load_header` (R244): the signed little-endian predictor, and the index byte clamped; the byte is
read as signed when the parameter says so. The fourth header byte is not read. -/
def loadHeader (signedIndex : Bool) (m : Memory) (h : Nat) : Channel :=
  let ix := m.readLE (h + 2) 1
  { pred := BitVec.ofNat 16 (m.readLE h 2)
    idx := clampIndex (if signedIndex then sext 8 ix else ix) }

/-- The low nibble, `byte[3:0]`. -/
def lowNibble (byte : Nat) : BitVec 4 := BitVec.ofNat 4 byte

/-- The high nibble, `byte[7:4]`. -/
def highNibble (byte : Nat) : BitVec 4 := BitVec.ofNat 4 (byte / 16)

/-- What one frame of a mono decode does to the channel (R243, R246, R250): at the first frame of a
block the header is loaded; then the nibble of in-block position `p` is applied, the low nibble of
data byte `p div 2` when `p` is even, else the high one. -/
def monoFrameState (signedIndex : Bool) (m : Memory) (inp spb bs f : Nat) (c : Channel) : Channel :=
  let p := f % spb
  let block := inp + f / spb * bs
  let byte := m.readLE (block + 4 + p / 2) 1
  (if p = 0 then loadHeader signedIndex m block else c).step
    (if p % 2 = 0 then lowNibble byte else highNibble byte)

/-- The frame loop of IMA.M (R250): frames `f .. f + k - 1`. -/
def imaMonoFrames (signedIndex : Bool) (inp out spb bs : Nat) :
    Nat → Nat → Memory → Channel → Memory × Channel
  | 0, _, m, c => (m, c)
  | k + 1, f, m, c =>
    let c' := monoFrameState signedIndex m inp spb bs f c
    imaMonoFrames signedIndex inp out spb bs k (f + 1) (m.writeF32 (out + 4 * f) c'.sample) c'

/-- What one frame of a stereo decode does to channel 0 (`right` false) or 1 (R247, R251): the left
header at the block's start, the right one 4 bytes on; one data byte a frame, its low nibble left, its
high nibble right. -/
def stereoFrameState (signedIndex : Bool) (m : Memory) (inp spb bs f : Nat) (right : Bool)
    (c : Channel) : Channel :=
  let p := f % spb
  let block := inp + f / spb * bs
  let byte := m.readLE (block + 8 + p) 1
  (if p = 0 then loadHeader signedIndex m (if right then block + 4 else block) else c).step
    (if right then highNibble byte else lowNibble byte)

/-- The frame loop of IMA.S (R251). -/
def imaStereoFrames (signedIndex : Bool) (inp outL outR spb bs : Nat) :
    Nat → Nat → Memory → Channel → Channel → Memory × Channel × Channel
  | 0, _, m, l, r => (m, l, r)
  | k + 1, f, m, l, r =>
    let l' := stereoFrameState signedIndex m inp spb bs f false l
    let r' := stereoFrameState signedIndex m inp spb bs f true r
    imaStereoFrames signedIndex inp outL outR spb bs k (f + 1)
      ((m.writeF32 (outL + 4 * f) l'.sample).writeF32 (outR + 4 * f) r'.sample) l' r'

/-- IMA.M (R250). -/
def execImaM (s : State) : Host.Outcome State Fault Refusal :=
  if s.rejectAdpcm false then reject s
  else
    let r := imaMonoFrames s.cfg.adpcmIndexByteSigned s.inBase s.out0Base s.samplesPerBlock.toNat
      s.blockSize.toNat s.n.toNat 0 s.mem s.ch0
    underDuties (s.adpcmFootprint false) s (((s.withMem r.1).withChannels r.2 s.ch1).finish .ok)

/-- IMA.S (R251). -/
def execImaS (s : State) : Host.Outcome State Fault Refusal :=
  if s.rejectAdpcm true then reject s
  else
    let r := imaStereoFrames s.cfg.adpcmIndexByteSigned s.inBase s.out0Base s.out1Base
      s.samplesPerBlock.toNat s.blockSize.toNat s.n.toNat 0 s.mem s.ch0 s.ch1
    underDuties (s.adpcmFootprint true) s (((s.withMem r.1).withChannels r.2.1 r.2.2).finish .ok)

end Sys2Proof.Machine
end

