-- ==== Sys2Proof/Machine/Hdr.lean ====
section
/-! DEFINITION. Unit HDR: the WAVE header parser PARSE_HEADER (spec/40_header_parser.md R120 to R138). -/

namespace Sys2Proof.Machine

/-- `CHUNK_MAX`: 100 MiB (R6, R126). -/
def chunkMax : Nat := 104857600

/-- `HDR_MIN`: the minimum header size (R6, R122). -/
def headerMin : Nat := 44

/-- "RIFF" (R122). -/
def tagRiff : List Byte := [0x52#8, 0x49#8, 0x46#8, 0x46#8]

/-- "WAVE" (R122). -/
def tagWave : List Byte := [0x57#8, 0x41#8, 0x56#8, 0x45#8]

/-- "fmt " with its trailing space (R122). -/
def tagFmt : List Byte := [0x66#8, 0x6D#8, 0x74#8, 0x20#8]

/-- "data" (R122). -/
def tagData : List Byte := [0x64#8, 0x61#8, 0x74#8, 0x61#8]

/-- `TAG(k)` (R121): the four bytes at an address, in address order. -/
def Memory.tag (m : Memory) (a : Nat) : List Byte :=
  [m.read a, m.read (a + 1), m.read (a + 2), m.read (a + 3)]

/-- The six fields of a `fmt ` chunk (R128). -/
structure FmtFields where
  fmt : Nat
  ch : Nat
  rate : Nat
  brate : Nat
  balign : Nat
  bits : Nat
  deriving DecidableEq, Repr

/-- What a `data` chunk records (R131): payload offset and payload length. -/
structure DataFields where
  doff : Nat
  dlen : Nat
  deriving DecidableEq, Repr

/-- What the walk has found: `have_fmt` and `have_data` of R121 with what they guard. -/
structure Found where
  fmt : Option FmtFields
  data : Option DataFields
  deriving DecidableEq, Repr

/-- The six fields at payload offsets 0, 2, 4, 8, 12, 14 (R128). -/
def Memory.fmtFields (m : Memory) (p : Nat) : FmtFields :=
  { fmt := m.readLE p 2
    ch := m.readLE (p + 2) 2
    rate := m.readLE (p + 4) 4
    brate := m.readLE (p + 8) 4
    balign := m.readLE (p + 12) 2
    bits := m.readLE (p + 14) 2 }

/-- The range checks (R129) and, for format 1 only, the cross-validation (R130). -/
def FmtFields.accepted (f : FmtFields) : Bool :=
  !(f.ch == 0 || decide (8 < f.ch)) && !(f.rate == 0 || decide (384000 < f.rate)) && !(f.balign == 0)
    && !(f.bits == 0 || decide (64 < f.bits))
    && (f.fmt != 1 || (f.balign == (f.ch * f.bits + 7) / 8 && f.brate == f.rate * f.balign))

/-- One chunk at offset `off` (R125 to R131, R134): what has been found after it, or none when it ends
the parse with PARSE_FAIL. -/
def chunk (aw : Nat) (m : Memory) (buf len off : Nat) (found : Found) : Option Found :=
  let tag := m.tag (buf + off)
  let size := m.readLE (buf + off + 4) 4
  let stop := off + 8 + size
  if chunkMax < size ∨ 2 ^ aw ≤ stop ∨ len < stop then
    if tag = tagFmt ∨ tag = tagData then none else some found
  else if tag = tagFmt then
    if size < 16 then none
    else if (m.fmtFields (buf + off + 8)).accepted then
      some { found with fmt := some (m.fmtFields (buf + off + 8)) }
    else none
  else if tag = tagData then some { found with data := some { doff := off + 8, dlen := size } }
  else some found

/-- The record when both key chunks have been found (R133). -/
def Found.record (found : Found) : Option WaveFormat :=
  match found.fmt, found.data with
  | some f, some d =>
    some
      { format := BitVec.ofNat 16 f.fmt
        channels := BitVec.ofNat 16 f.ch
        sampleRate := BitVec.ofNat 32 f.rate
        byteRate := BitVec.ofNat 32 f.brate
        blockAlign := BitVec.ofNat 16 f.balign
        bits := BitVec.ofNat 16 f.bits
        dataOffset := d.doff
        dataLen := BitVec.ofNat 32 d.dlen }
  | _, _ => none

/-- Where the next chunk starts (R132): past the header and the payload padded to even length. -/
def nextChunk (off size : Nat) : Nat := off + 8 + size + size % 2

/-- The chunk walk (R121, R123, R125, R132, R133) from offset `off`; none is PARSE_FAIL. An offset sum
that does not fit in `AW` bits fails (`chk`). The first argument bounds the number of chunks. -/
def walk (aw : Nat) (m : Memory) (buf len : Nat) : Nat → Nat → Found → Option WaveFormat
  | 0, _, found => found.record
  | fuel + 1, off, found =>
    if 2 ^ aw ≤ off + 8 then none
    else if len < off + 8 then found.record
    else
      match chunk aw m buf len off found with
      | none => none
      | some found' =>
        if found'.fmt.isSome && found'.data.isSome then found'.record
        else
          let next := nextChunk off (m.readLE (buf + off + 4) 4)
          if 2 ^ aw ≤ next then none else walk aw m buf len fuel next found'

/-- The most chunks a walk can visit (R136; log 21). -/
def walkBound (len : Nat) : Nat := (len - 20) / 8 + 1

/-- The preliminary checks that read no byte (R122): the buffer absent or too short. -/
def tooShort (buf len : Nat) : Bool := buf == 0 || decide (len < headerMin)

/-- The whole parse of R121: the record on OK, none on PARSE_FAIL. -/
def parseHeader (aw : Nat) (m : Memory) (buf len : Nat) : Option WaveFormat :=
  if tooShort buf len then none
  else if m.tag buf ≠ tagRiff ∨ m.tag (buf + 8) ≠ tagWave then none
  else
    let fsz := m.readLE (buf + 4) 4
    if fsz < 36 ∨ len - 8 < fsz then none
    else walk aw m buf len (walkBound len) 12 { fmt := none, data := none }

/-- PARSE_HEADER (R121). Unless the buffer is absent or too short, so that nothing is read, its `LEN`
bytes must be allocated and below `2^AW` (R62; log 15). On OK all eight `WF_*` registers are written;
on PARSE_FAIL they become unspecified (R31, R138). -/
def execParseHeader (s : State) : Host.Outcome State Fault Refusal :=
  let duty : Footprint :=
    { reads := if tooShort s.inBase s.len then [] else [⟨s.inBase, s.len⟩], writes := [] }
  underDuties duty s
    (match parseHeader s.cfg.aw s.mem s.inBase s.len with
      | some r => (s.withRecord r).finish .ok
      | none => s.loseRecord.finish .parseFail)

end Sys2Proof.Machine
end

