-- ==== Sys2Proof/Machine/Law.lean ====
section
/-! DEFINITION. Unit LAW: the companded-law decoders (spec/42_companded_law.md R220 to R224). -/

namespace Sys2Proof.Machine

/-- A LAW decoder runs only when `TABLES_READY` = 1; else the command is refused, whatever its
arguments (R224, R304; log 14). -/
def whenReady (s : State) (run : State → Host.Outcome State Fault Refusal) :
    Host.Outcome State Fault Refusal :=
  if s.tablesReady then run s else .refused .tablesNotReady

/-- ALAW.M (R220). -/
def execAlawM (s : State) : Host.Outcome State Fault Refusal :=
  whenReady s (decodeMono 1 (lawEntry s.alawTab))

/-- ALAW.S (R221). -/
def execAlawS (s : State) : Host.Outcome State Fault Refusal :=
  whenReady s (decodeStereo 1 (lawEntry s.alawTab))

/-- ULAW.M (R222). -/
def execUlawM (s : State) : Host.Outcome State Fault Refusal :=
  whenReady s (decodeMono 1 (lawEntry s.ulawTab))

/-- ULAW.S (R223). -/
def execUlawS (s : State) : Host.Outcome State Fault Refusal :=
  whenReady s (decodeStereo 1 (lawEntry s.ulawTab))

end Sys2Proof.Machine
end

