-- ==== Sys2Proof/Machine/Lin.lean ====
section
/-! DEFINITION. Unit LIN: the linear PCM and IEEE float decoders (spec/41_linear_pcm_float.md R170 to
R181). -/

namespace Sys2Proof.Machine

/-- `conv_u8` (R170). -/
def convU8 (e : Nat) : F32 := f32 ((e : Int) - 128) 128

/-- `conv_s16` (R172). -/
def convS16 (e : Nat) : F32 := f32 (sext 16 e) 32768

/-- `conv_s24` (R174). -/
def convS24 (e : Nat) : F32 := f32 (sext 24 e) 8388608

/-- `conv_s32` (R176): the only integer conversion that rounds. -/
def convS32 (e : Nat) : F32 := f32 (sext 32 e) 2147483648

/-- `conv_f32` (R178): a NaN gives +0.0, a value outside [-1, 1] is clamped, any other pattern passes
unchanged. -/
def convF32 (e : Nat) : F32 :=
  let x := unpack32 (BitVec.ofNat 32 e)
  if x = .nan then 0
  else if x.aboveOne then 0x3F800000#32
  else if x.belowMinusOne then 0xBF800000#32
  else BitVec.ofNat 32 e

/-- `conv_f64` (R180): a NaN gives +0.0; else clamped at double precision, then narrowed. -/
def convF64 (e : Nat) : F32 :=
  let x := unpack64 (BitVec.ofNat 64 e)
  if x = .nan then 0 else x.clampUnit.narrow

/-- U8.M (R170). -/
def execU8M (s : State) : Host.Outcome State Fault Refusal := decodeMono 1 convU8 s

/-- U8.S (R171). -/
def execU8S (s : State) : Host.Outcome State Fault Refusal := decodeStereo 1 convU8 s

/-- S16.M (R172). -/
def execS16M (s : State) : Host.Outcome State Fault Refusal := decodeMono 2 convS16 s

/-- S16.S (R173). -/
def execS16S (s : State) : Host.Outcome State Fault Refusal := decodeStereo 2 convS16 s

/-- S24.M (R174). -/
def execS24M (s : State) : Host.Outcome State Fault Refusal := decodeMono 3 convS24 s

/-- S24.S (R175). -/
def execS24S (s : State) : Host.Outcome State Fault Refusal := decodeStereo 3 convS24 s

/-- S32.M (R176). -/
def execS32M (s : State) : Host.Outcome State Fault Refusal := decodeMono 4 convS32 s

/-- S32.S (R177). -/
def execS32S (s : State) : Host.Outcome State Fault Refusal := decodeStereo 4 convS32 s

/-- F32.M (R178). -/
def execF32M (s : State) : Host.Outcome State Fault Refusal := decodeMono 4 convF32 s

/-- F32.S (R179). -/
def execF32S (s : State) : Host.Outcome State Fault Refusal := decodeStereo 4 convF32 s

/-- F64.M (R180). -/
def execF64M (s : State) : Host.Outcome State Fault Refusal := decodeMono 8 convF64 s

/-- F64.S (R181). -/
def execF64S (s : State) : Host.Outcome State Fault Refusal := decodeStereo 8 convF64 s

end Sys2Proof.Machine
end

