-- ==== Sys2Proof/Machine/Sys.lean ====
section
/-! DEFINITION. Unit SYS: the Lookup Table Initializer (spec/42_companded_law.md R212). -/

namespace Sys2Proof.Machine

/-- INIT_TABLES (R212): every entry of both tables written, `TABLES_READY` set, OK. It cannot be
rejected and is idempotent. -/
def execInitTables (s : State) : Host.Outcome State Fault Refusal :=
  .next ((s.withTables s.cfg.alawEntry s.cfg.ulawEntry).finish .ok)

end Sys2Proof.Machine
end

