-- ==== Sys2Proof/Machine/Dispatch.lean ====
section
/-! DEFINITION. One arm per operation of spec/30_encoding.md R93, each one call of its meaning. -/

namespace Sys2Proof.Machine

def exec (i : Instr) (s : State) : Host.Outcome State Fault Refusal :=
  match i with
  -- unit SYS, unit HDR
  | .initTables => Sys2Proof.Machine.execInitTables s
  | .parseHeader => Sys2Proof.Machine.execParseHeader s
  -- unit LIN
  | .u8M => Sys2Proof.Machine.execU8M s
  | .u8S => Sys2Proof.Machine.execU8S s
  | .s16M => Sys2Proof.Machine.execS16M s
  | .s16S => Sys2Proof.Machine.execS16S s
  | .s24M => Sys2Proof.Machine.execS24M s
  | .s24S => Sys2Proof.Machine.execS24S s
  | .s32M => Sys2Proof.Machine.execS32M s
  | .s32S => Sys2Proof.Machine.execS32S s
  | .f32M => Sys2Proof.Machine.execF32M s
  | .f32S => Sys2Proof.Machine.execF32S s
  | .f64M => Sys2Proof.Machine.execF64M s
  | .f64S => Sys2Proof.Machine.execF64S s
  -- unit LAW
  | .alawM => Sys2Proof.Machine.execAlawM s
  | .alawS => Sys2Proof.Machine.execAlawS s
  | .ulawM => Sys2Proof.Machine.execUlawM s
  | .ulawS => Sys2Proof.Machine.execUlawS s
  -- unit ADPCM
  | .imaM => Sys2Proof.Machine.execImaM s
  | .imaS => Sys2Proof.Machine.execImaS s

end Sys2Proof.Machine
end

