-- ==== Sys2Proof/Machine/HostPort.lean ====
section
/-! DEFINITION. The host's side: register writes and reads (spec/10_state.md R21, R22, R26, R31), byte
accesses of the buffer space between commands (spec/20_memory.md R61), and the reset event (R300). -/

namespace Sys2Proof.Machine

/-- A whole-register write of a register other than `CMD` (R21, R22): the low bits are kept; a write to
a register that does not exist, or is read-only, is ignored (log 10). -/
def State.writeRegister (s : State) (reg value : Nat) : State :=
  match reg with
  | 2 => { s with inBase := value % 2 ^ s.cfg.aw }
  | 3 => { s with out0Base := value % 2 ^ s.cfg.aw }
  | 4 => { s with out1Base := value % 2 ^ s.cfg.aw }
  | 5 => { s with count := BitVec.ofNat 32 value }
  | 6 => { s with spb := BitVec.ofNat 32 value }
  | 7 => { s with blksz := BitVec.ofNat 32 value }
  | 8 => { s with len := value % 2 ^ s.cfg.aw }
  | _ => s

/-- The WaveFormat register with a number 16 to 23, as a number (R21, R30). -/
def WaveFormat.register (r : WaveFormat) (reg : Nat) : Nat :=
  match reg with
  | 16 => r.format.toNat
  | 17 => r.channels.toNat
  | 18 => r.sampleRate.toNat
  | 19 => r.byteRate.toNat
  | 20 => r.blockAlign.toNat
  | 21 => r.bits.toNat
  | 22 => r.dataOffset
  | 23 => r.dataLen.toNat
  | _ => 0

/-- The number is that of a WaveFormat register (R21). -/
def isWaveRegister (reg : Nat) : Bool := decide (16 ≤ reg) && decide (reg ≤ 23)

/-- What a host read of a register returns (R21, R25, R26); 0 for a register that does not exist. A
WaveFormat register that holds no specified value returns a draw of its own width (R31, R138, R308;
log 4). -/
def State.registerValue (s : State) (reg : Nat) : Nat :=
  if isWaveRegister reg then
    (if s.wfValid then s.wf else WaveFormat.free s.cfg.aw s.draws).register reg
  else
    match reg with
    | 0 => s.cmd.toNat
    | 1 => s.statusWord.toNat
    | 2 => s.inBase
    | 3 => s.out0Base
    | 4 => s.out1Base
    | 5 => s.count.toNat
    | 6 => s.spb.toNat
    | 7 => s.blksz.toNat
    | 8 => s.len
    | _ => 0

/-- How many free values a read of a register draws. -/
def State.drawsOfRead (s : State) (reg : Nat) : Nat := if isWaveRegister reg && !s.wfValid then 8 else 0

/-- `RD register` (R98): the value is what the host has now seen. -/
def State.readRegister (s : State) (reg : Nat) : State :=
  { s with seen := s.registerValue reg :: s.seen, draws := s.draws + s.drawsOfRead reg }

/-- A host access of `size` bytes at `addr`: below `2^AW` it has its effect, else the address does not
exist and the machine faults with nothing done (R60, R61; log 12). -/
def withinSpace (s : State) (addr size : Nat) (t : State) : Host.Outcome State Fault Refusal :=
  if Region.below ⟨addr, size⟩ s.cfg.aw then .next t else .fault .noSuchAddress

/-- `ST8` (R98): the bytes stored, lowest address first. -/
def State.storeBytes (s : State) (addr : Nat) (bytes : List Byte) : Host.Outcome State Fault Refusal :=
  withinSpace s addr bytes.length (s.withMem (s.mem.writeBytes addr bytes))

/-- A little-endian load of `size` bytes (`LD32` of R98, and a byte, R63). -/
def State.load (s : State) (addr size : Nat) : Host.Outcome State Fault Refusal :=
  withinSpace s addr size { s with seen := s.mem.readLE addr size :: s.seen }

end Sys2Proof.Machine
end

