-- ==== Sys2Proof/Machine/Issue.lean ====
section
/-! DEFINITION. Issuing a command, and serving one action of the host (spec/10_state.md R26,
spec/30_encoding.md R96, spec/60_exceptions.md R274, spec/70_reset_and_hazards.md R310), and the reset event
during a command (R300). -/

namespace Sys2Proof.Machine

/-- `CMD` holds the value written, legal or not (R26, R96). -/
def State.withCmd (s : State) (w : Word) : State := { s with cmd := w }

/-- A write of `CMD` (R26, R274): the low 32 bits are kept and decoded before any operand register is
looked at; a legal value runs its operation, an illegal one ends ILLEGAL_CMD with nothing else
changed. -/
def issue (value : Nat) (s : State) : Host.Outcome State Fault Refusal :=
  let w : Word := BitVec.ofNat 32 value
  match decode w with
  | .ok i => exec i (s.withCmd w)
  | .error _ => .next ((s.withCmd w).finish .illegalCmd)

/-- The reset event during the operation of `i`, which was to end with the code `ended` (R300; log 18): the
bytes the operation may have written hold unspecified values, and all else is as R38 says. An operation
that was not to end OK writes no byte (R272), so none is lost. -/
def State.cutShort (s : State) (i : Instr) (ended : ResultCode) : State :=
  (if ended = .ok then s.loseSpans (s.outputFootprint i) else s).applyReset

/-- A write of `CMD` and the reset event during the command it starts (R300; U27 of
spec/93_implementation_defined.md; log 18). A command the spec refuses is refused here too; an illegal value
starts no operation. -/
def issueThenReset (value : Nat) (s : State) : Host.Outcome State Fault Refusal :=
  let w : Word := BitVec.ofNat 32 value
  match decode w with
  | .error _ => .next s.applyReset
  | .ok i =>
    match exec i (s.withCmd w) with
    | .next t => .next (s.cutShort i t.result)
    | .fault f => .fault f
    | .refused r => .refused r

/-- One action of the host, or of the reset source, served to completion (R310, R311). A narrow write is
refused for every register number, one that does not exist included (log 11; DESIGN CHOICE: R21 ignores a
write of such a number, R22 leaves a narrow write undefined). -/
def serve (a : HostAction) (s : State) : Host.Outcome State Fault Refusal :=
  match a with
  | .wr reg value => if reg = 0 then issue value s else .next (s.writeRegister reg value)
  | .wrPart _ _ => .refused .partialWidthWrite
  | .rd reg => .next (s.readRegister reg)
  | .st8 addr bytes => s.storeBytes addr bytes
  | .ld8 addr => s.load addr 1
  | .ld32 addr => s.load addr 4
  | .reset => .next s.applyReset
  | .resetDuring value => issueThenReset value s

/-- The host's pending actions replaced. -/
def State.withHost (s : State) (h : List HostAction) : State := { s with host := h }

/-- The next pending action served; with none pending the engine is idle and nothing changes
(R282, R301; log 8). -/
def serveNext (s : State) : Host.Outcome State Fault Refusal :=
  match s.host with
  | [] => .next s
  | a :: rest => serve a (s.withHost rest)

end Sys2Proof.Machine
end

