-- ==== Sys2Proof/Machine/Step.lean ====
section
/-! DEFINITION. One step of the machine: one action of the host served, and with it the whole command
it starts (spec/20_memory.md R71: a command is one indivisible step). -/

namespace Sys2Proof.Machine

/-- One step (R71, R310). -/
def step (s : State) : Host.Outcome State Fault Refusal := serveNext s

/-- The instruction with bits `w` made the next to run: the engine fetches nothing (R27), a command
arrives only by a write of `CMD` (R26, R74), so that write is put before the host's other pending
actions (log 8). -/
def State.withFetchWord (s : State) (nbits w : Nat) : State :=
  s.withHost (.wr 0 (w % 2 ^ nbits) :: s.host)

end Sys2Proof.Machine
end

