-- ==== Sys2Proof/Machine/Pseudo.lean ====
section
/-! DEFINITION. The host's programs: the textual form of a command and the pseudo-instructions
(spec/30_encoding.md R98, R99), the host's choice of decoder (R95) and of `COUNT` (R309). No step of the
machine uses them. -/

namespace Sys2Proof.Machine

/-- Writing a mnemonic means `WR CMD, <opcode>` (R98). -/
def command (i : Instr) : HostAction := .wr 0 i.opcode

/-- `parse_header(buf, len)` (R99): success is `RESULT` = OK in the `STATUS` read; then the eight fields. -/
def callParseHeader (buf len : Nat) : List HostAction :=
  [.wr 2 buf, .wr 8 len, command .parseHeader, .rd 1,
    .rd 16, .rd 17, .rd 18, .rd 19, .rd 20, .rd 21, .rd 22, .rd 23]

/-- `init_tables()` (R99). -/
def callInitTables : List HostAction := [command .initTables]

/-- `decode_<F>_mono(in, out, n)` (R99), for a LIN or LAW decoder. -/
def callMono (i : Instr) (inp out n : Nat) : List HostAction :=
  [.wr 2 inp, .wr 3 out, .wr 5 n, command i]

/-- `decode_<F>_stereo(in, outL, outR, n)` (R99), for a LIN or LAW decoder. -/
def callStereo (i : Instr) (inp outL outR n : Nat) : List HostAction :=
  [.wr 2 inp, .wr 3 outL, .wr 4 outR, .wr 5 n, command i]

/-- `decode_IMA_mono(in, out, n, spb, blksz)` (R99). -/
def callImaMono (inp out n spb blksz : Nat) : List HostAction :=
  [.wr 2 inp, .wr 3 out, .wr 5 n, .wr 6 spb, .wr 7 blksz, command .imaM]

/-- `decode_IMA_stereo(in, outL, outR, n, spb, blksz)` (R99). -/
def callImaStereo (inp outL outR n spb blksz : Nat) : List HostAction :=
  [.wr 2 inp, .wr 3 outL, .wr 4 outR, .wr 5 n, .wr 6 spb, .wr 7 blksz, command .imaS]

/-- The mono and the stereo decoder of a format tag and a bit depth (R94, R95). -/
def decoderPair (tag bits : Nat) : Option (Instr × Instr) :=
  match tag, bits with
  | 1, 8 => some (.u8M, .u8S)
  | 1, 16 => some (.s16M, .s16S)
  | 1, 24 => some (.s24M, .s24S)
  | 1, 32 => some (.s32M, .s32S)
  | 3, 32 => some (.f32M, .f32S)
  | 3, 64 => some (.f64M, .f64S)
  | 6, _ => some (.alawM, .alawS)
  | 7, _ => some (.ulawM, .ulawS)
  | 17, _ => some (.imaM, .imaS)
  | _, _ => none

/-- The decoder a host is expected to choose (R95); tag 2, any other tag, depth or channel count has
none. -/
def selectDecoder (tag bits channels : Nat) : Option Instr :=
  match channels with
  | 1 => (decoderPair tag bits).map Prod.fst
  | 2 => (decoderPair tag bits).map Prod.snd
  | _ => none

/-- The most frames a payload holds for a LIN or LAW decoder (R309): bytes per frame is the element
width times the channel count. -/
def framesOfPayload (dataLen width channels : Nat) : Nat := dataLen / (width * channels)

end Sys2Proof.Machine
end

