-- ==== Sys2Proof/Safety.lean ====
section
/-! DEFINITION. The terms claims use: the bytes an operation may touch and the host's duties, byte by byte
as spec/20_memory.md R62, R64 and R72 word them; what a valid argument is (R161, R248); the value of a
binary32 pattern; the machine's invariant; a clean run (spec/70_reset_and_hazards.md R310). None of them
is used by the machine. -/

namespace Sys2Proof.Machine

/-- The address lies in `base .. base + size - 1`. -/
abbrev InSpan (base size a : Nat) : Prop := base ≤ a ∧ a < base + size

/-- The address exists (R60) and is in `ALLOC` (R62). -/
def Allocated (c : Config) (a : Nat) : Prop :=
  a < 2 ^ c.aw ∧ ∀ hole ∈ c.unallocated, ¬ InSpan hole.base hole.size a

/-- The stereo decoders (R2). -/
def isStereo : Instr → Bool
  | .u8S | .s16S | .s24S | .s32S | .f32S | .f64S | .alawS | .ulawS | .imaS => true
  | .u8M | .s16M | .s24M | .s32M | .f32M | .f64M | .alawM | .ulawM | .imaM => false
  | .initTables | .parseHeader => false

/-- The eighteen decoders (R2). -/
def isDecoder : Instr → Bool
  | .initTables | .parseHeader => false
  | .u8M | .u8S | .s16M | .s16S | .s24M | .s24S | .s32M | .s32S | .f32M | .f32S | .f64M | .f64S
  | .alawM | .alawS | .ulawM | .ulawS | .imaM | .imaS => true

/-- The four LAW decoders, which need the tables (R224). -/
def isLaw : Instr → Bool
  | .alawM | .alawS | .ulawM | .ulawS => true
  | .initTables | .parseHeader => false
  | .u8M | .u8S | .s16M | .s16S | .s24M | .s24S | .s32M | .s32S | .f32M | .f32S | .f64M | .f64S
  | .imaM | .imaS => false

/-- The two ADPCM decoders (R248). -/
def isAdpcm : Instr → Bool
  | .imaM | .imaS => true
  | .initTables | .parseHeader => false
  | .u8M | .u8S | .s16M | .s16S | .s24M | .s24S | .s32M | .s32S | .f32M | .f32S | .f64M | .f64S
  | .alawM | .alawS | .ulawM | .ulawS => false

/-- `n` as a number of frames. -/
def State.frames (s : State) : Nat := s.count.toInt.toNat

/-- The address of IMA block `b` (R243). -/
def State.blockAddr (s : State) (b : Nat) : Nat := s.inBase + b * s.blksz.toInt.toNat

/-- How many frames IMA block `b` yields (R243, R64): `SPB`, or what is left in a last partial block. -/
def State.framesOfBlock (s : State) (b : Nat) : Nat :=
  min s.spb.toInt.toNat (s.frames - b * s.spb.toInt.toNat)

/-- The block is one of `0 .. ceil(n / SPB) - 1` (R64). -/
def State.IsBlock (s : State) (b : Nat) : Prop := b * s.spb.toInt.toNat < s.frames

/-- The operation reads the byte (R64); of PARSE_HEADER: it may read it (R62, R137). -/
def State.ReadsByte (s : State) (i : Instr) (a : Nat) : Prop :=
  match i with
  | .initTables => False
  | .parseHeader => InSpan s.inBase s.len a
  | .u8M | .alawM | .ulawM => InSpan s.inBase s.frames a
  | .u8S | .alawS | .ulawS => InSpan s.inBase (2 * s.frames) a
  | .s16M => InSpan s.inBase (2 * s.frames) a
  | .s16S => InSpan s.inBase (4 * s.frames) a
  | .s24M => InSpan s.inBase (3 * s.frames) a
  | .s24S => InSpan s.inBase (6 * s.frames) a
  | .s32M | .f32M => InSpan s.inBase (4 * s.frames) a
  | .s32S | .f32S => InSpan s.inBase (8 * s.frames) a
  | .f64M => InSpan s.inBase (8 * s.frames) a
  | .f64S => InSpan s.inBase (16 * s.frames) a
  | .imaM =>
    ∃ b, s.IsBlock b ∧
      (InSpan (s.blockAddr b) 3 a ∨ InSpan (s.blockAddr b + 4) ((s.framesOfBlock b + 1) / 2) a)
  | .imaS =>
    ∃ b, s.IsBlock b ∧
      (InSpan (s.blockAddr b) 3 a ∨ InSpan (s.blockAddr b + 4) 3 a
        ∨ InSpan (s.blockAddr b + 8) (s.framesOfBlock b) a)

/-- The operation writes the byte when it is not rejected (R64). -/
def State.WritesByte (s : State) (i : Instr) (a : Nat) : Prop :=
  isDecoder i = true ∧
    (InSpan s.out0Base (4 * s.frames) a ∨ (isStereo i = true ∧ InSpan s.out1Base (4 * s.frames) a))

/-- The host has kept duties H2 and H3 of R303 for this command (R62, R72). -/
structure State.KeepsDuties (s : State) (i : Instr) : Prop where
  readsAllocated : ∀ a, s.ReadsByte i a → Allocated s.cfg a
  writesAllocated : ∀ a, s.WritesByte i a → Allocated s.cfg a
  inputApart : ∀ a, s.ReadsByte i a → ¬ s.WritesByte i a
  outputsApart : isStereo i = true →
    ∀ a, InSpan s.out0Base (4 * s.frames) a → ¬ InSpan s.out1Base (4 * s.frames) a

/-- No cause of rejection holds (R161, and R248 for the ADPCM decoders). -/
structure State.ValidArgs (s : State) (i : Instr) : Prop where
  inPresent : s.inBase ≠ 0
  out0Present : s.out0Base ≠ 0
  out1Present : isStereo i = true → s.out1Base ≠ 0
  positive : 0 < s.count.toInt
  guarded : s.count.toInt ≤ (s.cfg.maxIndex / 16 : Nat)
  spbPositive : isAdpcm i = true → 0 < s.spb.toInt
  spbEven : isAdpcm i = true → s.spb.toInt % 2 = 0
  blkszPositive : isAdpcm i = true → 0 < s.blksz.toInt

/-- The word a host reads from a memory at an address (R63). -/
def wordAt (m : Memory) (a : Nat) : F32 := BitVec.ofNat 32 (m.readLE a 4)

/-- The value of a finite binary32 magnitude pattern (31 bits), as a rational. -/
def magnitudeValue (p : Nat) : ℚ :=
  if p < 2 ^ 23 then (p : ℚ) / 2 ^ 149
  else ((p % 2 ^ 23 + 2 ^ 23 : Nat) : ℚ) * 2 ^ (p / 2 ^ 23) / 2 ^ 150

/-- The value of a finite binary32 pattern, as a rational. -/
def f32Value (w : F32) : ℚ :=
  (if w.msb then -1 else 1) * magnitudeValue (w.toNat % 2 ^ 31)

/-- What R133 says of a record a parse returns, as far as the record alone goes. -/
structure WaveFormat.Valid (aw : Nat) (r : WaveFormat) : Prop where
  channels : 1 ≤ r.channels.toNat ∧ r.channels.toNat ≤ 8
  sampleRate : 1 ≤ r.sampleRate.toNat ∧ r.sampleRate.toNat ≤ 384000
  blockAlign : 1 ≤ r.blockAlign.toNat
  bits : 1 ≤ r.bits.toNat ∧ r.bits.toNat ≤ 64
  pcmAlign : r.format.toNat = 1 →
    r.blockAlign.toNat = (r.channels.toNat * r.bits.toNat + 7) / 8
  pcmRate : r.format.toNat = 1 → r.byteRate.toNat = r.sampleRate.toNat * r.blockAlign.toNat
  offset : 20 ≤ r.dataOffset
  ceiling : r.dataLen.toNat ≤ 104857600
  fits : r.dataOffset + r.dataLen.toNat < 2 ^ aw

/-- The machine's invariant: the buffer space is in its canonical form and lists no address that does
not exist (R60); every `AW`-bit register holds an `AW`-bit value (R21); once `TABLES_READY` = 1 the
tables hold the parameters' entries (R32); a `WF_*` record that is marked valid is one a parse can
return (R31, R133). -/
structure State.Inv (s : State) : Prop where
  memCanonical : Memory.wf s.mem = true
  memBelow : ∀ c ∈ s.mem, c.1 < 2 ^ s.cfg.aw
  inBase : s.inBase < 2 ^ s.cfg.aw
  out0Base : s.out0Base < 2 ^ s.cfg.aw
  out1Base : s.out1Base < 2 ^ s.cfg.aw
  len : s.len < 2 ^ s.cfg.aw
  dataOffset : s.wf.dataOffset < 2 ^ s.cfg.aw
  tables : s.tablesReady = true → s.alawTab = s.cfg.alawEntry ∧ s.ulawTab = s.cfg.ulawEntry
  record : s.wfValid = true → WaveFormat.Valid s.cfg.aw s.wf

/-- A run of `k` steps is clean when no command in it was refused (R310). -/
def CleanRun (k : Nat) (s : State) : Prop := ∀ r, Host.Core.run core k s ≠ .refused r

end Sys2Proof.Machine
end

