-- ==== Sys2Proof/Certificates/Slice0/Obligations.lean ====
section
/-! DEFINITION. The statements about the machine, for the provers. Each docstring names the rule of
spec/ it formalises; OBLIGATIONS.json lists them. -/

open Sys2Proof Sys2Proof.Machine

/-! ### Command words -/

/-- R93. "The twenty legal opcodes. `CMD` value = opcode (bits 31:8 zero)." The decoder answers an
operation on exactly the twenty words of the opcode map. -/
def Obligations.DecodeAcceptsExactlyTheOpcodeMap : Prop :=
  ∀ (w : Word) (i : Instr), decode w = .ok i ↔
    (w, i) ∈ ([(0x01#32, .initTables), (0x02#32, .parseHeader),
      (0x20#32, .u8M), (0x21#32, .u8S), (0x22#32, .s16M), (0x23#32, .s16S),
      (0x24#32, .s24M), (0x25#32, .s24S), (0x26#32, .s32M), (0x27#32, .s32S),
      (0x28#32, .f32M), (0x29#32, .f32S), (0x2A#32, .f64M), (0x2B#32, .f64S),
      (0x40#32, .alawM), (0x41#32, .alawS), (0x42#32, .ulawM), (0x43#32, .ulawS),
      (0x60#32, .imaM), (0x61#32, .imaS)] : List (Word × Instr))

/-- Decoding the encoding of an operation gives it back, through the host's reading too (R90, R93). -/
def Obligations.DecodeOfEncodeIsTheInstruction : Prop :=
  ∀ i : Instr, decode (encode i) = .ok i ∧ decodeTableWord 32 (encode i).toNat = some i

/-- A word of each unit written out from the fields of R90 and R91 (UNIT, Z4, FMT, ST) decodes to the
operation those fields name. -/
def Obligations.WrittenOutWordsDecode : Prop :=
  decode (0#24 ++ 0#3 ++ 0b00001#5) = .ok .initTables ∧
  decode (0#24 ++ 0#3 ++ 0b00010#5) = .ok .parseHeader ∧
  decode (0#24 ++ 1#3 ++ 0#1 ++ 2#3 ++ 1#1) = .ok .s24S ∧
  decode (0#24 ++ 2#3 ++ 0#1 ++ 1#3 ++ 0#1) = .ok .ulawM ∧
  decode (0#24 ++ 3#3 ++ 0#1 ++ 0#3 ++ 1#1) = .ok .imaS

/-- R96. "An illegal command is a no-op: it reads and writes no byte of the buffer space, changes no
table, no `WF_*` register and no operand register, and ends with `finish(ILLEGAL_CMD)`. `CMD` itself
holds the illegal value written." The illegal values are those R96 lists, and a write of one changes
`CMD` and `STATUS.RESULT` alone. -/
def Obligations.IllegalCommandIsANoOp : Prop :=
  ∀ (s : State) (v : Nat) (rest : List HostAction), s.host = .wr 0 v :: rest →
    ((∃ i, decode (BitVec.ofNat 32 v) = .ok i) ↔
      ¬ ((v % 2 ^ 32) / 256 ≠ 0 ∨ 4 ≤ v / 32 % 8
        ∨ (1 ≤ v / 32 % 8 ∧ v / 32 % 8 ≤ 3 ∧ v / 16 % 2 = 1)
        ∨ (v / 32 % 8 = 1 ∧ 6 ≤ v / 2 % 8) ∨ (v / 32 % 8 = 2 ∧ 2 ≤ v / 2 % 8)
        ∨ (v / 32 % 8 = 3 ∧ 1 ≤ v / 2 % 8)
        ∨ (v / 32 % 8 = 0 ∧ v % 32 ≠ 1 ∧ v % 32 ≠ 2))) ∧
    ((∀ i, decode (BitVec.ofNat 32 v) ≠ .ok i) →
      step s = .next { s with host := rest, cmd := BitVec.ofNat 32 v, result := .illegalCmd })

/-! ### Steps -/

/-- A step runs the decoded operation: when the host's next action writes `CMD` with a word that decodes
to `i`, the step is `exec i` at the state where that action is taken and `CMD` holds the word (R26, R71,
R274). There is no program counter to move (R27). -/
def Obligations.StepRunsTheDecodedCommand : Prop :=
  ∀ (s : State) (v : Nat) (rest : List HostAction) (i : Instr),
    s.host = .wr 0 v :: rest → decode (BitVec.ofNat 32 v) = .ok i →
      step s = exec i { s with host := rest, cmd := BitVec.ofNat 32 v }

/-- The instruction word placed by `withFetchWord` is the next one to run, and nothing else of the state
changes with it (log 8, the model's own convention). -/
def Obligations.PlacedWordRunsNext : Prop :=
  ∀ (s : State) (i : Instr),
    step (s.withFetchWord 32 (encode i).toNat) = exec i { s with cmd := encode i }

/-! ### Reset -/

/-- R38. After reset `CMD` = 0, `STATUS` = 0 (`RESULT` = NONE, `TABLES_READY` = 0), the operand
registers 0, and no byte of the buffer space is listed. (The values R38 leaves unspecified are not
stated.) -/
def Obligations.ResetClearsTheRegisters : Prop :=
  State.reset.cmd = 0 ∧ State.reset.statusWord = 0 ∧ State.reset.result = .none ∧
  State.reset.tablesReady = false ∧ State.reset.inBase = 0 ∧ State.reset.out0Base = 0 ∧
  State.reset.out1Base = 0 ∧ State.reset.count = 0 ∧ State.reset.spb = 0 ∧ State.reset.blksz = 0 ∧
  State.reset.len = 0 ∧ State.reset.mem = []

/-- `t` is what the reset event makes of `s` (R38, R300), but for the buffer space: the specified registers at
their values, the `WF_*` registers marked as holding none, the tables and the ADPCM state open, the parameters
and the host's own state unchanged. -/
def AfterReset (s : State) (rest : List HostAction) (t : State) : Prop :=
  t = { s with
    host := rest, cmd := 0, result := .none, tablesReady := false, inBase := 0, out0Base := 0
    out1Base := 0, count := 0, spb := 0, blksz := 0, len := 0, wf := t.wf, wfValid := false
    alawTab := t.alawTab, ulawTab := t.ulawTab, ch0 := t.ch0, ch1 := t.ch1, mem := t.mem, draws := t.draws }

/-- R300. "It puts every piece of engine state into the value listed in `10_state.md` rule R38 and leaves
the buffer space alone." The reset event in a run: the step answers a next state with those values, the
`WF_*` registers marked as holding none, and the buffer space, the parameters and the host's own state
unchanged. -/
def Obligations.ResetEventLeavesTheBufferSpace : Prop :=
  ∀ (s : State) (rest : List HostAction), s.host = .reset :: rest →
    ∃ t, step s = .next t ∧ AfterReset s rest t ∧ t.mem = s.mem

/-- A reset during a command (R300: "the command's output footprint then holds unspecified bytes"; U27 of
spec/93_implementation_defined.md). That it is one action beside the command's `CMD` write, that a refused
command is refused there too, and that only an operation that was to end OK has an output footprint are the
model's reading (log 18). The step answers a state after reset; every byte outside the output footprint is as
before, all of them when the operation was not to end OK; and a byte inside it is a draw (log 5), which does
not depend on what the buffer space held. With an illegal word no operation starts. -/
def Obligations.ResetDuringACommandLosesItsOutput : Prop :=
  ∀ (s : State) (v : Nat) (rest : List HostAction), s.host = .resetDuring v :: rest →
    ((∀ i, decode (BitVec.ofNat 32 v) ≠ .ok i) →
      ∃ t, step s = .next t ∧ AfterReset s rest t ∧ t.mem = s.mem) ∧
    ∀ i, decode (BitVec.ofNat 32 v) = .ok i →
      (∀ r, exec i { s with host := rest, cmd := BitVec.ofNat 32 v } = .refused r → step s = .refused r) ∧
      ∀ u, exec i { s with host := rest, cmd := BitVec.ofNat 32 v } = .next u →
        ∃ t, step s = .next t ∧ AfterReset s rest t ∧
          (∀ a, ¬ (u.result = .ok ∧ s.WritesByte i a) → t.mem.read a = s.mem.read a) ∧
          ∀ (m : Memory) (a : Nat), u.result = .ok → s.WritesByte i a →
            ∃ t', step { s with mem := m } = .next t' ∧ t'.mem.read a = t.mem.read a

/-! ### The host-interface registers -/

/-- R22. "Operand registers 2 to 8 are written only by the host. No operation modifies them." No
operation changes an operand register; a host write of one keeps the low bits and changes nothing else. -/
def Obligations.OperandRegistersAreTheHosts : Prop :=
  (∀ (i : Instr) (s t : State), exec i s = .next t →
    t.inBase = s.inBase ∧ t.out0Base = s.out0Base ∧ t.out1Base = s.out1Base ∧ t.count = s.count ∧
    t.spb = s.spb ∧ t.blksz = s.blksz ∧ t.len = s.len) ∧
  (∀ (s : State) (v : Nat) (rest : List HostAction),
    (s.host = .wr 2 v :: rest → step s = .next { s with host := rest, inBase := v % 2 ^ s.cfg.aw }) ∧
    (s.host = .wr 3 v :: rest → step s = .next { s with host := rest, out0Base := v % 2 ^ s.cfg.aw }) ∧
    (s.host = .wr 4 v :: rest → step s = .next { s with host := rest, out1Base := v % 2 ^ s.cfg.aw }) ∧
    (s.host = .wr 5 v :: rest → step s = .next { s with host := rest, count := BitVec.ofNat 32 v }) ∧
    (s.host = .wr 6 v :: rest → step s = .next { s with host := rest, spb := BitVec.ofNat 32 v }) ∧
    (s.host = .wr 7 v :: rest → step s = .next { s with host := rest, blksz := BitVec.ofNat 32 v }) ∧
    (s.host = .wr 8 v :: rest → step s = .next { s with host := rest, len := v % 2 ^ s.cfg.aw }))

/-- "Every register not listed does not exist: a host write to it is ignored and a host read of it
returns 0" (a sentence of R21: numbers 9 to 15 and 24 upward). A host write of a register that R21 lists as
read-only, `STATUS` and the `WF_*` registers, changes nothing either: the model's reading of that access
column (log 10). -/
def Obligations.UnlistedRegistersIgnoreWritesAndReadZero : Prop :=
  ∀ (s : State) (reg v : Nat) (rest : List HostAction),
    ((9 ≤ reg ∧ reg ≤ 15) ∨ 24 ≤ reg →
      (s.host = .wr reg v :: rest → step s = .next { s with host := rest }) ∧
      (s.host = .rd reg :: rest → step s = .next { s with host := rest, seen := 0 :: s.seen })) ∧
    (reg = 1 ∨ (16 ≤ reg ∧ reg ≤ 23) → s.host = .wr reg v :: rest → step s = .next { s with host := rest })

/-- What a host read of `CMD`, `STATUS` and the operand registers returns (R21, R25, R26), and of the
`WF_*` registers while they hold a parsed record (R30, R31); a read changes nothing else. -/
def Obligations.RegisterReadsReturnTheirValues : Prop :=
  ∀ (s : State) (reg v : Nat) (rest : List HostAction), s.host = .rd reg :: rest →
    (reg, v) ∈ ([(0, s.cmd.toNat), (1, s.statusWord.toNat), (2, s.inBase), (3, s.out0Base),
      (4, s.out1Base), (5, s.count.toNat), (6, s.spb.toNat), (7, s.blksz.toNat), (8, s.len)]
      ++ (if s.wfValid = true then
        [(16, s.wf.format.toNat), (17, s.wf.channels.toNat), (18, s.wf.sampleRate.toNat),
          (19, s.wf.byteRate.toNat), (20, s.wf.blockAlign.toNat), (21, s.wf.bits.toNat),
          (22, s.wf.dataOffset), (23, s.wf.dataLen.toNat)]
        else []) : List (Nat × Nat)) →
    step s = .next { s with host := rest, seen := v :: s.seen }

/-- A read of a `WF_*` register that holds no specified value is a draw (R31, R138, R308): the step
answers a next state, and neither the value seen nor anything else of it depends on what the `WF_*`
registers hold. Nothing else of the state changes but the model's own counter of draws. -/
def Obligations.InvalidRecordReadsAreDraws : Prop :=
  ∀ (s : State) (reg : Nat) (rest : List HostAction), s.host = .rd reg :: rest → 16 ≤ reg → reg ≤ 23 →
    s.wfValid = false → ∃ v d, ∀ r : WaveFormat,
      step { s with wf := r } = .next { s with wf := r, host := rest, seen := v :: s.seen, draws := d }

/-- R25. The fields of `STATUS`: `RESULT` in bits 2:0 with the codes 0 to 4, `TABLES_READY` in bit 3,
bits 31:4 read as 0; "INIT_TABLES sets it; nothing clears it but reset"; "Every command overwrites it; no
operation reads it." -/
def Obligations.StatusFields : Prop :=
  (∀ s : State,
    s.statusWord.toNat % 8 = (match s.result with
      | .none => 0 | .ok => 1 | .rejected => 2 | .parseFail => 3 | .illegalCmd => 4) ∧
    (s.statusWord.toNat / 8 = if s.tablesReady = true then 1 else 0)) ∧
  (∀ (i : Instr) (s t : State), exec i s = .next t →
    t.result ≠ .none ∧ t.tablesReady = (s.tablesReady || decide (i = .initTables))) ∧
  (∀ (i : Instr) (s : State) (r : ResultCode), exec i { s with result := r } = exec i s) ∧
  (∀ s t : State, step s = .next t → s.tablesReady = true → t.tablesReady = false →
    s.host.head? = some .reset ∨ ∃ v, s.host.head? = some (.resetDuring v))

/-! ### Failures -/

/-- R271. Which operation can end with which code: a decoder OK or REJECTED, PARSE_HEADER OK or
PARSE_FAIL, INIT_TABLES OK; no operation faults ("There is no trap mechanism", R270). -/
def Obligations.EachOperationEndsWithItsCodes : Prop :=
  ∀ (i : Instr) (s : State),
    (∀ f, exec i s ≠ .fault f) ∧
    ∀ t, exec i s = .next t →
      (isDecoder i = true → t.result = .ok ∨ t.result = .rejected) ∧
      (i = .parseHeader → t.result = .ok ∨ t.result = .parseFail) ∧
      (i = .initTables → t.result = .ok)

/-- R161 (LIN and LAW), R248 (ADPCM) and R162. A decoder is rejected exactly when a buffer it uses is
absent, the count is not positive or exceeds `N_MAX`, or (ADPCM) the block parameters are malformed; and
a rejected decoder changes `STATUS.RESULT` alone. (A LAW decoder with `TABLES_READY` = 0 is R224's.) -/
def Obligations.DecodersRejectExactlyInvalidArguments : Prop :=
  ∀ (i : Instr) (s : State), isDecoder i = true → (isLaw i = true → s.tablesReady = true) →
    (¬ s.ValidArgs i → exec i s = .next { s with result := .rejected }) ∧
    (s.ValidArgs i → ∀ t, exec i s = .next t → t.result = .ok)

/-- R272. "REJECTED and ILLEGAL_CMD: no byte of the buffer space is read or written; no table, `WF_*` or
operand register changes; only `STATUS.RESULT` changes. PARSE_FAIL: no byte of the buffer space is
written ...; the `WF_*` registers become unspecified; `STATUS.RESULT` changes. `TABLES_READY` is never
changed by a failure." (`CMD` holds the value the host wrote, R26.) -/
def Obligations.FailuresChangeNothingElse : Prop :=
  (∀ (i : Instr) (s t : State), exec i s = .next t →
    (t.result = .rejected → t = { s with result := .rejected }) ∧
    (t.result = .parseFail →
      t = { s with result := .parseFail, wf := t.wf, wfValid := false, draws := t.draws })) ∧
  ∀ (s t : State) (v : Nat) (rest : List HostAction), s.host = .wr 0 v :: rest → step s = .next t →
    t.result = .illegalCmd →
      t = { s with host := rest, cmd := BitVec.ofNat 32 v, result := .illegalCmd }

/-- R224. "a LAW decoder command issued in that state" (`TABLES_READY` = 0) has no meaning: the model
refuses it, whatever its arguments. -/
def Obligations.LawDecodersNeedTheTables : Prop :=
  ∀ (i : Instr) (s : State), isLaw i = true → s.tablesReady = false →
    exec i s = .refused .tablesNotReady

/-- R62, R72, R303 (H2, H3). A decoder with valid arguments (and ready tables) answers a next state
exactly when the host has kept its duties byte by byte: every byte of the footprint exists and is
allocated, and the input, left and right footprints are disjoint. Else it is refused by the name of a duty
broken: beyondBufferSpace only when a byte of the footprint lies at or above `2^AW`, outsideAllocation only when
one lies in a hole of the allocation, overlappingFootprints only when two footprints share one. (Which of several
broken duties is named is the model's choice, log 15.) -/
def Obligations.DecodersRunExactlyUnderTheDuties : Prop :=
  ∀ (i : Instr) (s : State), isDecoder i = true → (isLaw i = true → s.tablesReady = true) →
    s.ValidArgs i →
    ((∃ t, exec i s = .next t) ↔ s.KeepsDuties i) ∧
    (¬ s.KeepsDuties i →
      (exec i s = .refused .beyondBufferSpace ∧
        ∃ a, (s.ReadsByte i a ∨ s.WritesByte i a) ∧ 2 ^ s.cfg.aw ≤ a) ∨
      (exec i s = .refused .outsideAllocation ∧
        ∃ a, (s.ReadsByte i a ∨ s.WritesByte i a) ∧
          ∃ hole ∈ s.cfg.unallocated, InSpan hole.base hole.size a) ∨
      (exec i s = .refused .overlappingFootprints ∧
        ∃ a, (s.ReadsByte i a ∧ s.WritesByte i a) ∨
          (isStereo i = true ∧ InSpan s.out0Base (4 * s.frames) a ∧ InSpan s.out1Base (4 * s.frames) a)))

/-! ### Unit SYS -/

/-- R212. INIT_TABLES: every entry of both tables is the parameters' entry, `TABLES_READY` is set, the
result is OK, nothing else changes; it cannot be rejected, and a second run changes nothing. After reset it
gives `STATUS` = 0x00000009. -/
def Obligations.InitTablesFillsBothTables : Prop :=
  encode .initTables = 0x01 ∧
  (∀ t, exec .initTables State.reset = .next t → t.statusWord = 0x00000009#32) ∧
  ∀ s : State, ∃ t, exec .initTables s = .next t ∧
    t = { s with alawTab := t.alawTab, ulawTab := t.ulawTab, tablesReady := true, result := .ok } ∧
    (∀ (c : Nat) (h : c < 256), t.alawTab[c] = s.cfg.alawEntry[c] ∧ t.ulawTab[c] = s.cfg.ulawEntry[c]) ∧
    exec .initTables t = .next t

/-! ### The decoders

`MonoDecoder` and `StereoDecoder` are the shape of R163 and R164 under R161 and R162: what a decoder
with elements of `w` bytes and conversion `conv` does on every state. -/

/-- The mono shape: rejected with nothing changed on invalid arguments; else, under the host's duties,
OK with output element `k` the conversion of input element `k` (R163), no other byte of the buffer space
and no other part of the state changed. -/
def MonoDecoder (i : Instr) (w : Nat) (conv : State → Nat → F32) : Prop :=
  ∀ s : State, (isLaw i = true → s.tablesReady = true) →
    (¬ s.ValidArgs i → exec i s = .next { s with result := .rejected }) ∧
    (s.ValidArgs i → s.KeepsDuties i → ∃ t, exec i s = .next t ∧
      t = { s with mem := t.mem, result := .ok } ∧
      (∀ k < s.frames, wordAt t.mem (s.out0Base + 4 * k) =
        conv s (s.mem.readLE (s.inBase + w * k) w)) ∧
      ∀ a, ¬ InSpan s.out0Base (4 * s.frames) a → t.mem.read a = s.mem.read a)

/-- The stereo shape (R164): input element `2k` is the left sample of frame `k` and element `2k + 1` the
right one. -/
def StereoDecoder (i : Instr) (w : Nat) (conv : State → Nat → F32) : Prop :=
  ∀ s : State, (isLaw i = true → s.tablesReady = true) →
    (¬ s.ValidArgs i → exec i s = .next { s with result := .rejected }) ∧
    (s.ValidArgs i → s.KeepsDuties i → ∃ t, exec i s = .next t ∧
      t = { s with mem := t.mem, result := .ok } ∧
      (∀ k < s.frames,
        wordAt t.mem (s.out0Base + 4 * k) = conv s (s.mem.readLE (s.inBase + w * (2 * k)) w) ∧
        wordAt t.mem (s.out1Base + 4 * k) = conv s (s.mem.readLE (s.inBase + w * (2 * k + 1)) w)) ∧
      ∀ a, ¬ InSpan s.out0Base (4 * s.frames) a → ¬ InSpan s.out1Base (4 * s.frames) a →
        t.mem.read a = s.mem.read a)

/-- R170, R171. U8.M and U8.S: "Unsigned 8-bit: `output = (sample - 128) / 128`", exact in binary32. -/
def Obligations.U8DecodersConvertEachSample : Prop :=
  encode .u8M = 0x20 ∧ encode .u8S = 0x21 ∧
  MonoDecoder .u8M 1 (fun _ e => f32 ((e : Int) - 128) 128) ∧
  StereoDecoder .u8S 1 (fun _ e => f32 ((e : Int) - 128) 128) ∧
  (∀ e : Nat, e < 256 → f32Value (f32 ((e : Int) - 128) 128) = ((e : ℚ) - 128) / 128) ∧
  f32 ((0x00 : Int) - 128) 128 = 0xBF800000#32 ∧ f32 ((0x80 : Int) - 128) 128 = 0x00000000#32 ∧
  f32 ((0xFF : Int) - 128) 128 = 0x3F7E0000#32 ∧ f32 ((0x7F : Int) - 128) 128 = 0xBC000000#32

/-- R172, R173. S16.M and S16.S: "Signed 16-bit: `output = sample / 32768`", exact in binary32. -/
def Obligations.S16DecodersConvertEachSample : Prop :=
  encode .s16M = 0x22 ∧ encode .s16S = 0x23 ∧
  MonoDecoder .s16M 2 (fun _ e => f32 (sext 16 e) 32768) ∧
  StereoDecoder .s16S 2 (fun _ e => f32 (sext 16 e) 32768) ∧
  (∀ e : Nat, e < 65536 → f32Value (f32 (sext 16 e) 32768) = (sext 16 e : ℚ) / 32768) ∧
  f32 (sext 16 0x8000) 32768 = 0xBF800000#32 ∧ f32 (sext 16 0x7FFF) 32768 = 0x3F7FFE00#32 ∧
  f32 (sext 16 0xFFFF) 32768 = 0xB8000000#32 ∧ f32 (sext 16 0) 32768 = 0x00000000#32 ∧
  f32 (sext 16 0x4000) 32768 = 0x3F000000#32

/-- R174, R175. S24.M and S24.S: "Signed 24-bit (three packed little-endian bytes, sign-extended from bit
23): `output = sample / 8388608`", exact in binary32. -/
def Obligations.S24DecodersConvertEachSample : Prop :=
  encode .s24M = 0x24 ∧ encode .s24S = 0x25 ∧
  MonoDecoder .s24M 3 (fun _ e => f32 (sext 24 e) 8388608) ∧
  StereoDecoder .s24S 3 (fun _ e => f32 (sext 24 e) 8388608) ∧
  (∀ e : Nat, e < 2 ^ 24 → f32Value (f32 (sext 24 e) 8388608) = (sext 24 e : ℚ) / 8388608) ∧
  f32 (sext 24 0x800000) 8388608 = 0xBF800000#32 ∧ f32 (sext 24 0x7FFFFF) 8388608 = 0x3F7FFFFE#32 ∧
  f32 (sext 24 0xFFFFFF) 8388608 = 0xB4000000#32 ∧ f32 (sext 24 1) 8388608 = 0x34000000#32 ∧
  f32 (sext 24 0x123456) 8388608 = 0x3E11A2B0#32

/-- R176, R177. S32.M and S32.S: "Signed 32-bit: `output = sample / 2147483648`", rounded once to
nearest, ties to even (that `f32` rounds so is F32RoundsToNearestEven). -/
def Obligations.S32DecodersConvertEachSample : Prop :=
  encode .s32M = 0x26 ∧ encode .s32S = 0x27 ∧
  MonoDecoder .s32M 4 (fun _ e => f32 (sext 32 e) 2147483648) ∧
  StereoDecoder .s32S 4 (fun _ e => f32 (sext 32 e) 2147483648) ∧
  f32 (sext 32 0x80000000) 2147483648 = 0xBF800000#32 ∧
  f32 (sext 32 0x7FFFFFFF) 2147483648 = 0x3F800000#32 ∧
  f32 (sext 32 0x7FFFFF80) 2147483648 = 0x3F7FFFFF#32 ∧
  f32 (sext 32 0x7FFFFFBF) 2147483648 = 0x3F7FFFFF#32 ∧
  f32 (sext 32 0x7FFFFFC0) 2147483648 = 0x3F800000#32 ∧
  f32 (sext 32 1) 2147483648 = 0x30000000#32 ∧
  f32 (sext 32 0x01000001) 2147483648 = 0x3C000000#32 ∧
  f32 (sext 32 0x01000003) 2147483648 = 0x3C000002#32 ∧
  f32 (sext 32 0x12345678) 2147483648 = 0x3E11A2B4#32

/-- `conv_f32` of R178 by bit pattern: a NaN (magnitude bits above those of infinity) gives +0.0; a
magnitude above that of 1.0 gives 1.0 with its sign; any other pattern passes unchanged. -/
def f32Clamped (e : Nat) : F32 :=
  if 0x7F800000 < e % 2 ^ 31 then 0
  else if 0x3F800000 < e % 2 ^ 31 then (if e < 2 ^ 31 then 0x3F800000#32 else 0xBF800000#32)
  else BitVec.ofNat 32 e

/-- R178, R179. F32.M and F32.S: "32-bit float: passthrough with NaN replaced by 0.0, then clamped to
[-1, 1]". -/
def Obligations.F32DecodersClampEachSample : Prop :=
  encode .f32M = 0x28 ∧ encode .f32S = 0x29 ∧
  MonoDecoder .f32M 4 (fun _ e => f32Clamped e) ∧
  StereoDecoder .f32S 4 (fun _ e => f32Clamped e)

/-- `conv_f64` of R180 by bit pattern: a NaN gives +0.0; a magnitude above that of 1.0 gives 1.0 with its
sign; any other value is narrowed with its sign, its exact magnitude `significand * 2^exponent / 2^1075`
rounded once. -/
def f64ClampedThenNarrowed (e : Nat) : F32 :=
  let ex := e / 2 ^ 52 % 2048
  let frac := e % 2 ^ 52
  if 0x7FF0000000000000 < e % 2 ^ 63 then 0
  else if 0x3FF0000000000000 < e % 2 ^ 63 then (if e < 2 ^ 63 then 0x3F800000#32 else 0xBF800000#32)
  else signed (decide (2 ^ 63 ≤ e))
    (f32Magnitude (if ex = 0 then frac * 2 else (frac + 2 ^ 52) * 2 ^ ex) (2 ^ 1075))

/-- R180, R181. F64.M and F64.S: "64-bit float: same NaN/clamp policy, narrowed to 32-bit float after
clamping". -/
def Obligations.F64DecodersClampThenNarrow : Prop :=
  encode .f64M = 0x2A ∧ encode .f64S = 0x2B ∧
  MonoDecoder .f64M 8 (fun _ e => f64ClampedThenNarrowed e) ∧
  StereoDecoder .f64S 8 (fun _ e => f64ClampedThenNarrowed e)

/-- R220, R221. ALAW.M and ALAW.S: a pure lookup of each code in `ALAW_TAB`; the tables ready. With the
default table, the corner codes of R220. -/
def Obligations.AlawDecodersLookUpEachCode : Prop :=
  encode .alawM = 0x40 ∧ encode .alawS = 0x41 ∧
  MonoDecoder .alawM 1 (fun s c => s.alawTab[c]?.getD 0) ∧
  StereoDecoder .alawS 1 (fun s c => s.alawTab[c]?.getD 0) ∧
  alawEntry 0xD5#8 = 0x39800000#32 ∧ alawEntry 0x55#8 = 0xB9800000#32 ∧
  alawEntry 0xAA#8 = 0x3F7C0000#32 ∧ alawEntry 0x2A#8 = 0xBF7C0000#32

/-- R222, R223. ULAW.M and ULAW.S: a pure lookup of each code in `ULAW_TAB`; the tables ready. With the
default table, the corner codes of R222 and R223. -/
def Obligations.UlawDecodersLookUpEachCode : Prop :=
  encode .ulawM = 0x42 ∧ encode .ulawS = 0x43 ∧
  MonoDecoder .ulawM 1 (fun s c => s.ulawTab[c]?.getD 0) ∧
  StereoDecoder .ulawS 1 (fun s c => s.ulawTab[c]?.getD 0) ∧
  ulawEntry 0x00#8 = 0xBF800000#32 ∧ ulawEntry 0x80#8 = 0x3F800000#32 ∧
  ulawEntry 0xFF#8 = 0x00000000#32 ∧ ulawEntry 0x7F#8 = 0x00000000#32 ∧
  ulawEntry 0xFE#8 = 0x398290E9#32 ∧ ulawEntry 0x8F#8 = 0x3F059825#32 ∧ ulawEntry 0x0F#8 = 0xBF059825#32

/-! ### Unit ADPCM -/

/-- R245. The per-nibble transition, in integers: `diff` from the step the index selects BEFORE its
update, bit 3 subtracts, the predictor clamped to [-32768, 32767], the index clamped to [0, 88], and the
sample emitted is the NEW predictor over 32768, exact in binary32. -/
def Obligations.NibbleStepFollowsTheTables : Prop :=
  ∀ (c : Channel) (nib : BitVec 4),
    let step : Int := stepTable[c.idx]
    let diff : Int := step / 8 + (if nib.toNat / 4 % 2 = 1 then step else 0)
      + (if nib.toNat / 2 % 2 = 1 then step / 2 else 0) + (if nib.toNat % 2 = 1 then step / 4 else 0)
    let t : Int := if nib.toNat / 8 = 1 then c.pred.toInt - diff else c.pred.toInt + diff
    (c.step nib).pred.toInt = max (-32768) (min t 32767) ∧
    ((c.step nib).idx.val : Int) = max 0 (min ((c.idx.val : Int) + indexTable[nib.toNat]) 88) ∧
    f32Value (c.step nib).sample = ((c.step nib).pred.toInt : ℚ) / 32768

/-- R244. The block header: the predictor is the 2 bytes read little-endian and signed; the index is the
third byte clamped into [0, 88], read unsigned, or signed when the parameter says so; the fourth byte has
no effect. -/
def Obligations.BlockHeaderLoadsTheState : Prop :=
  ∀ (m : Memory) (h : Nat),
    (∀ b, (loadHeader b m h).pred.toInt = sext 16 (m.readLE h 2)) ∧
    (loadHeader false m h).idx.val = min (m.read (h + 2)).toNat 88 ∧
    ((loadHeader true m h).idx.val : Int) = max 0 (min (m.read (h + 2)).toInt 88) ∧
    ∀ b v, loadHeader b (m.write (h + 3) v) h = loadHeader b m h

/-- R250. IMA.M on valid arguments: the channel's state runs through the frames, reloaded from the
block's header at the first frame of each block and stepped by the frame's nibble (low nibble of data
byte `p div 2` for even `p`, high for odd); output word `f` is the sample after frame `f`; rejected by
R248 with nothing changed. That the channel holds its last state after the command is the model's choice
(log 7): R34 says of it only that it is live inside one command. -/
def Obligations.ImaMonoDecodesEachFrame : Prop :=
  encode .imaM = 0x60 ∧ ∀ s : State,
    (¬ s.ValidArgs .imaM → exec .imaM s = .next { s with result := .rejected }) ∧
    (s.ValidArgs .imaM → s.KeepsDuties .imaM → ∃ (t : State) (c : Nat → Channel),
      exec .imaM s = .next t ∧
      t = { s with mem := t.mem, ch0 := c (s.frames - 1), result := .ok } ∧
      (∀ f < s.frames,
        let p := f % s.spb.toInt.toNat
        let block := s.blockAddr (f / s.spb.toInt.toNat)
        let byte := (s.mem.read (block + 4 + p / 2)).toNat
        c f = (if p = 0 then loadHeader s.cfg.adpcmIndexByteSigned s.mem block else c (f - 1)).step
          (BitVec.ofNat 4 (if p % 2 = 0 then byte % 16 else byte / 16)) ∧
        wordAt t.mem (s.out0Base + 4 * f) = (c f).sample) ∧
      ∀ a, ¬ InSpan s.out0Base (4 * s.frames) a → t.mem.read a = s.mem.read a)

/-- R251. IMA.S on valid arguments: two independent channels, the left header at the block's start and
the right one 4 bytes on, one data byte a frame, its low nibble left and its high nibble right; rejected
by R248 with nothing changed. That the channels hold their last states after the command is the model's choice
(log 7): R34 says of them only that they are live inside one command. -/
def Obligations.ImaStereoDecodesEachFrame : Prop :=
  encode .imaS = 0x61 ∧ ∀ s : State,
    (¬ s.ValidArgs .imaS → exec .imaS s = .next { s with result := .rejected }) ∧
    (s.ValidArgs .imaS → s.KeepsDuties .imaS → ∃ (t : State) (l r : Nat → Channel),
      exec .imaS s = .next t ∧
      t = { s with mem := t.mem, ch0 := l (s.frames - 1), ch1 := r (s.frames - 1), result := .ok } ∧
      (∀ f < s.frames,
        let p := f % s.spb.toInt.toNat
        let block := s.blockAddr (f / s.spb.toInt.toNat)
        let byte := (s.mem.read (block + 8 + p)).toNat
        l f = (if p = 0 then loadHeader s.cfg.adpcmIndexByteSigned s.mem block else l (f - 1)).step
          (BitVec.ofNat 4 (byte % 16)) ∧
        r f = (if p = 0 then loadHeader s.cfg.adpcmIndexByteSigned s.mem (block + 4)
          else r (f - 1)).step (BitVec.ofNat 4 (byte / 16)) ∧
        wordAt t.mem (s.out0Base + 4 * f) = (l f).sample ∧
        wordAt t.mem (s.out1Base + 4 * f) = (r f).sample) ∧
      ∀ a, ¬ InSpan s.out0Base (4 * s.frames) a → ¬ InSpan s.out1Base (4 * s.frames) a →
        t.mem.read a = s.mem.read a)

/-- Block independence (R252), of IMA.M and of IMA.S: decoding `n` frames in one command leaves the buffer
space as decoding the first `k` whole blocks and then the rest in a second command, with `IN_BASE`, the output
bases and `COUNT` moved accordingly. The channels end equal too, which looks at them between commands: that they
keep their last states there is the model's choice (log 7). -/
def Obligations.ImaBlocksDecodeIndependently : Prop :=
  ∀ (i : Instr) (s : State) (k : Nat), isAdpcm i = true → s.ValidArgs i → s.KeepsDuties i → 0 < k →
    k * s.spb.toInt.toNat < s.frames →
    let first := k * s.spb.toInt.toNat
    ∃ t u v, exec i s = .next t ∧
      exec i { s with count := BitVec.ofNat 32 first } = .next u ∧
      exec i { u with
        inBase := s.blockAddr k, out0Base := s.out0Base + 4 * first, out1Base := s.out1Base + 4 * first
        count := BitVec.ofNat 32 (s.frames - first) } = .next v ∧
      (∀ a, v.mem.read a = t.mem.read a) ∧ v.ch0 = t.ch0 ∧ v.ch1 = t.ch1

/-! ### Unit HDR -/

/-- R122. "fails if buffer is absent, shorter than the minimum header size (44 bytes), or the first 4
bytes are not "RIFF" or bytes 8–11 are not "WAVE"": PARSE_FAIL. -/
def Obligations.ParseFailsOnBadPreamble : Prop :=
  ∀ s : State, s.KeepsDuties .parseHeader →
    (s.inBase = 0 ∨ s.len < 44 ∨
      [s.mem.read s.inBase, s.mem.read (s.inBase + 1), s.mem.read (s.inBase + 2),
        s.mem.read (s.inBase + 3)] ≠ [0x52#8, 0x49#8, 0x46#8, 0x46#8] ∨
      [s.mem.read (s.inBase + 8), s.mem.read (s.inBase + 9), s.mem.read (s.inBase + 10),
        s.mem.read (s.inBase + 11)] ≠ [0x57#8, 0x41#8, 0x56#8, 0x45#8]) →
    ∃ t, exec .parseHeader s = .next t ∧ t.result = .parseFail

/-- R124. The file-size field: "fails if it claims fewer than 36 bytes or more than
`buffer_length - 8`"; and "The field is used for this check only": two buffers that agree outside offsets
4 to 7, with both fields in range, parse alike. -/
def Obligations.ParseFailsOnBadFileSize : Prop :=
  (∀ s : State, s.KeepsDuties .parseHeader → 44 ≤ s.len →
    (s.mem.readLE (s.inBase + 4) 4 < 36 ∨ s.len - 8 < s.mem.readLE (s.inBase + 4) 4) →
    ∃ t, exec .parseHeader s = .next t ∧ t.result = .parseFail) ∧
  ∀ (aw : Nat) (m m' : Memory) (buf len : Nat), 44 ≤ len →
    (∀ a, InSpan buf len a → ¬ InSpan (buf + 4) 4 a → m.read a = m'.read a) →
    36 ≤ m.readLE (buf + 4) 4 → m.readLE (buf + 4) 4 ≤ len - 8 →
    36 ≤ m'.readLE (buf + 4) 4 → m'.readLE (buf + 4) 4 ≤ len - 8 →
    parseHeader aw m buf len = parseHeader aw m' buf len

/-- R128, R129, R130. A `fmt ` chunk at offset 12 that lies inside a buffer whose bytes are the host's to
read is a parse failure when its declared size is below 16, when a field is out of range (channels 0 or
above 8, sample rate 0 or above 384000, block align 0, bits per sample 0 or above 64), and, for format
code 1, when the block align or the byte rate is not the one that channels, bits and rate give. -/
def Obligations.ParseFailsOnBadFmtChunk : Prop :=
  ∀ s : State, s.KeepsDuties .parseHeader → 44 ≤ s.len → s.len < 2 ^ s.cfg.aw →
    Memory.tag s.mem (s.inBase + 12) = [0x66#8, 0x6D#8, 0x74#8, 0x20#8] →
    let size := s.mem.readLE (s.inBase + 16) 4
    let fmt := s.mem.readLE (s.inBase + 20) 2
    let ch := s.mem.readLE (s.inBase + 22) 2
    let rate := s.mem.readLE (s.inBase + 24) 4
    let brate := s.mem.readLE (s.inBase + 28) 4
    let balign := s.mem.readLE (s.inBase + 32) 2
    let bits := s.mem.readLE (s.inBase + 34) 2
    20 + size ≤ s.len →
    (size < 16 ∨ ch = 0 ∨ 8 < ch ∨ rate = 0 ∨ 384000 < rate ∨ balign = 0 ∨ bits = 0 ∨ 64 < bits ∨
      (fmt = 1 ∧ (balign ≠ (ch * bits + 7) / 8 ∨ brate ≠ rate * balign))) →
    ∃ t, exec .parseHeader s = .next t ∧ t.result = .parseFail

/-- R126, R127, R132. One turn of the walk at a chunk header that lies inside the buffer: a chunk over
the ceiling or running past the buffer is fatal when its tag is "fmt " or "data"; any other tag,
rejected or accepted, is skipped past its padded size, and an advance that does not fit in `AW` bits
fails. -/
def Obligations.ChunkRejectionAndSkipping : Prop :=
  ∀ (aw : Nat) (m : Memory) (buf len fuel off : Nat) (found : Found),
    off + 8 < 2 ^ aw → off + 8 ≤ len → (found.fmt = none ∨ found.data = none) →
    let size := m.readLE (buf + off + 4) 4
    let key := m.tag (buf + off) = tagFmt ∨ m.tag (buf + off) = tagData
    (key → (104857600 < size ∨ 2 ^ aw ≤ off + 8 + size ∨ len < off + 8 + size) →
      walk aw m buf len (fuel + 1) off found = none) ∧
    (¬ key → off + 8 + size + size % 2 < 2 ^ aw →
      walk aw m buf len (fuel + 1) off found =
        walk aw m buf len fuel (off + 8 + size + size % 2) found) ∧
    (¬ key → 2 ^ aw ≤ off + 8 + size + size % 2 → walk aw m buf len (fuel + 1) off found = none)

/-- R128, R129, R130, and R134 of a second `fmt ` chunk. One turn of the walk at a `fmt ` chunk that is not
rejected: a parse failure when its size is below 16 or a check fails; else its six fields replace what an
earlier one recorded, and the walk ends if a `data` chunk has been found, or goes on past the padded size. -/
def Obligations.FmtChunksAreCheckedAndRecorded : Prop :=
  ∀ (aw : Nat) (m : Memory) (buf len fuel off : Nat) (found : Found),
    (found.fmt = none ∨ found.data = none) →
    m.tag (buf + off) = [0x66#8, 0x6D#8, 0x74#8, 0x20#8] →
    let size := m.readLE (buf + off + 4) 4
    let p := buf + off + 8
    let fmt := m.readLE p 2
    let ch := m.readLE (p + 2) 2
    let rate := m.readLE (p + 4) 4
    let brate := m.readLE (p + 8) 4
    let balign := m.readLE (p + 12) 2
    let bits := m.readLE (p + 14) 2
    let bad := size < 16 ∨ ch = 0 ∨ 8 < ch ∨ rate = 0 ∨ 384000 < rate ∨ balign = 0 ∨ bits = 0 ∨ 64 < bits ∨
      (fmt = 1 ∧ (balign ≠ (ch * bits + 7) / 8 ∨ brate ≠ rate * balign))
    let found' : Found := { found with fmt := some ⟨fmt, ch, rate, brate, balign, bits⟩ }
    let next := off + 8 + size + size % 2
    size ≤ 104857600 → off + 8 + size < 2 ^ aw → off + 8 + size ≤ len →
      (bad → walk aw m buf len (fuel + 1) off found = none) ∧
      (¬ bad → walk aw m buf len (fuel + 1) off found =
        if found.data ≠ none then found'.record
        else if next < 2 ^ aw then walk aw m buf len fuel next found' else none)

/-- R131, and R134 of a second `data` chunk. One turn of the walk at a `data` chunk that is not rejected: the
payload offset (chunk start + 8) and the declared size replace what an earlier one recorded, and the walk
ends if a `fmt ` chunk has been found, or goes on past the padded size. -/
def Obligations.DataChunksAreRecorded : Prop :=
  ∀ (aw : Nat) (m : Memory) (buf len fuel off : Nat) (found : Found),
    (found.fmt = none ∨ found.data = none) →
    m.tag (buf + off) = [0x64#8, 0x61#8, 0x74#8, 0x61#8] →
    let size := m.readLE (buf + off + 4) 4
    let found' : Found := { found with data := some ⟨off + 8, size⟩ }
    let next := off + 8 + size + size % 2
    size ≤ 104857600 → off + 8 + size < 2 ^ aw → off + 8 + size ≤ len →
      walk aw m buf len (fuel + 1) off found =
        if found.fmt ≠ none then found'.record
        else if next < 2 ^ aw then walk aw m buf len fuel next found' else none

/-- The canonical file (R133; the source's first testable property, S1 of spec/95_test_vectors.md): RIFF,
WAVE, a file size in range, a `fmt ` chunk of 16 bytes at 12 whose fields are in the ranges of R129 and,
for format 1, agree by R130, and a `data` chunk at 36 that fits. PARSE_HEADER answers OK with exactly the
fields found, payload offset 44 and the declared length; nothing else changes. -/
def Obligations.CanonicalFileParses : Prop :=
  ∀ s : State, s.KeepsDuties .parseHeader → s.len < 2 ^ s.cfg.aw → s.inBase ≠ 0 → 44 ≤ s.len →
    Memory.tag s.mem s.inBase = [0x52#8, 0x49#8, 0x46#8, 0x46#8] →
    Memory.tag s.mem (s.inBase + 8) = [0x57#8, 0x41#8, 0x56#8, 0x45#8] →
    36 ≤ s.mem.readLE (s.inBase + 4) 4 → s.mem.readLE (s.inBase + 4) 4 ≤ s.len - 8 →
    Memory.tag s.mem (s.inBase + 12) = [0x66#8, 0x6D#8, 0x74#8, 0x20#8] →
    s.mem.readLE (s.inBase + 16) 4 = 16 →
    1 ≤ s.mem.readLE (s.inBase + 22) 2 → s.mem.readLE (s.inBase + 22) 2 ≤ 8 →
    1 ≤ s.mem.readLE (s.inBase + 24) 4 → s.mem.readLE (s.inBase + 24) 4 ≤ 384000 →
    1 ≤ s.mem.readLE (s.inBase + 32) 2 →
    1 ≤ s.mem.readLE (s.inBase + 34) 2 → s.mem.readLE (s.inBase + 34) 2 ≤ 64 →
    (s.mem.readLE (s.inBase + 20) 2 = 1 →
      s.mem.readLE (s.inBase + 32) 2 =
        (s.mem.readLE (s.inBase + 22) 2 * s.mem.readLE (s.inBase + 34) 2 + 7) / 8 ∧
      s.mem.readLE (s.inBase + 28) 4 = s.mem.readLE (s.inBase + 24) 4 * s.mem.readLE (s.inBase + 32) 2) →
    Memory.tag s.mem (s.inBase + 36) = [0x64#8, 0x61#8, 0x74#8, 0x61#8] →
    s.mem.readLE (s.inBase + 40) 4 ≤ 104857600 → 44 + s.mem.readLE (s.inBase + 40) 4 ≤ s.len →
    exec .parseHeader s = .next { s with
      wf := { format := BitVec.ofNat 16 (s.mem.readLE (s.inBase + 20) 2)
              channels := BitVec.ofNat 16 (s.mem.readLE (s.inBase + 22) 2)
              sampleRate := BitVec.ofNat 32 (s.mem.readLE (s.inBase + 24) 4)
              byteRate := BitVec.ofNat 32 (s.mem.readLE (s.inBase + 28) 4)
              blockAlign := BitVec.ofNat 16 (s.mem.readLE (s.inBase + 32) 2)
              bits := BitVec.ofNat 16 (s.mem.readLE (s.inBase + 34) 2)
              dataOffset := 44
              dataLen := BitVec.ofNat 32 (s.mem.readLE (s.inBase + 40) 4) }
      wfValid := true, result := .ok }

/-- R31, R120. PARSE_HEADER writes no byte of the buffer space and no operand register; ended OK it has
written the `WF_*` registers and they are valid; ended PARSE_FAIL they are unspecified. Whenever its
bytes are the host's to read it ends; when the buffer is absent or too short, so that none is read, it
ends PARSE_FAIL whatever the allocation (log 15, the model's reading); and with a buffer present, long enough and
some byte of it not allocated it is refused (R62, R303 H2) by the name of a duty broken: beyondBufferSpace only
when a byte of it lies at or above `2^AW`, outsideAllocation only when one lies in a hole of the allocation. -/
def Obligations.ParseHeaderTouchesOnlyTheRecord : Prop :=
  ∀ s : State,
    (∀ t, exec .parseHeader s = .next t →
      (t.result = .ok ∧ t = { s with wf := t.wf, wfValid := true, result := .ok }) ∨
      (t.result = .parseFail ∧
        t = { s with wf := t.wf, wfValid := false, draws := t.draws, result := .parseFail })) ∧
    (s.KeepsDuties .parseHeader → ∃ t, exec .parseHeader s = .next t) ∧
    (s.inBase = 0 ∨ s.len < 44 → ∃ t, exec .parseHeader s = .next t ∧ t.result = .parseFail) ∧
    (s.inBase ≠ 0 → 44 ≤ s.len → (∃ a, InSpan s.inBase s.len a ∧ ¬ Allocated s.cfg a) →
      (exec .parseHeader s = .refused .beyondBufferSpace ∧
        ∃ a, InSpan s.inBase s.len a ∧ 2 ^ s.cfg.aw ≤ a) ∨
      (exec .parseHeader s = .refused .outsideAllocation ∧
        ∃ a, InSpan s.inBase s.len a ∧ ∃ hole ∈ s.cfg.unallocated, InSpan hole.base hole.size a))

/-- What a successful parse returns (R133, whose sentence the spec derives): the record satisfies the
limits and, for format 1, the cross-validation, its payload offset is at least 20, and the payload lies
inside the buffer. -/
def Obligations.ParsedRecordsAreValid : Prop :=
  ∀ s t : State, s.len < 2 ^ s.cfg.aw → exec .parseHeader s = .next t → t.result = .ok →
    WaveFormat.Valid s.cfg.aw t.wf ∧ t.wf.dataOffset + t.wf.dataLen.toNat ≤ s.len

/-- The bound on the walk (R136, derived): from an offset at or above 12, more fuel than the bound
changes no result, so the bound never cuts a walk short. -/
def Obligations.WalkBoundIsEnough : Prop :=
  ∀ (aw : Nat) (m : Memory) (buf len extra : Nat),
    walk aw m buf len (walkBound len + extra) 12 { fmt := none, data := none } =
      walk aw m buf len (walkBound len) 12 { fmt := none, data := none }

/-- The parser reads nothing outside its buffer (R120, R137): two buffer spaces that agree on
`IN_BASE .. IN_BASE + LEN - 1` parse alike. -/
def Obligations.ParseDependsOnItsBufferAlone : Prop :=
  ∀ (aw : Nat) (m m' : Memory) (buf len : Nat), (∀ a, InSpan buf len a → m.read a = m'.read a) →
    parseHeader aw m buf len = parseHeader aw m' buf len

/-- The width of the parser's offset arithmetic cannot be observed (R139 o): at any two widths that hold
the buffer's length the parse is the same. -/
def Obligations.OffsetWidthIsUnobservable : Prop :=
  ∀ (aw aw' : Nat) (m : Memory) (buf len : Nat), len < 2 ^ aw → len < 2 ^ aw' →
    parseHeader aw m buf len = parseHeader aw' m buf len

/-! ### Numbers -/

/-- R8. "`f32(q)`: for an exact rational `q`, the IEEE 754 binary32 value nearest to `q`, ties to the
value with even significand (round to nearest, ties to even), with gradual underflow. `f32(0)` is
+0.0." Zero is +0.0 over every denominator. For every rational up to the largest finite magnitude: no finite
pattern is nearer, and a tie goes to an even pattern. -/
def Obligations.F32RoundsToNearestEven : Prop :=
  (∀ den : Nat, 0 < den → f32 0 den = 0x00000000#32) ∧
  ∀ (num : Int) (den : Nat), 0 < den →
    |(num : ℚ) / den| ≤ magnitudeValue 0x7F7FFFFF →
    (f32 num den).toNat % 2 ^ 31 < 0x7F800000 ∧
    ∀ w : F32, w.toNat % 2 ^ 31 < 0x7F800000 →
      |f32Value (f32 num den) - (num : ℚ) / den| ≤ |f32Value w - (num : ℚ) / den| ∧
      (|f32Value (f32 num den) - (num : ℚ) / den| = |f32Value w - (num : ℚ) / den| →
        f32Value w ≠ f32Value (f32 num den) → (f32 num den).toNat % 2 = 0)

/-- The order of clamping and narrowing cannot be seen (R185, derived): narrowing a binary64 value first
and clamping it in binary32 gives the bits of clamping first and narrowing then. -/
def Obligations.ClampAndNarrowCommute : Prop :=
  ∀ e : Nat, unpack64 (BitVec.ofNat 64 e) ≠ .nan →
    convF64 e = f32Clamped (unpack64 (BitVec.ofNat 64 e)).narrow.toNat

/-- The integer conversions up to 24 bits lose nothing, and the 32-bit one keeps order (R182, derived). -/
def Obligations.IntegerConversionsKeepOrder : Prop :=
  (∀ a b : Nat, a < b → b < 256 → f32Value (convU8 a) < f32Value (convU8 b)) ∧
  (∀ a b : Nat, a < 2 ^ 16 → b < 2 ^ 16 → sext 16 a < sext 16 b →
    f32Value (convS16 a) < f32Value (convS16 b)) ∧
  (∀ a b : Nat, a < 2 ^ 24 → b < 2 ^ 24 → sext 24 a < sext 24 b →
    f32Value (convS24 a) < f32Value (convS24 b)) ∧
  (∀ a b : Nat, sext 32 a ≤ sext 32 b → f32Value (convS32 a) ≤ f32Value (convS32 b)) ∧
  (∀ a : Nat, 2147483584 ≤ sext 32 a → convS32 a = 0x3F800000#32)

/-- "Outputs are never NaN and never infinite, for any input, in every decoder of the engine" (R184,
derived there): every word an accepted decoder writes is a normalized float, whenever the tables'
parameters are (R219 a). -/
def Obligations.OutputsAreNormalized : Prop :=
  ∀ (i : Instr) (s t : State), isDecoder i = true → s.Inv → s.cfg.wellFormed = true →
    exec i s = .next t → t.result = .ok → ∀ k < s.frames,
      normalized (wordAt t.mem (s.out0Base + 4 * k)) = true ∧
      (isStereo i = true → normalized (wordAt t.mem (s.out1Base + 4 * k)) = true)

/-- R213, R216, R217. The default tables by their formulas, in integers. μ-law: the byte inverted, sign bit
7 (1 = negative), magnitude `((33 + 2*mantissa) << exponent) - 33`, at most 8031, over 8031. A-law:
exclusive-or with 0x55, sign bit 7 (1 = positive), the standard expansion, over 32768, exact. -/
def Obligations.DefaultTablesFollowTheirFormulas : Prop :=
  (∀ c : Byte,
    let u := 255 - c.toNat
    let mag : Int := (33 + 2 * (u % 16 : Nat)) * 2 ^ (u / 16 % 8) - 33
    ulawInt c = (if u / 128 = 1 then -mag else mag) ∧ 0 ≤ mag ∧ mag ≤ 8031 ∧
    ulawEntry c = f32 (ulawInt c) 8031) ∧
  (∀ c : Byte,
    let a := c.toNat ^^^ 0x55
    let mag : Int := if a / 16 % 8 = 0 then a % 16 * 16 + 8
      else (a % 16 * 16 + 264) * 2 ^ (a / 16 % 8 - 1)
    alawInt c = (if a / 128 = 1 then mag else -mag) ∧ 8 ≤ mag ∧ mag ≤ 32256 ∧
    f32Value (alawEntry c) = (alawInt c : ℚ) / 32768) ∧
  ∀ c : Byte, lawEntry defaultConfig.alawEntry c.toNat = alawEntry c ∧
    lawEntry defaultConfig.ulawEntry c.toNat = ulawEntry c

/-- The default tables (R219 d, e, g, derived): odd symmetry but for the two μ-law zeros, the μ-law
extremes and zeros, no A-law zero and the A-law extremes; and every entry is normalized (R219 a). -/
def Obligations.DefaultTablesHaveTheirProperties : Prop :=
  defaultConfig.wellFormed = true ∧
  (∀ c : Byte, alawEntry (c ^^^ 0x80#8) = alawEntry c ^^^ 0x80000000#32) ∧
  (∀ c : Byte, c ≠ 0x7F#8 → c ≠ 0xFF#8 → ulawEntry (c ^^^ 0x80#8) = ulawEntry c ^^^ 0x80000000#32) ∧
  ulawEntry 0x00#8 = 0xBF800000#32 ∧ ulawEntry 0x80#8 = 0x3F800000#32 ∧
  ulawEntry 0xFF#8 = 0x00000000#32 ∧ ulawEntry 0x7F#8 = 0x00000000#32 ∧
  (∀ c : Byte, alawEntry c ≠ 0x00000000#32 ∧ alawEntry c ≠ 0x80000000#32) ∧
  alawEntry 0xAA#8 = 0x3F7C0000#32 ∧ alawEntry 0x2A#8 = 0xBF7C0000#32

/-! ### The buffer space -/

/-- R60, R63. A little-endian write followed by a read of the same bytes gives the value written, byte
`k` of the value at `addr + k`, and no other byte changes. -/
def Obligations.LittleEndianReadAfterWrite : Prop :=
  ∀ (m : Memory) (a n v : Nat),
    (m.writeLE a n v).readLE a n = v % 256 ^ n ∧
    (∀ k < n, ((m.writeLE a n v).read (a + k)).toNat = v / 256 ^ k % 256) ∧
    ∀ x, ¬ InSpan a n x → (m.writeLE a n v).read x = m.read x

/-- The host's own accesses between commands (R61, R98, R311): bytes stored below `2^AW` are there
afterwards and nothing else changes; a load returns the little-endian word; an address at or above
`2^AW` does not exist, and a store or a load that reaches it faults, so that no byte of it is stored (log 12,
the model's choice). -/
def Obligations.HostAccessesTheBufferSpace : Prop :=
  ∀ (s : State) (a : Nat) (rest : List HostAction),
    (∀ bytes, s.host = .st8 a bytes :: rest → a + bytes.length ≤ 2 ^ s.cfg.aw →
      ∃ t, step s = .next t ∧ t = { s with host := rest, mem := t.mem } ∧
        (∀ (k : Nat) (h : k < bytes.length), t.mem.read (a + k) = bytes[k]) ∧
        ∀ x, ¬ InSpan a bytes.length x → t.mem.read x = s.mem.read x) ∧
    (∀ bytes, s.host = .st8 a bytes :: rest → bytes ≠ [] → 2 ^ s.cfg.aw < a + bytes.length →
      step s = .fault .noSuchAddress) ∧
    (s.host = .ld32 a :: rest → a + 4 ≤ 2 ^ s.cfg.aw →
      step s = .next { s with host := rest, seen := s.mem.readLE a 4 :: s.seen }) ∧
    (s.host = .ld8 a :: rest → a < 2 ^ s.cfg.aw →
      step s = .next { s with host := rest, seen := (s.mem.read a).toNat :: s.seen }) ∧
    (s.host = .ld8 a :: rest → 2 ^ s.cfg.aw ≤ a → step s = .fault .noSuchAddress) ∧
    (s.host = .ld32 a :: rest → 2 ^ s.cfg.aw < a + 4 → step s = .fault .noSuchAddress)

/-! ### The whole machine -/

/-- What no operation touches, and where it may write (R22, R31, R32, R34, R61, R64, R311): `CMD`, the operand
registers, the parameters and the host's state are as before; the `WF_*` registers change under
PARSE_HEADER alone, the tables under INIT_TABLES alone, the ADPCM state under the ADPCM decoders alone (that it
keeps its values between commands is the model's choice, log 7); and every byte outside the output footprint
reads as before. -/
def Obligations.OperationsKeepToTheirOutputs : Prop :=
  ∀ (i : Instr) (s t : State), exec i s = .next t →
    t.cfg = s.cfg ∧ t.cmd = s.cmd ∧ t.host = s.host ∧ t.seen = s.seen ∧
    t.inBase = s.inBase ∧ t.out0Base = s.out0Base ∧ t.out1Base = s.out1Base ∧ t.count = s.count ∧
    t.spb = s.spb ∧ t.blksz = s.blksz ∧ t.len = s.len ∧
    (i ≠ .parseHeader → t.wf = s.wf ∧ t.wfValid = s.wfValid ∧ t.draws = s.draws) ∧
    (i ≠ .initTables → t.alawTab = s.alawTab ∧ t.ulawTab = s.ulawTab ∧ t.tablesReady = s.tablesReady) ∧
    (isAdpcm i = false → t.ch0 = s.ch0) ∧ (i ≠ .imaS → t.ch1 = s.ch1) ∧
    ∀ a, ¬ s.WritesByte i a → t.mem.read a = s.mem.read a

/-- R24. "An operation reads only the registers listed for it; the others may hold anything, including
0, without effect." For each operation, other values in the registers it does not list change nothing
of its outcome but those registers. -/
def Obligations.UnlistedOperandsHaveNoEffect : Prop :=
  ∀ (i : Instr) (s : State) (inB o0 o1 ln : Nat) (n spb bs : Word),
    let s' : State := { s with
      inBase := if i = .initTables then inB else s.inBase
      out0Base := if isDecoder i = true then s.out0Base else o0
      out1Base := if isStereo i = true then s.out1Base else o1
      count := if isDecoder i = true then s.count else n
      spb := if isAdpcm i = true then s.spb else spb
      blksz := if isAdpcm i = true then s.blksz else bs
      len := if i = .parseHeader then s.len else ln }
    (∀ r, exec i s = .refused r → exec i s' = .refused r) ∧
    ∀ t, exec i s = .next t → exec i s' = .next { t with
      inBase := s'.inBase, out0Base := s'.out0Base, out1Base := s'.out1Base, count := s'.count
      spb := s'.spb, blksz := s'.blksz, len := s'.len }

/-- Every decoder is stateless (R186 of LIN, R225 of LAW, R252 of ADPCM). Re-running it on the state it answered
answers a state with every register, table and channel the same and every byte of the buffer space reading the
same (the channels between the two runs rest on log 7, the model's choice); and two accepted commands with equal
operands, equal tables and equal input bytes write equal output bytes, whatever else differs. -/
def Obligations.DecodersAreStatelessAndIdempotent : Prop :=
  (∀ (i : Instr) (s t : State), isDecoder i = true → exec i s = .next t →
    ∃ u, exec i t = .next u ∧ u = { t with mem := u.mem } ∧ ∀ a, u.mem.read a = t.mem.read a) ∧
  ∀ (i : Instr) (s s' t t' : State), isDecoder i = true →
    s'.cfg.adpcmIndexByteSigned = s.cfg.adpcmIndexByteSigned → s'.inBase = s.inBase →
    s'.out0Base = s.out0Base → s'.out1Base = s.out1Base → s'.count = s.count → s'.spb = s.spb →
    s'.blksz = s.blksz → s'.alawTab = s.alawTab → s'.ulawTab = s.ulawTab →
    (∀ a, s.ReadsByte i a → s'.mem.read a = s.mem.read a) →
    exec i s = .next t → t.result = .ok → exec i s' = .next t' → t'.result = .ok →
    ∀ a, s.WritesByte i a → t'.mem.read a = t.mem.read a

/-- R277, R303. The model refuses nothing but what those rules list, and a narrow register write: a
refused step is a `CMD` write (a reset during its command or not, log 18) that breaks a host duty, or a narrow
write (log 11, the model's choice), which is always refused; a faulting step is a host access of the buffer
space (log 12, the model's choice). -/
def Obligations.RefusalsAreTheSpecsOwn : Prop :=
  ∀ s : State,
    (∀ r, step s = .refused r →
      (∃ v rest, (s.host = .wr 0 v :: rest ∨ s.host = .resetDuring v :: rest) ∧
        (r = .tablesNotReady ∨ r = .beyondBufferSpace ∨
          r = .outsideAllocation ∨ r = .overlappingFootprints)) ∨
      (∃ reg v rest, s.host = .wrPart reg v :: rest ∧ r = .partialWidthWrite)) ∧
    (∀ reg v rest, s.host = .wrPart reg v :: rest → step s = .refused .partialWidthWrite) ∧
    (∀ f, step s = .fault f →
      (∃ a bytes rest, s.host = .st8 a bytes :: rest) ∨ (∃ a rest, s.host = .ld8 a :: rest) ∨
      (∃ a rest, s.host = .ld32 a :: rest))

/-- A run is clean (R310) as long as its commands are INIT_TABLES or illegal ones and the host writes
whole registers: such a run is never refused, whatever else the host does (R311). -/
def Obligations.HarmlessRunsAreClean : Prop :=
  ∀ (k : Nat) (s : State),
    (∀ a ∈ s.host, (∀ reg v, a ≠ .wrPart reg v) ∧
      ∀ v i, a = .wr 0 v ∨ a = .resetDuring v → decode (BitVec.ofNat 32 v) = .ok i → i = .initTables) →
    CleanRun k s

/-- The invariant holds at reset (a value the model chose among those of R38 enters: log 3, log 4,
log 6). -/
def Obligations.InvariantHoldsAtReset : Prop := State.reset.Inv

/-- The invariant is kept by every step, from every state that has it: the buffer space stays canonical
and inside its address space (R60), the `AW`-bit registers stay in range (R21), ready tables hold the
parameters' entries (R32), and a valid record is one a parse can return (R133). -/
def Obligations.EveryStepKeepsTheInvariant : Prop :=
  ∀ s t : State, s.Inv → step s = .next t → t.Inv
end

