-- ==== Sys2Proof/Laws/Footprint.lean ====
section
/-! SUPPORT. The interval tests of Machine/Operands.lean say what the byte by byte duties of Safety.lean
say (spec/20_memory.md R62, R64, R72), and validation says `ValidArgs` (R161, R248). -/

namespace Sys2Proof.Machine

theorem Region.below_iff (r : Region) (aw : Nat) :
    Region.below r aw = true ↔ ∀ a, InSpan r.base r.size a → a < 2 ^ aw := by
  simp only [Region.below, Bool.or_eq_true, beq_iff_eq, decide_eq_true_eq]
  constructor
  · rintro (h | h) a ha <;> omega
  · intro h
    rcases Nat.eq_zero_or_pos r.size with h0 | h0
    · exact .inl h0
    · have := h (r.base + (r.size - 1)) ⟨by omega, by omega⟩
      omega

theorem Region.apart_iff (r q : Region) :
    Region.apart r q = true ↔ ∀ a, InSpan r.base r.size a → ¬ InSpan q.base q.size a := by
  simp only [Region.apart, Bool.or_eq_true, beq_iff_eq, decide_eq_true_eq]
  constructor
  · rintro (((h | h) | h) | h) a ha hb <;> omega
  · intro h
    by_contra hc
    have h1 := h r.base
    have h2 := h q.base
    omega

theorem Config.allocates_iff (c : Config) (r : Region) :
    Config.allocates c r = true ↔
      ∀ a, InSpan r.base r.size a → ∀ hole ∈ c.unallocated, ¬ InSpan hole.base hole.size a := by
  simp only [Config.allocates, List.all_eq_true, Region.apart_iff]
  exact ⟨fun h a ha hole hh hb => h hole hh a hb ha, fun h hole hh a hb ha => h a ha hole hh hb⟩

/-- A span is below `2^AW` and in `ALLOC` exactly when each of its bytes is `Allocated`. -/
theorem allocated_iff (c : Config) (r : Region) :
    (Region.below r c.aw = true ∧ Config.allocates c r = true) ↔
      ∀ a, InSpan r.base r.size a → Allocated c a := by
  rw [Region.below_iff, Config.allocates_iff]
  exact ⟨fun h a ha => ⟨h.1 a ha, h.2 a ha⟩, fun h => ⟨fun a ha => (h a ha).1, fun a ha => (h a ha).2⟩⟩

/-- When a footprint is not refused. -/
theorem Footprint.refusal_eq_none_iff (f : Footprint) (c : Config) :
    f.refusal c = none ↔
      (∀ r ∈ f.reads ++ f.writes, ∀ a, InSpan r.base r.size a → Allocated c a) ∧
      f.disjoint = true := by
  have key : (∀ r ∈ f.reads ++ f.writes, ∀ a, InSpan r.base r.size a → Allocated c a) ↔
      (f.reads ++ f.writes).all (fun r => Region.below r c.aw) = true ∧
      (f.reads ++ f.writes).all (Config.allocates c) = true := by
    rw [List.all_eq_true, List.all_eq_true]
    constructor
    · intro h
      exact ⟨fun r hr => ((allocated_iff c r).2 (h r hr)).1, fun r hr => ((allocated_iff c r).2 (h r hr)).2⟩
    · intro h r hr
      exact (allocated_iff c r).1 ⟨h.1 r hr, h.2 r hr⟩
  rw [key, Footprint.refusal]
  cases (f.reads ++ f.writes).all (fun r => Region.below r c.aw) <;>
    cases (f.reads ++ f.writes).all (Config.allocates c) <;> cases f.disjoint <;> simp

/-- What a footprint can be refused for: each name with the duty it says is broken. -/
theorem Footprint.refusal_cases {f : Footprint} {c : Config} {r : Refusal} (h : f.refusal c = some r) :
    (r = .beyondBufferSpace ∧ ∃ q ∈ f.reads ++ f.writes, ∃ a, InSpan q.base q.size a ∧ 2 ^ c.aw ≤ a) ∨
    (r = .outsideAllocation ∧ ∃ q ∈ f.reads ++ f.writes, ∃ a, InSpan q.base q.size a ∧
      ∃ hole ∈ c.unallocated, InSpan hole.base hole.size a) ∨
    (r = .overlappingFootprints ∧ ¬ f.disjoint = true) := by
  unfold Footprint.refusal at h
  split at h
  · next hb =>
    rw [Bool.not_eq_true', ← Bool.not_eq_true, List.all_eq_true] at hb
    push Not at hb
    obtain ⟨q, hq, hb⟩ := hb
    rw [ne_eq, Region.below_iff] at hb
    push Not at hb
    exact .inl ⟨(Option.some.inj h).symm, q, hq, hb⟩
  · split at h
    · next ha =>
      rw [Bool.not_eq_true', ← Bool.not_eq_true, List.all_eq_true] at ha
      push Not at ha
      obtain ⟨q, hq, ha⟩ := ha
      rw [ne_eq, Config.allocates_iff] at ha
      push Not at ha
      exact .inr (.inl ⟨(Option.some.inj h).symm, q, hq, ha⟩)
    · split at h
      · next hd => exact .inr (.inr ⟨(Option.some.inj h).symm, by simpa using hd⟩)
      · cases h

/-- Disjointness of a footprint whose writes are one or two output spans. -/
theorem disjoint_outputs_iff (s : State) (stereo : Bool) (reads : List Region) :
    Footprint.disjoint { reads := reads, writes := s.outputSpans stereo } = true ↔
      (∀ r ∈ reads, ∀ a, InSpan r.base r.size a →
        ¬ (InSpan s.out0Base (4 * s.frames) a ∨ (stereo = true ∧ InSpan s.out1Base (4 * s.frames) a))) ∧
      (stereo = true → ∀ a, InSpan s.out0Base (4 * s.frames) a → ¬ InSpan s.out1Base (4 * s.frames) a) := by
  have hn : s.n.toNat = s.frames := rfl
  cases stereo
  · simp [Footprint.disjoint, State.outputSpans, pairwiseApart, Region.apart_iff, hn]
  · simp only [Footprint.disjoint, State.outputSpans, pairwiseApart, hn, if_true, List.all_cons,
      List.all_nil, Bool.and_true, Bool.and_eq_true, List.all_eq_true, Region.apart_iff, true_and,
      not_or, forall_const]
    constructor
    · rintro ⟨h, h'⟩
      exact ⟨fun r hr a ha => ⟨(h r hr).1 a ha, (h r hr).2 a ha⟩, h'⟩
    · rintro ⟨h, h'⟩
      exact ⟨fun r hr => ⟨fun a ha => (h r hr a ha).1, fun a ha => (h r hr a ha).2⟩, h'⟩

/-- The output spans list exactly the bytes R64 says the operation writes. -/
theorem mem_outputFootprint_iff (s : State) (i : Instr) (a : Nat) :
    (∃ r ∈ s.outputFootprint i, InSpan r.base r.size a) ↔ s.WritesByte i a := by
  have hn : s.n.toNat = s.frames := rfl
  cases i <;> simp [State.outputFootprint, State.outputSpans, State.WritesByte, isDecoder, isStereo, hn]

theorem outputFootprint_decoder (s : State) {i : Instr} (hd : isDecoder i = true) :
    s.outputFootprint i = s.outputSpans (isStereo i) := by
  cases i <;> first | rfl | exact absurd hd Bool.false_ne_true

/-- The spans a decoder's footprint reads. -/
def State.inputSpans (s : State) (i : Instr) : List Region :=
  match i with
  | .initTables | .parseHeader => []
  | .u8M | .alawM | .ulawM => (s.sampleFootprint 1 false).reads
  | .u8S | .alawS | .ulawS => (s.sampleFootprint 1 true).reads
  | .s16M => (s.sampleFootprint 2 false).reads
  | .s16S => (s.sampleFootprint 2 true).reads
  | .s24M => (s.sampleFootprint 3 false).reads
  | .s24S => (s.sampleFootprint 3 true).reads
  | .s32M | .f32M => (s.sampleFootprint 4 false).reads
  | .s32S | .f32S => (s.sampleFootprint 4 true).reads
  | .f64M => (s.sampleFootprint 8 false).reads
  | .f64S => (s.sampleFootprint 8 true).reads
  | .imaM => (s.adpcmFootprint false).reads
  | .imaS => (s.adpcmFootprint true).reads

/-- A block is one the footprint lists exactly when it starts before the last frame (R64). -/
theorem mem_range_blockCount {n spb b : Nat} (hspb : 0 < spb) :
    b ∈ List.range (blockCount n spb) ↔ b * spb < n := by
  rw [List.mem_range, blockCount, Nat.lt_iff_add_one_le, Nat.le_div_iff_mul_le hspb]
  constructor <;> intro h
  · have : (b + 1) * spb = b * spb + spb := by ring
    omega
  · have : (b + 1) * spb = b * spb + spb := by ring
    omega

/-- The spans list exactly the bytes R64 says the decoder reads. -/
theorem mem_inputSpans_iff (s : State) (i : Instr) (hd : isDecoder i = true)
    (hspb : isAdpcm i = true → 0 < s.spb.toInt) (a : Nat) :
    (∃ r ∈ s.inputSpans i, InSpan r.base r.size a) ↔ s.ReadsByte i a := by
  have hn : s.n.toNat = s.frames := rfl
  cases i <;> simp only [isDecoder, Bool.false_eq_true] at hd <;>
    simp only [State.inputSpans, State.sampleFootprint, State.ReadsByte, List.mem_singleton,
      exists_eq_left, hn, Bool.false_eq_true, if_false, if_true, one_mul, mul_one, Nat.reduceMul]
  · have hpos : 0 < s.samplesPerBlock.toNat := by
      have := hspb rfl
      simp only [State.samplesPerBlock]
      omega
    simp only [State.adpcmFootprint, List.mem_flatMap, mem_range_blockCount hpos, blockReads, hn,
      Bool.false_eq_true, if_false]
    constructor
    · rintro ⟨r, ⟨b, hb, hr⟩, ha⟩
      refine ⟨b, hb, ?_⟩
      simp only [List.mem_cons, List.not_mem_nil, or_false] at hr
      rcases hr with rfl | rfl
      · exact .inl ha
      · exact .inr ha
    · rintro ⟨b, hb, ha | ha⟩
      · exact ⟨_, ⟨b, hb, List.mem_cons_self ..⟩, ha⟩
      · exact ⟨_, ⟨b, hb, List.mem_cons_of_mem _ (List.mem_cons_self ..)⟩, ha⟩
  · have hpos : 0 < s.samplesPerBlock.toNat := by
      have := hspb rfl
      simp only [State.samplesPerBlock]
      omega
    simp only [State.adpcmFootprint, List.mem_flatMap, mem_range_blockCount hpos, blockReads, hn, if_true]
    constructor
    · rintro ⟨r, ⟨b, hb, hr⟩, ha⟩
      refine ⟨b, hb, ?_⟩
      simp only [List.mem_cons, List.not_mem_nil, or_false] at hr
      rcases hr with rfl | rfl | rfl
      · exact .inl ha
      · exact .inr (.inl ha)
      · exact .inr (.inr ha)
    · rintro ⟨b, hb, ha | ha | ha⟩
      · exact ⟨_, ⟨b, hb, List.mem_cons_self ..⟩, ha⟩
      · exact ⟨_, ⟨b, hb, List.mem_cons_of_mem _ (List.mem_cons_self ..)⟩, ha⟩
      · exact ⟨_, ⟨b, hb, List.mem_cons_of_mem _ (List.mem_cons_of_mem _ (List.mem_cons_self ..))⟩, ha⟩

/-- A decoder's footprint is not refused exactly when the host has kept its duties. -/
theorem decoder_refusal_iff (s : State) (i : Instr) (hd : isDecoder i = true)
    (hspb : isAdpcm i = true → 0 < s.spb.toInt) :
    Footprint.refusal { reads := s.inputSpans i, writes := s.outputSpans (isStereo i) } s.cfg = none ↔
      s.KeepsDuties i := by
  have hr := mem_inputSpans_iff s i hd hspb
  have hw : ∀ a, (∃ r ∈ s.outputSpans (isStereo i), InSpan r.base r.size a) ↔ s.WritesByte i a :=
    fun a => outputFootprint_decoder s hd ▸ mem_outputFootprint_iff s i a
  rw [Footprint.refusal_eq_none_iff, disjoint_outputs_iff]
  constructor
  · rintro ⟨hall, hin, hout⟩
    refine ⟨fun a ha => ?_, fun a ha => ?_, fun a ha hwr => ?_, hout⟩
    · obtain ⟨r, hr', ha⟩ := (hr a).2 ha
      exact hall r (List.mem_append_left _ hr') a ha
    · obtain ⟨r, hr', ha⟩ := (hw a).2 ha
      exact hall r (List.mem_append_right _ hr') a ha
    · obtain ⟨r, hr', ha⟩ := (hr a).2 ha
      exact hin r hr' a ha hwr.2
  · intro h
    refine ⟨fun r hr' a ha => ?_, fun r hr' a ha hwr => ?_, h.outputsApart⟩
    · rcases List.mem_append.1 hr' with hr' | hr'
      · exact h.readsAllocated a ((hr a).1 ⟨r, hr', ha⟩)
      · exact h.writesAllocated a ((hw a).1 ⟨r, hr', ha⟩)
    · exact h.inputApart a ((hr a).1 ⟨r, hr', ha⟩) ⟨hd, hwr⟩

/-- What a decoder's footprint can be refused for, byte by byte: each name with the duty it says is broken
(R62, R72). -/
theorem decoder_refusal_cases {s : State} {i : Instr} {r : Refusal} (hd : isDecoder i = true)
    (hspb : isAdpcm i = true → 0 < s.spb.toInt)
    (h : Footprint.refusal { reads := s.inputSpans i, writes := s.outputSpans (isStereo i) } s.cfg = some r) :
    (r = .beyondBufferSpace ∧ ∃ a, (s.ReadsByte i a ∨ s.WritesByte i a) ∧ 2 ^ s.cfg.aw ≤ a) ∨
    (r = .outsideAllocation ∧ ∃ a, (s.ReadsByte i a ∨ s.WritesByte i a) ∧
      ∃ hole ∈ s.cfg.unallocated, InSpan hole.base hole.size a) ∨
    (r = .overlappingFootprints ∧ ∃ a, (s.ReadsByte i a ∧ s.WritesByte i a) ∨
      (isStereo i = true ∧ InSpan s.out0Base (4 * s.frames) a ∧ InSpan s.out1Base (4 * s.frames) a)) := by
  have hr := mem_inputSpans_iff s i hd hspb
  have hw := mem_outputFootprint_iff s i
  rw [outputFootprint_decoder s hd] at hw
  have hrw : ∀ q ∈ s.inputSpans i ++ s.outputSpans (isStereo i), ∀ a, InSpan q.base q.size a →
      s.ReadsByte i a ∨ s.WritesByte i a := fun q hq a ha =>
    (List.mem_append.1 hq).imp (fun hq => (hr a).1 ⟨q, hq, ha⟩) (fun hq => (hw a).1 ⟨q, hq, ha⟩)
  rcases Footprint.refusal_cases h with ⟨rfl, q, hq, a, ha, hb⟩ | ⟨rfl, q, hq, a, ha, hb⟩ | ⟨rfl, ho⟩
  · exact .inl ⟨rfl, a, hrw q hq a ha, hb⟩
  · exact .inr (.inl ⟨rfl, a, hrw q hq a ha, hb⟩)
  · refine .inr (.inr ⟨rfl, ?_⟩)
    by_contra hc
    push Not at hc
    refine ho ((disjoint_outputs_iff s _ _).2 ⟨fun q hq a ha hwr => ?_, fun hs a h0 => (hc a).2 hs h0⟩)
    exact (hc a).1 ((hr a).1 ⟨q, hq, ha⟩) ⟨hd, hwr⟩

/-- Validation of the LIN and LAW decoders says `ValidArgs` (R161). -/
theorem rejectCommon_iff (s : State) (i : Instr) (h : isAdpcm i = false) :
    s.rejectCommon (isStereo i) = false ↔ s.ValidArgs i := by
  simp only [State.rejectCommon, Bool.or_eq_false_iff, beq_eq_false_iff_ne,
    Bool.and_eq_false_iff, decide_eq_false_iff_not, not_le, not_lt]
  constructor
  · rintro ⟨⟨⟨⟨h1, h2⟩, h3⟩, h4⟩, h5⟩
    refine ⟨h1, h2, fun hs => ?_, h4, h5, ?_, ?_, ?_⟩
    · rcases h3 with h3 | h3
      · simp [hs] at h3
      · exact h3
    all_goals simp [h]
  · rintro ⟨h1, h2, h3, h4, h5, -, -, -⟩
    refine ⟨⟨⟨⟨h1, h2⟩, ?_⟩, h4⟩, h5⟩
    cases hs : isStereo i
    · simp
    · exact .inr (h3 hs)

/-- Validation of the ADPCM decoders says `ValidArgs` (R161, R248). -/
theorem rejectAdpcm_iff (s : State) (i : Instr) (h : isAdpcm i = true) :
    s.rejectAdpcm (isStereo i) = false ↔ s.ValidArgs i := by
  simp only [State.rejectAdpcm, State.rejectCommon, Bool.or_eq_false_iff, beq_eq_false_iff_ne,
    Bool.and_eq_false_iff, decide_eq_false_iff_not, not_le, not_lt, ne_eq, not_not]
  constructor
  · rintro ⟨⟨⟨⟨⟨⟨⟨h1, h2⟩, h3⟩, h4⟩, h5⟩, h6⟩, h7⟩, h8⟩
    refine ⟨h1, h2, fun hs => ?_, h4, h5, fun _ => h6, fun _ => h7, fun _ => h8⟩
    rcases h3 with h3 | h3
    · simp [hs] at h3
    · exact h3
  · rintro ⟨h1, h2, h3, h4, h5, h6, h7, h8⟩
    refine ⟨⟨⟨⟨⟨⟨⟨h1, h2⟩, ?_⟩, h4⟩, h5⟩, h6 h⟩, h7 h⟩, h8 h⟩
    cases hs : isStereo i
    · simp
    · exact .inr (h3 hs)

end Sys2Proof.Machine
end

