-- ==== Sys2Proof/Laws/Memory.lean ====
section
/-! SUPPORT. The laws of the buffer space: a read after a write, what a write leaves alone, and that every
memory operation keeps the canonical form (spec/20_memory.md R60, R63). -/

namespace Sys2Proof.Machine

/-! ### One byte -/

theorem Memory.read_eraseCell (m : Memory) (a x : Nat) :
    (m.eraseCell a).read x = if x = a then Memory.unwritten else m.read x := by
  induction m with
  | nil => simp [Memory.eraseCell, Memory.read]
  | cons c m ih =>
    obtain ⟨k, b⟩ := c
    by_cases hk : k = a
    · have : Memory.eraseCell ((k, b) :: m) a = Memory.eraseCell m a := by
        simp [Memory.eraseCell, hk]
      rw [this, ih]
      by_cases hx : x = a
      · simp [hx]
      · have : k ≠ x := fun h => hx (h ▸ hk)
        simp [hx, Memory.read, this]
    · have : Memory.eraseCell ((k, b) :: m) a = (k, b) :: Memory.eraseCell m a := by
        simp [Memory.eraseCell, hk]
      rw [this]
      by_cases hkx : k = x
      · have : x ≠ a := fun h => hk (hkx.trans h)
        simp [Memory.read, hkx, this]
      · simp only [Memory.read, hkx, if_false, ih]

theorem Memory.read_insertCell (a : Nat) (b : Byte) (m : Memory) (x : Nat)
    (hm : ∀ c ∈ m, c.1 ≠ a) :
    (Memory.insertCell a b m).read x = if x = a then b else m.read x := by
  induction m with
  | nil => by_cases h : a = x <;> simp [Memory.insertCell, Memory.read, h, eq_comm]
  | cons c m ih =>
    obtain ⟨k, d⟩ := c
    have hk : k ≠ a := hm (k, d) (by simp)
    have ih := ih fun c hc => hm c (by simp [hc])
    by_cases hlt : a < k
    · have : Memory.insertCell a b ((k, d) :: m) = (a, b) :: (k, d) :: m := if_pos hlt
      rw [this]
      by_cases h : a = x <;> simp [Memory.read, h, eq_comm]
    · have e : Memory.insertCell a b ((k, d) :: m) = (k, d) :: Memory.insertCell a b m := if_neg hlt
      rw [e]
      by_cases hkx : k = x
      · have : x ≠ a := fun h => hk (hkx.trans h)
        simp [Memory.read, hkx, this]
      · simp [Memory.read, hkx, ih]

theorem Memory.eraseCell_ne (m : Memory) (a : Nat) : ∀ c ∈ m.eraseCell a, c.1 ≠ a := by
  intro c hc
  simpa using (List.mem_filter.1 hc).2

/-- A read after a write (R60): the byte written at its address, every other byte as before. -/
theorem Memory.read_write (m : Memory) (a : Nat) (b : Byte) (x : Nat) :
    (m.write a b).read x = if x = a then b else m.read x := by
  unfold Memory.write
  by_cases hb : b = Memory.unwritten
  · simp [hb, Memory.read_eraseCell]
  · rw [if_neg hb, Memory.read_insertCell a b _ x (m.eraseCell_ne a), Memory.read_eraseCell]
    by_cases hx : x = a <;> simp [hx]

@[simp] theorem Memory.read_write_same (m : Memory) (a : Nat) (b : Byte) : (m.write a b).read a = b := by
  simp [Memory.read_write]

theorem Memory.read_write_other (m : Memory) (a : Nat) (b : Byte) {x : Nat} (h : x ≠ a) :
    (m.write a b).read x = m.read x := by
  simp [Memory.read_write, h]

/-! ### The canonical form -/

/-- The canonical form, said with the library's words. -/
theorem Memory.wf_iff (m : Memory) :
    m.wf = true ↔ m.Pairwise (fun c d => c.1 < d.1) ∧ ∀ c ∈ m, c.2 ≠ Memory.unwritten := by
  induction m with
  | nil => simp [Memory.wf]
  | cons c m ih =>
    cases m with
    | nil => simp [Memory.wf]
    | cons d m =>
      simp only [Memory.wf, Bool.and_eq_true, ih, decide_eq_true_eq, bne_iff_ne]
      constructor
      · rintro ⟨⟨hc, hcd⟩, hp, hn⟩
        refine ⟨List.pairwise_cons.2 ⟨?_, hp⟩, ?_⟩
        · intro e he
          rcases List.mem_cons.1 he with rfl | he
          · exact hcd
          · exact hcd.trans ((List.pairwise_cons.1 hp).1 e he)
        · intro e he
          rcases List.mem_cons.1 he with rfl | he
          · exact hc
          · exact hn e he
      · rintro ⟨hp, hn⟩
        have hp' := List.pairwise_cons.1 hp
        exact ⟨⟨hn c (by simp), hp'.1 d (by simp)⟩, hp'.2, fun e he => hn e (by simp [he])⟩

theorem Memory.mem_insertCell {a : Nat} {b : Byte} {m : Memory} {c : Host.Cell}
    (h : c ∈ Memory.insertCell a b m) : c = (a, b) ∨ c ∈ m := by
  induction m with
  | nil => simpa [Memory.insertCell] using h
  | cons d m ih =>
    unfold Memory.insertCell at h
    split at h
    · simpa using h
    · rcases List.mem_cons.1 h with rfl | h
      · simp
      · rcases ih h with h | h <;> simp [h]

theorem Memory.wf_eraseCell {m : Memory} (h : m.wf = true) (a : Nat) : (m.eraseCell a).wf = true := by
  rw [Memory.wf_iff] at h ⊢
  exact ⟨h.1.sublist List.filter_sublist, fun c hc => h.2 c (List.mem_filter.1 hc).1⟩

theorem Memory.wf_insertCell {m : Memory} (h : m.wf = true) {a : Nat} {b : Byte}
    (hb : b ≠ Memory.unwritten) (ha : ∀ c ∈ m, c.1 ≠ a) : (Memory.insertCell a b m).wf = true := by
  rw [Memory.wf_iff] at h ⊢
  refine ⟨?_, ?_⟩
  · have hp := h.1
    clear h
    induction m with
    | nil => simp [Memory.insertCell]
    | cons d m ih =>
      have hp' := List.pairwise_cons.1 hp
      unfold Memory.insertCell
      split
      · next hlt =>
        refine List.pairwise_cons.2 ⟨?_, hp⟩
        intro e he
        rcases List.mem_cons.1 he with rfl | he
        · exact hlt
        · exact hlt.trans (hp'.1 e he)
      · next hlt =>
        refine List.pairwise_cons.2 ⟨?_, ih (fun c hc => ha c (by simp [hc])) hp'.2⟩
        intro e he
        rcases Memory.mem_insertCell he with rfl | he
        · have := ha d (by simp)
          show d.1 < a
          omega
        · exact hp'.1 e he
  · intro c hc
    rcases Memory.mem_insertCell hc with rfl | hc
    · exact hb
    · exact h.2 c hc

/-- A write keeps the canonical form. -/
theorem Memory.wf_write {m : Memory} (h : m.wf = true) (a : Nat) (b : Byte) : (m.write a b).wf = true := by
  unfold Memory.write
  split
  · exact Memory.wf_eraseCell h a
  · next hb => exact Memory.wf_insertCell (Memory.wf_eraseCell h a) hb (m.eraseCell_ne a)

/-- A write lists no address but its own and those already listed. -/
theorem Memory.mem_write {m : Memory} {a : Nat} {b : Byte} {c : Host.Cell} (h : c ∈ m.write a b) :
    c.1 = a ∨ c ∈ m := by
  unfold Memory.write at h
  split at h
  · exact .inr (List.mem_filter.1 h).1
  · rcases Memory.mem_insertCell h with rfl | h
    · exact .inl rfl
    · exact .inr (List.mem_filter.1 h).1

theorem Memory.read_of_mem {m : Memory} (h : m.Pairwise fun c d : Host.Cell => c.1 < d.1)
    {a : Nat} {b : Byte} (hc : (a, b) ∈ m) : m.read a = b := by
  induction m with
  | nil => simp at hc
  | cons d m ih =>
    have hp := List.pairwise_cons.1 h
    rcases List.mem_cons.1 hc with rfl | hc
    · simp [Memory.read]
    · have : d.1 ≠ a := (hp.1 _ hc).ne
      simp [Memory.read, this, ih hp.2 hc]

theorem Memory.mem_of_read {m : Memory} {a : Nat} (h : m.read a ≠ Memory.unwritten) :
    (a, m.read a) ∈ m := by
  induction m with
  | nil => simp [Memory.read] at h
  | cons d m ih =>
    obtain ⟨k, b⟩ := d
    by_cases hk : k = a
    · simp [Memory.read, hk]
    · simp only [Memory.read, hk, if_false] at h ⊢
      exact List.mem_cons_of_mem _ (ih h)

/-- Equal memories are equal data: two canonical memories that read the same are the same list. -/
theorem Memory.ext_of_wf {m m' : Memory} (h : m.wf = true) (h' : m'.wf = true)
    (hr : ∀ a, m.read a = m'.read a) : m = m' := by
  rw [Memory.wf_iff] at h h'
  have sub : ∀ {m m' : Memory}, m.Pairwise (fun c d : Host.Cell => c.1 < d.1) →
      (∀ c ∈ m, c.2 ≠ Memory.unwritten) → (∀ a, m.read a = m'.read a) → ∀ c ∈ m, c ∈ m' := by
    intro m m' hp hn hr c hc
    obtain ⟨a, b⟩ := c
    have hb := Memory.read_of_mem hp hc
    have := Memory.mem_of_read (m := m') (a := a) (by rw [← hr a, hb]; exact hn _ hc)
    rwa [← hr a, hb] at this
  refine (List.perm_of_nodup_nodup_toFinset_eq ?_ ?_ ?_).eq_of_pairwise ?_ h.1 h'.1
  · exact h.1.imp fun hlt heq => absurd (heq ▸ hlt) (lt_irrefl _)
  · exact h'.1.imp fun hlt heq => absurd (heq ▸ hlt) (lt_irrefl _)
  · ext c
    simp only [List.mem_toFinset]
    exact ⟨sub h.1 h.2 hr c, sub h'.1 h'.2 (fun a => (hr a).symm) c⟩
  · intro c d _ _ hcd hdc
    exact absurd (hcd.trans hdc) (lt_irrefl _)

/-! ### Little-endian accesses -/

theorem Memory.readLE_lt (m : Memory) (a n : Nat) : m.readLE a n < 256 ^ n := by
  induction n generalizing a with
  | zero => simp [Memory.readLE]
  | succ n ih =>
    have hb := (m.read a).isLt
    have := ih (a + 1)
    rw [Memory.readLE, pow_succ]
    omega

/-- A little-endian read depends on its own bytes alone. -/
theorem Memory.readLE_congr {m m' : Memory} {a n : Nat}
    (h : ∀ x, InSpan a n x → m.read x = m'.read x) : m.readLE a n = m'.readLE a n := by
  induction n generalizing a with
  | zero => rfl
  | succ n ih =>
    rw [Memory.readLE, Memory.readLE, h a ⟨le_refl _, by omega⟩,
      ih fun x hx => h x ⟨by have := hx.1; omega, by have := hx.2; omega⟩]

theorem Memory.read_writeLE_outside (m : Memory) (a n v : Nat) {x : Nat} (h : ¬ InSpan a n x) :
    (m.writeLE a n v).read x = m.read x := by
  induction n generalizing m a v with
  | zero => rfl
  | succ n ih =>
    have hx : x ≠ a := fun e => h ⟨by omega, by omega⟩
    have hs : ¬ InSpan (a + 1) n x := fun hi => h ⟨by have := hi.1; omega, by have := hi.2; omega⟩
    rw [Memory.writeLE, ih _ _ _ hs, Memory.read_write_other _ _ _ hx]

/-- A little-endian read of what was just written (R8, R63). -/
theorem Memory.readLE_writeLE (m : Memory) (a n v : Nat) :
    (m.writeLE a n v).readLE a n = v % 256 ^ n := by
  induction n generalizing m a v with
  | zero => simp [Memory.readLE, Nat.mod_one]
  | succ n ih =>
    rw [Memory.writeLE, Memory.readLE, ih,
      Memory.read_writeLE_outside _ _ _ _ (fun h => absurd h.1 (by omega)), Memory.read_write_same,
      BitVec.toNat_ofNat, pow_succ' 256 n, Nat.mod_mul]

theorem Memory.wf_writeLE {m : Memory} (h : m.wf = true) (a n v : Nat) : (m.writeLE a n v).wf = true := by
  induction n generalizing m a v with
  | zero => exact h
  | succ n ih => exact ih (Memory.wf_write h _ _) _ _

theorem Memory.mem_writeLE {m : Memory} {a n v : Nat} {c : Host.Cell} (h : c ∈ m.writeLE a n v) :
    InSpan a n c.1 ∨ c ∈ m := by
  induction n generalizing m a v with
  | zero => exact .inr h
  | succ n ih =>
    rcases ih h with h | h
    · exact .inl ⟨by have := h.1; omega, by have := h.2; omega⟩
    · rcases Memory.mem_write h with h | h
      · exact .inl ⟨by omega, by omega⟩
      · exact .inr h

/-! ### Output elements and stored bytes -/

theorem Memory.read_writeF32_outside (m : Memory) (a : Nat) (w : F32) {x : Nat} (h : ¬ InSpan a 4 x) :
    (m.writeF32 a w).read x = m.read x :=
  Memory.read_writeLE_outside m a 4 w.toNat h

/-- The word just stored is the word read (R63, R64). -/
@[simp] theorem wordAt_writeF32 (m : Memory) (a : Nat) (w : F32) : wordAt (m.writeF32 a w) a = w := by
  rw [wordAt, Memory.writeF32, Memory.readLE_writeLE, Nat.mod_eq_of_lt (b := 256 ^ 4) w.isLt,
    BitVec.ofNat_toNat, BitVec.setWidth_eq]

theorem wordAt_congr {m m' : Memory} {a : Nat} (h : ∀ x, InSpan a 4 x → m.read x = m'.read x) :
    wordAt m a = wordAt m' a := by
  rw [wordAt, wordAt, Memory.readLE_congr h]

theorem Memory.wf_writeF32 {m : Memory} (h : m.wf = true) (a : Nat) (w : F32) :
    (m.writeF32 a w).wf = true :=
  Memory.wf_writeLE h _ _ _

theorem Memory.mem_writeF32 {m : Memory} {a : Nat} {w : F32} {c : Host.Cell}
    (h : c ∈ m.writeF32 a w) : InSpan a 4 c.1 ∨ c ∈ m :=
  Memory.mem_writeLE h

theorem Memory.wf_writeBytes {m : Memory} (h : m.wf = true) (a : Nat) (bs : List Byte) :
    (m.writeBytes a bs).wf = true := by
  induction bs generalizing m a with
  | nil => exact h
  | cons b bs ih => exact ih (Memory.wf_write h _ _) _

theorem Memory.mem_writeBytes {m : Memory} {a : Nat} {bs : List Byte} {c : Host.Cell}
    (h : c ∈ m.writeBytes a bs) : InSpan a bs.length c.1 ∨ c ∈ m := by
  induction bs generalizing m a with
  | nil => exact .inr h
  | cons b bs ih =>
    rcases ih h with h | h
    · exact .inl ⟨by have := h.1; omega, by have := h.2; simp only [List.length_cons]; omega⟩
    · rcases Memory.mem_write h with h | h
      · exact .inl ⟨by omega, by simp only [List.length_cons]; omega⟩
      · exact .inr h

theorem Memory.read_writeBytes_outside (m : Memory) (a : Nat) (bs : List Byte) {x : Nat}
    (h : ¬ InSpan a bs.length x) : (m.writeBytes a bs).read x = m.read x := by
  induction bs generalizing m a with
  | nil => rfl
  | cons b bs ih =>
    have hx : x ≠ a := fun e => h ⟨by omega, by simp only [List.length_cons]; omega⟩
    have hs : ¬ InSpan (a + 1) bs.length x := fun hi =>
      h ⟨by have := hi.1; omega, by have := hi.2; simp only [List.length_cons]; omega⟩
    rw [Memory.writeBytes, ih _ _ hs, Memory.read_write_other _ _ _ hx]

theorem Memory.read_writeBytes (m : Memory) (a : Nat) (bs : List Byte) (k : Nat) (hk : k < bs.length) :
    (m.writeBytes a bs).read (a + k) = bs[k] := by
  induction bs generalizing m a k with
  | nil => simp at hk
  | cons b bs ih =>
    cases k with
    | zero =>
      rw [Memory.writeBytes, Nat.add_zero,
        Memory.read_writeBytes_outside _ _ _ (fun h => absurd h.1 (by omega))]
      simp
    | succ k =>
      have := ih (m.write a b) (a + 1) k (by simpa using hk)
      rw [show a + 1 + k = a + (k + 1) by omega] at this
      simpa [Memory.writeBytes] using this

/-! ### Bytes made unspecified -/

theorem Memory.read_writeFree_outside (m : Memory) (a k n : Nat) {x : Nat} (h : ¬ InSpan a n x) :
    (m.writeFree a k n).read x = m.read x := by
  induction n generalizing m a k with
  | zero => rfl
  | succ n ih =>
    have hx : x ≠ a := fun e => h ⟨by omega, by omega⟩
    have hs : ¬ InSpan (a + 1) n x := fun hi => h ⟨by have := hi.1; omega, by have := hi.2; omega⟩
    rw [Memory.writeFree, ih _ _ _ hs, Memory.read_write_other _ _ _ hx]

/-- A lost byte is its draw, whatever the memory held. -/
theorem Memory.read_writeFree (m : Memory) (a k n : Nat) {x : Nat} (h : InSpan a n x) :
    (m.writeFree a k n).read x = BitVec.ofNat 8 (Config.freeValue (k + (x - a))) := by
  induction n generalizing m a k with
  | zero => exact absurd h.1 (by have := h.2; omega)
  | succ n ih =>
    rw [Memory.writeFree]
    by_cases hx : x = a
    · subst hx
      rw [Memory.read_writeFree_outside _ _ _ _ (fun h => absurd h.1 (by omega)), Memory.read_write_same,
        Nat.sub_self, Nat.add_zero]
    · have := h.1
      rw [ih _ _ _ ⟨by omega, by have := h.2; omega⟩, show k + 1 + (x - (a + 1)) = k + (x - a) by omega]

theorem Memory.wf_writeFree {m : Memory} (h : m.wf = true) (a k n : Nat) : (m.writeFree a k n).wf = true := by
  induction n generalizing m a k with
  | zero => exact h
  | succ n ih => exact ih (Memory.wf_write h _ _) _ _

theorem Memory.mem_writeFree {m : Memory} {a k n : Nat} {c : Host.Cell} (h : c ∈ m.writeFree a k n) :
    InSpan a n c.1 ∨ c ∈ m := by
  induction n generalizing m a k with
  | zero => exact .inr h
  | succ n ih =>
    rcases ih h with h | h
    · exact .inl ⟨by have := h.1; omega, by have := h.2; omega⟩
    · rcases Memory.mem_write h with h | h
      · exact .inl ⟨by omega, by omega⟩
      · exact .inr h

theorem Memory.wf_loseSpans {m : Memory} (h : m.wf = true) (k : Nat) (rs : List Region) :
    (m.loseSpans k rs).wf = true := by
  induction rs generalizing m k with
  | nil => exact h
  | cons r rs ih => exact ih (Memory.wf_writeFree h _ _ _) _

theorem Memory.mem_loseSpans {m : Memory} {k : Nat} {rs : List Region} {c : Host.Cell}
    (h : c ∈ m.loseSpans k rs) : (∃ r ∈ rs, InSpan r.base r.size c.1) ∨ c ∈ m := by
  induction rs generalizing m k with
  | nil => exact .inr h
  | cons r rs ih =>
    rcases ih h with ⟨q, hq, hc⟩ | h
    · exact .inl ⟨q, List.mem_cons_of_mem _ hq, hc⟩
    · exact (Memory.mem_writeFree h).imp (fun hc => ⟨r, List.mem_cons_self .., hc⟩) id

theorem Memory.read_loseSpans_outside (m : Memory) (k : Nat) (rs : List Region) {x : Nat}
    (h : ∀ r ∈ rs, ¬ InSpan r.base r.size x) : (m.loseSpans k rs).read x = m.read x := by
  induction rs generalizing m k with
  | nil => rfl
  | cons r rs ih =>
    rw [Memory.loseSpans, ih _ _ fun q hq => h q (List.mem_cons_of_mem _ hq),
      Memory.read_writeFree_outside _ _ _ _ (h r (List.mem_cons_self ..))]

/-- A byte of a lost span does not depend on what the memory held. -/
theorem Memory.read_loseSpans_inside (m m' : Memory) (k : Nat) (rs : List Region) {x : Nat}
    (h : ∃ r ∈ rs, InSpan r.base r.size x) : (m.loseSpans k rs).read x = (m'.loseSpans k rs).read x := by
  induction rs generalizing m m' k with
  | nil => obtain ⟨r, hr, -⟩ := h; cases hr
  | cons r rs ih =>
    by_cases hrs : ∃ q ∈ rs, InSpan q.base q.size x
    · exact ih _ _ _ hrs
    · have hn : ∀ q ∈ rs, ¬ InSpan q.base q.size x := fun q hq hx => hrs ⟨q, hq, hx⟩
      have hx : InSpan r.base r.size x := by
        obtain ⟨q, hq, hx⟩ := h
        rcases List.mem_cons.1 hq with rfl | hq
        · exact hx
        · exact absurd hx (hn q hq)
      rw [Memory.loseSpans, Memory.loseSpans, Memory.read_loseSpans_outside _ _ _ hn,
        Memory.read_loseSpans_outside _ _ _ hn, Memory.read_writeFree _ _ _ _ hx,
        Memory.read_writeFree _ _ _ _ hx]

end Sys2Proof.Machine
end

