-- ==== Sys2Proof/Laws/Frames.lean ====
section
/-! SUPPORT. What the frame loops write, and that they write nothing else (spec/41_linear_pcm_float.md
R163, R164; spec/43_ima_adpcm.md R250, R251). Each loop's output element `j` is the conversion of its
own input, read from the buffer space as it was before the command, since the footprints are apart
(spec/20_memory.md R68, R72). -/

namespace Sys2Proof.Machine

/-! ### Output elements -/

/-- The words of two output elements share no byte. -/
theorem wordAt_writeF32_other (m : Memory) (out i j : Nat) (w : F32) (h : i ≠ j) :
    wordAt (m.writeF32 (out + 4 * i) w) (out + 4 * j) = wordAt m (out + 4 * j) := by
  refine wordAt_congr fun x hx => Memory.read_writeF32_outside _ _ _ fun hy => ?_
  have := hx.1; have := hx.2; have := hy.1; have := hy.2
  omega

/-! ### The mono loop -/

section Mono
variable (w : Nat) (conv : Nat → F32) (inp out : Nat)

/-- Frames `i .. i + k - 1` write their own output elements alone. -/
theorem monoFrames_read_outside (k i : Nat) (m : Memory) {a : Nat}
    (h : ¬ InSpan (out + 4 * i) (4 * k) a) :
    (monoFrames w conv inp out k i m).read a = m.read a := by
  induction k generalizing i m with
  | zero => rfl
  | succ k ih =>
    rw [monoFrames, ih _ _ (fun hy => h ⟨by have := hy.1; omega, by have := hy.2; omega⟩),
      Memory.read_writeF32_outside _ _ _ fun hy => h ⟨by have := hy.1; omega, by have := hy.2; omega⟩]

/-- Output element `j` is the conversion of input element `j` (R163). -/
theorem monoFrames_word (n : Nat) (hd : ∀ a, InSpan inp (w * n) a → ¬ InSpan out (4 * n) a)
    (k i : Nat) (m : Memory) (hk : i + k ≤ n) (j : Nat) (hi : i ≤ j) (hj : j < i + k) :
    wordAt (monoFrames w conv inp out k i m) (out + 4 * j) = conv (m.readLE (inp + w * j) w) := by
  induction k generalizing i m with
  | zero => omega
  | succ k ih =>
    rw [monoFrames]
    rcases Nat.eq_or_lt_of_le hi with rfl | hlt
    · rw [wordAt_congr (m' := m.writeF32 (out + 4 * i) (conv (m.readLE (inp + w * i) w))),
        wordAt_writeF32]
      intro x hx
      refine monoFrames_read_outside w conv inp out k _ _ fun hy => ?_
      have := hx.2; have := hy.1
      omega
    · rw [ih _ _ (by omega) hlt (by omega)]
      refine congrArg conv (Memory.readLE_congr fun x hx => ?_)
      refine Memory.read_writeF32_outside _ _ _ fun hy => ?_
      refine hd x ⟨?_, ?_⟩ ⟨?_, ?_⟩
      · have := hx.1; omega
      · have h1 := hx.2
        have h2 : w * j + w ≤ w * n := by rw [← Nat.mul_succ]; exact Nat.mul_le_mul_left w (by omega)
        omega
      · have := hy.1; omega
      · have := hy.2; omega

theorem monoFrames_wf (k i : Nat) {m : Memory} (h : m.wf = true) :
    (monoFrames w conv inp out k i m).wf = true := by
  induction k generalizing i m with
  | zero => exact h
  | succ k ih => exact ih _ (Memory.wf_writeF32 h _ _)

theorem mem_monoFrames (k i : Nat) {m : Memory} {c : Host.Cell}
    (h : c ∈ monoFrames w conv inp out k i m) : InSpan (out + 4 * i) (4 * k) c.1 ∨ c ∈ m := by
  induction k generalizing i m with
  | zero => exact .inr h
  | succ k ih =>
    rcases ih _ h with h | h
    · exact .inl ⟨by have := h.1; omega, by have := h.2; omega⟩
    · rcases Memory.mem_writeF32 h with h | h
      · exact .inl ⟨by have := h.1; omega, by have := h.2; omega⟩
      · exact .inr h

end Mono

/-! ### The stereo loop -/

section Stereo
variable (w : Nat) (conv : Nat → F32) (inp outL outR : Nat)

theorem stereoFrames_read_outside (k i : Nat) (m : Memory) {a : Nat}
    (hl : ¬ InSpan (outL + 4 * i) (4 * k) a) (hr : ¬ InSpan (outR + 4 * i) (4 * k) a) :
    (stereoFrames w conv inp outL outR k i m).read a = m.read a := by
  induction k generalizing i m with
  | zero => rfl
  | succ k ih =>
    rw [stereoFrames, ih _ _ (fun hy => hl ⟨by have := hy.1; omega, by have := hy.2; omega⟩)
        (fun hy => hr ⟨by have := hy.1; omega, by have := hy.2; omega⟩),
      Memory.read_writeF32_outside _ _ _ fun hy => hr ⟨by have := hy.1; omega, by have := hy.2; omega⟩,
      Memory.read_writeF32_outside _ _ _ fun hy => hl ⟨by have := hy.1; omega, by have := hy.2; omega⟩]

/-- Output element `j` of each side is the conversion of its input element (R164). -/
theorem stereoFrames_word (n : Nat)
    (hd : ∀ a, InSpan inp (w * 2 * n) a → ¬ InSpan outL (4 * n) a ∧ ¬ InSpan outR (4 * n) a)
    (ho : ∀ a, InSpan outL (4 * n) a → ¬ InSpan outR (4 * n) a)
    (k i : Nat) (m : Memory) (hk : i + k ≤ n) (j : Nat) (hi : i ≤ j) (hj : j < i + k) :
    wordAt (stereoFrames w conv inp outL outR k i m) (outL + 4 * j) =
        conv (m.readLE (inp + w * (2 * j)) w) ∧
      wordAt (stereoFrames w conv inp outL outR k i m) (outR + 4 * j) =
        conv (m.readLE (inp + w * (2 * j + 1)) w) := by
  induction k generalizing i m with
  | zero => omega
  | succ k ih =>
    rw [stereoFrames]
    rcases Nat.eq_or_lt_of_le hi with rfl | hlt
    · constructor
      · rw [wordAt_congr (m' := m.writeF32 (outL + 4 * i) (conv (m.readLE (inp + w * (2 * i)) w))),
          wordAt_writeF32]
        intro x hx
        have hx1 := hx.1; have hx2 := hx.2
        have hno := ho x ⟨by omega, by omega⟩
        rw [stereoFrames_read_outside w conv inp outL outR k _ _ (fun hy => by have := hy.1; omega)
            (fun hy => hno ⟨by have := hy.1; omega, by have := hy.2; omega⟩),
          Memory.read_writeF32_outside _ _ _
            fun hy => hno ⟨by have := hy.1; omega, by have := hy.2; omega⟩]
      · rw [wordAt_congr (m' := (m.writeF32 (outL + 4 * i) (conv (m.readLE (inp + w * (2 * i)) w))).writeF32
            (outR + 4 * i) (conv (m.readLE (inp + w * (2 * i + 1)) w))), wordAt_writeF32]
        intro x hx
        have hx1 := hx.1; have hx2 := hx.2
        refine stereoFrames_read_outside w conv inp outL outR k _ _ (fun hy => ?_)
          (fun hy => by have := hy.1; omega)
        exact ho x ⟨by have := hy.1; omega, by have := hy.2; omega⟩ ⟨by omega, by omega⟩
    · have hin : ∀ q, q + 1 ≤ 2 * n → ∀ x, InSpan (inp + w * q) w x →
          ((m.writeF32 (outL + 4 * i) (conv (m.readLE (inp + w * (2 * i)) w))).writeF32
            (outR + 4 * i) (conv (m.readLE (inp + w * (2 * i + 1)) w))).read x = m.read x := by
        intro q hq x hx
        have h1 := hx.1; have h2 := hx.2
        have h3 : w * q + w ≤ w * (2 * n) := by rw [← Nat.mul_succ]; exact Nat.mul_le_mul_left w hq
        have h4 : w * (2 * n) = w * 2 * n := (Nat.mul_assoc w 2 n).symm
        have hno := hd x ⟨by omega, by omega⟩
        rw [Memory.read_writeF32_outside _ _ _
            fun hy => hno.2 ⟨by have := hy.1; omega, by have := hy.2; omega⟩,
          Memory.read_writeF32_outside _ _ _
            fun hy => hno.1 ⟨by have := hy.1; omega, by have := hy.2; omega⟩]
      obtain ⟨hl, hr⟩ := ih (i + 1) _ (by omega) hlt (by omega)
      rw [hl, hr, Memory.readLE_congr (hin (2 * j) (by omega)),
        Memory.readLE_congr (hin (2 * j + 1) (by omega))]
      exact ⟨rfl, rfl⟩

theorem stereoFrames_wf (k i : Nat) {m : Memory} (h : m.wf = true) :
    (stereoFrames w conv inp outL outR k i m).wf = true := by
  induction k generalizing i m with
  | zero => exact h
  | succ k ih => exact ih _ (Memory.wf_writeF32 (Memory.wf_writeF32 h _ _) _ _)

theorem mem_stereoFrames (k i : Nat) {m : Memory} {c : Host.Cell}
    (h : c ∈ stereoFrames w conv inp outL outR k i m) :
    InSpan (outL + 4 * i) (4 * k) c.1 ∨ InSpan (outR + 4 * i) (4 * k) c.1 ∨ c ∈ m := by
  induction k generalizing i m with
  | zero => exact .inr (.inr h)
  | succ k ih =>
    rcases ih _ h with h | h | h
    · exact .inl ⟨by have := h.1; omega, by have := h.2; omega⟩
    · exact .inr (.inl ⟨by have := h.1; omega, by have := h.2; omega⟩)
    · rcases Memory.mem_writeF32 h with h | h
      · exact .inr (.inl ⟨by have := h.1; omega, by have := h.2; omega⟩)
      · rcases Memory.mem_writeF32 h with h | h
        · exact .inl ⟨by have := h.1; omega, by have := h.2; omega⟩
        · exact .inr (.inr h)

end Stereo

/-! ### The ADPCM loops

`chanAt init frame f` is a channel's state after frame `f` of a command, `frame` being what each frame
does to it. -/

/-- A channel's state after frames `0 .. f`. -/
def chanAt (init : Channel) (frame : Nat → Channel → Channel) : Nat → Channel
  | 0 => frame 0 init
  | f + 1 => frame (f + 1) (chanAt init frame f)

/-- A channel's state before frame `f`. -/
def chanBefore (init : Channel) (frame : Nat → Channel → Channel) : Nat → Channel
  | 0 => init
  | f + 1 => chanAt init frame f

theorem chanAt_eq (init : Channel) (frame : Nat → Channel → Channel) (f : Nat) :
    chanAt init frame f = frame f (chanBefore init frame f) := by
  cases f <;> rfl

section ImaMono
variable (sg : Bool) (inp out spb bs : Nat)

theorem imaMonoFrames_read_outside (k f : Nat) (m : Memory) (c : Channel) {a : Nat}
    (h : ¬ InSpan (out + 4 * f) (4 * k) a) :
    (imaMonoFrames sg inp out spb bs k f m c).1.read a = m.read a := by
  induction k generalizing f m c with
  | zero => rfl
  | succ k ih =>
    rw [imaMonoFrames]
    rw [ih _ _ _ (fun hy => h ⟨by have := hy.1; omega, by have := hy.2; omega⟩),
      Memory.read_writeF32_outside _ _ _ fun hy => h ⟨by have := hy.1; omega, by have := hy.2; omega⟩]

/-- The bytes a frame of a mono block depends on: the header's first three when it is loaded, and the
data byte. -/
theorem monoFrameState_congr {m m' : Memory} {f : Nat} {c : Channel}
    (hh : f % spb = 0 → ∀ x, InSpan (inp + f / spb * bs) 3 x → m.read x = m'.read x)
    (hb : m.read (inp + f / spb * bs + 4 + f % spb / 2) = m'.read (inp + f / spb * bs + 4 + f % spb / 2)) :
    monoFrameState sg m inp spb bs f c = monoFrameState sg m' inp spb bs f c := by
  have e : m.readLE (inp + f / spb * bs + 4 + f % spb / 2) 1 =
      m'.readLE (inp + f / spb * bs + 4 + f % spb / 2) 1 := by
    simp only [Memory.readLE, hb]
  simp only [monoFrameState, e]
  by_cases hp : f % spb = 0
  · have h2 : m.readLE (inp + f / spb * bs) 2 = m'.readLE (inp + f / spb * bs) 2 :=
      Memory.readLE_congr fun x hx => hh hp x ⟨hx.1, by have := hx.2; omega⟩
    have h1 : m.readLE (inp + f / spb * bs + 2) 1 = m'.readLE (inp + f / spb * bs + 2) 1 :=
      Memory.readLE_congr fun x hx => hh hp x ⟨by have := hx.1; omega, by have := hx.2; omega⟩
    simp only [if_pos hp, loadHeader, h1, h2]
  · simp only [if_neg hp]

/-- The mono ADPCM loop: with the frames' input bytes (`reads`) apart from the output, the channel's
states are those of the frames on the buffer space as it was, and output word `j` is the sample after
frame `j` (R250). -/
theorem imaMonoFrames_spec (n : Nat) (m0 : Memory) (c0 : Channel)
    (hd : ∀ f < n, ∀ m : Memory, (∀ x, ¬ InSpan out (4 * n) x → m.read x = m0.read x) → ∀ c,
      monoFrameState sg m inp spb bs f c = monoFrameState sg m0 inp spb bs f c)
    (k f : Nat) (m : Memory) (hk : f + k = n) (hm : ∀ x, ¬ InSpan out (4 * n) x → m.read x = m0.read x) :
    let frame := fun j => monoFrameState sg m0 inp spb bs j
    let r := imaMonoFrames sg inp out spb bs k f m (chanBefore c0 frame f)
    r.2 = chanBefore c0 frame n ∧
      ∀ j, f ≤ j → j < n → wordAt r.1 (out + 4 * j) = (chanAt c0 frame j).sample := by
  induction k generalizing f m with
  | zero =>
    subst hk
    exact ⟨rfl, fun j h1 h2 => by omega⟩
  | succ k ih =>
    intro frame r
    have hst : monoFrameState sg m inp spb bs f (chanBefore c0 frame f) = chanAt c0 frame f := by
      rw [hd f (by omega) m hm, chanAt_eq]
    have hr : r = imaMonoFrames sg inp out spb bs k (f + 1)
        (m.writeF32 (out + 4 * f) (chanAt c0 frame f).sample) (chanBefore c0 frame (f + 1)) := by
      show imaMonoFrames sg inp out spb bs (k + 1) f m _ = _
      rw [imaMonoFrames, hst]
      rfl
    have hm' : ∀ x, ¬ InSpan out (4 * n) x →
        (m.writeF32 (out + 4 * f) (chanAt c0 frame f).sample).read x = m0.read x := by
      intro x hx
      rw [Memory.read_writeF32_outside _ _ _
        fun hy => hx ⟨by have := hy.1; omega, by have := hy.2; omega⟩]
      exact hm x hx
    obtain ⟨h1, h2⟩ := ih (f + 1) _ (by omega) hm'
    rw [hr]
    refine ⟨h1, fun j hj hjn => ?_⟩
    rcases Nat.eq_or_lt_of_le hj with rfl | hlt
    · rw [wordAt_congr (m' := m.writeF32 (out + 4 * f) (chanAt c0 frame f).sample), wordAt_writeF32]
      intro x hx
      refine imaMonoFrames_read_outside sg inp out spb bs k _ _ _ fun hy => ?_
      have := hx.2; have := hy.1
      omega
    · exact h2 j hlt hjn

theorem imaMonoFrames_wf (k f : Nat) {m : Memory} (c : Channel) (h : m.wf = true) :
    (imaMonoFrames sg inp out spb bs k f m c).1.wf = true := by
  induction k generalizing f m c with
  | zero => exact h
  | succ k ih => exact ih _ _ (Memory.wf_writeF32 h _ _)

theorem mem_imaMonoFrames (k f : Nat) {m : Memory} {c : Channel} {d : Host.Cell}
    (h : d ∈ (imaMonoFrames sg inp out spb bs k f m c).1) :
    InSpan (out + 4 * f) (4 * k) d.1 ∨ d ∈ m := by
  induction k generalizing f m c with
  | zero => exact .inr h
  | succ k ih =>
    rcases ih _ h with h | h
    · exact .inl ⟨by have := h.1; omega, by have := h.2; omega⟩
    · rcases Memory.mem_writeF32 h with h | h
      · exact .inl ⟨by have := h.1; omega, by have := h.2; omega⟩
      · exact .inr h

end ImaMono

section ImaStereo
variable (sg : Bool) (inp outL outR spb bs : Nat)

theorem imaStereoFrames_read_outside (k f : Nat) (m : Memory) (l r : Channel) {a : Nat}
    (hl : ¬ InSpan (outL + 4 * f) (4 * k) a) (hr : ¬ InSpan (outR + 4 * f) (4 * k) a) :
    (imaStereoFrames sg inp outL outR spb bs k f m l r).1.read a = m.read a := by
  induction k generalizing f m l r with
  | zero => rfl
  | succ k ih =>
    rw [imaStereoFrames]
    rw [ih _ _ _ _ (fun hy => hl ⟨by have := hy.1; omega, by have := hy.2; omega⟩)
        (fun hy => hr ⟨by have := hy.1; omega, by have := hy.2; omega⟩),
      Memory.read_writeF32_outside _ _ _ fun hy => hr ⟨by have := hy.1; omega, by have := hy.2; omega⟩,
      Memory.read_writeF32_outside _ _ _ fun hy => hl ⟨by have := hy.1; omega, by have := hy.2; omega⟩]

/-- The bytes a frame of a stereo block depends on, for the channel whose header is `h`. -/
theorem stereoFrameState_congr {m m' : Memory} {f : Nat} {right : Bool} {c : Channel}
    (hh : f % spb = 0 → ∀ x,
      InSpan (if right then inp + f / spb * bs + 4 else inp + f / spb * bs) 3 x → m.read x = m'.read x)
    (hb : m.read (inp + f / spb * bs + 8 + f % spb) = m'.read (inp + f / spb * bs + 8 + f % spb)) :
    stereoFrameState sg m inp spb bs f right c = stereoFrameState sg m' inp spb bs f right c := by
  have e : m.readLE (inp + f / spb * bs + 8 + f % spb) 1 =
      m'.readLE (inp + f / spb * bs + 8 + f % spb) 1 := by
    simp only [Memory.readLE, hb]
  simp only [stereoFrameState, e]
  by_cases hp : f % spb = 0
  · have hh := hh hp
    generalize (if right = true then inp + f / spb * bs + 4 else inp + f / spb * bs) = h at hh ⊢
    have h2 : m.readLE h 2 = m'.readLE h 2 :=
      Memory.readLE_congr fun x hx => hh x ⟨hx.1, by have := hx.2; omega⟩
    have h1 : m.readLE (h + 2) 1 = m'.readLE (h + 2) 1 :=
      Memory.readLE_congr fun x hx => hh x ⟨by have := hx.1; omega, by have := hx.2; omega⟩
    simp only [if_pos hp, loadHeader, h1, h2]
  · simp only [if_neg hp]

/-- The stereo ADPCM loop (R251), as the mono one, for both channels. -/
theorem imaStereoFrames_spec (n : Nat) (m0 : Memory) (l0 r0 : Channel)
    (ho : ∀ a, InSpan outL (4 * n) a → ¬ InSpan outR (4 * n) a)
    (hd : ∀ f < n, ∀ m : Memory,
      (∀ x, ¬ InSpan outL (4 * n) x → ¬ InSpan outR (4 * n) x → m.read x = m0.read x) → ∀ right c,
      stereoFrameState sg m inp spb bs f right c = stereoFrameState sg m0 inp spb bs f right c)
    (k f : Nat) (m : Memory) (hk : f + k = n)
    (hm : ∀ x, ¬ InSpan outL (4 * n) x → ¬ InSpan outR (4 * n) x → m.read x = m0.read x) :
    let fl := fun j => stereoFrameState sg m0 inp spb bs j false
    let fr := fun j => stereoFrameState sg m0 inp spb bs j true
    let r := imaStereoFrames sg inp outL outR spb bs k f m (chanBefore l0 fl f) (chanBefore r0 fr f)
    r.2 = (chanBefore l0 fl n, chanBefore r0 fr n) ∧
      ∀ j, f ≤ j → j < n → wordAt r.1 (outL + 4 * j) = (chanAt l0 fl j).sample ∧
        wordAt r.1 (outR + 4 * j) = (chanAt r0 fr j).sample := by
  induction k generalizing f m with
  | zero =>
    subst hk
    exact ⟨rfl, fun j h1 h2 => by omega⟩
  | succ k ih =>
    intro fl fr r
    have hsl : stereoFrameState sg m inp spb bs f false (chanBefore l0 fl f) = chanAt l0 fl f := by
      rw [hd f (by omega) m hm, chanAt_eq]
    have hsr : stereoFrameState sg m inp spb bs f true (chanBefore r0 fr f) = chanAt r0 fr f := by
      rw [hd f (by omega) m hm, chanAt_eq]
    have hr : r = imaStereoFrames sg inp outL outR spb bs k (f + 1)
        ((m.writeF32 (outL + 4 * f) (chanAt l0 fl f).sample).writeF32 (outR + 4 * f)
          (chanAt r0 fr f).sample) (chanBefore l0 fl (f + 1)) (chanBefore r0 fr (f + 1)) := by
      show imaStereoFrames sg inp outL outR spb bs (k + 1) f m _ _ = _
      rw [imaStereoFrames, hsl, hsr]
      rfl
    have hm' : ∀ x, ¬ InSpan outL (4 * n) x → ¬ InSpan outR (4 * n) x →
        ((m.writeF32 (outL + 4 * f) (chanAt l0 fl f).sample).writeF32 (outR + 4 * f)
          (chanAt r0 fr f).sample).read x = m0.read x := by
      intro x hx hy
      rw [Memory.read_writeF32_outside _ _ _
          fun hz => hy ⟨by have := hz.1; omega, by have := hz.2; omega⟩,
        Memory.read_writeF32_outside _ _ _
          fun hz => hx ⟨by have := hz.1; omega, by have := hz.2; omega⟩]
      exact hm x hx hy
    obtain ⟨h1, h2⟩ := ih (f + 1) _ (by omega) hm'
    rw [hr]
    refine ⟨h1, fun j hj hjn => ?_⟩
    rcases Nat.eq_or_lt_of_le hj with rfl | hlt
    · constructor
      · rw [wordAt_congr (m' := m.writeF32 (outL + 4 * f) (chanAt l0 fl f).sample), wordAt_writeF32]
        intro x hx
        have hx1 := hx.1; have hx2 := hx.2
        have hno := ho x ⟨by omega, by omega⟩
        rw [imaStereoFrames_read_outside sg inp outL outR spb bs k _ _ _ _
            (fun hy => by have := hy.1; omega)
            (fun hy => hno ⟨by have := hy.1; omega, by have := hy.2; omega⟩),
          Memory.read_writeF32_outside _ _ _
            fun hy => hno ⟨by have := hy.1; omega, by have := hy.2; omega⟩]
      · rw [wordAt_congr (m' := (m.writeF32 (outL + 4 * f) (chanAt l0 fl f).sample).writeF32 (outR + 4 * f)
            (chanAt r0 fr f).sample), wordAt_writeF32]
        intro x hx
        have hx1 := hx.1; have hx2 := hx.2
        refine imaStereoFrames_read_outside sg inp outL outR spb bs k _ _ _ _ (fun hy => ?_)
          (fun hy => by have := hy.1; omega)
        exact ho x ⟨by have := hy.1; omega, by have := hy.2; omega⟩ ⟨by omega, by omega⟩
    · exact h2 j hlt hjn

theorem imaStereoFrames_wf (k f : Nat) {m : Memory} (l r : Channel) (h : m.wf = true) :
    (imaStereoFrames sg inp outL outR spb bs k f m l r).1.wf = true := by
  induction k generalizing f m l r with
  | zero => exact h
  | succ k ih => exact ih _ _ _ (Memory.wf_writeF32 (Memory.wf_writeF32 h _ _) _ _)

theorem mem_imaStereoFrames (k f : Nat) {m : Memory} {l r : Channel} {d : Host.Cell}
    (h : d ∈ (imaStereoFrames sg inp outL outR spb bs k f m l r).1) :
    InSpan (outL + 4 * f) (4 * k) d.1 ∨ InSpan (outR + 4 * f) (4 * k) d.1 ∨ d ∈ m := by
  induction k generalizing f m l r with
  | zero => exact .inr (.inr h)
  | succ k ih =>
    rcases ih _ h with h | h | h
    · exact .inl ⟨by have := h.1; omega, by have := h.2; omega⟩
    · exact .inr (.inl ⟨by have := h.1; omega, by have := h.2; omega⟩)
    · rcases Memory.mem_writeF32 h with h | h
      · exact .inr (.inl ⟨by have := h.1; omega, by have := h.2; omega⟩)
      · rcases Memory.mem_writeF32 h with h | h
        · exact .inl ⟨by have := h.1; omega, by have := h.2; omega⟩
        · exact .inr (.inr h)

end ImaStereo

end Sys2Proof.Machine
end

