-- ==== Sys2Proof/Laws/State.lean ====
section
/-! SUPPORT. One lemma per field per named update of State, so that no later proof unfolds a record
update. -/

namespace Sys2Proof.Machine

variable (s : State)

@[simp] theorem State.finish_cfg (c : ResultCode) : (s.finish c).cfg = s.cfg := rfl
@[simp] theorem State.finish_cmd (c : ResultCode) : (s.finish c).cmd = s.cmd := rfl
@[simp] theorem State.finish_result (c : ResultCode) : (s.finish c).result = c := rfl
@[simp] theorem State.finish_tablesReady (c : ResultCode) : (s.finish c).tablesReady = s.tablesReady := rfl
@[simp] theorem State.finish_inBase (c : ResultCode) : (s.finish c).inBase = s.inBase := rfl
@[simp] theorem State.finish_out0Base (c : ResultCode) : (s.finish c).out0Base = s.out0Base := rfl
@[simp] theorem State.finish_out1Base (c : ResultCode) : (s.finish c).out1Base = s.out1Base := rfl
@[simp] theorem State.finish_count (c : ResultCode) : (s.finish c).count = s.count := rfl
@[simp] theorem State.finish_spb (c : ResultCode) : (s.finish c).spb = s.spb := rfl
@[simp] theorem State.finish_blksz (c : ResultCode) : (s.finish c).blksz = s.blksz := rfl
@[simp] theorem State.finish_len (c : ResultCode) : (s.finish c).len = s.len := rfl
@[simp] theorem State.finish_wf (c : ResultCode) : (s.finish c).wf = s.wf := rfl
@[simp] theorem State.finish_wfValid (c : ResultCode) : (s.finish c).wfValid = s.wfValid := rfl
@[simp] theorem State.finish_alawTab (c : ResultCode) : (s.finish c).alawTab = s.alawTab := rfl
@[simp] theorem State.finish_ulawTab (c : ResultCode) : (s.finish c).ulawTab = s.ulawTab := rfl
@[simp] theorem State.finish_ch0 (c : ResultCode) : (s.finish c).ch0 = s.ch0 := rfl
@[simp] theorem State.finish_ch1 (c : ResultCode) : (s.finish c).ch1 = s.ch1 := rfl
@[simp] theorem State.finish_mem (c : ResultCode) : (s.finish c).mem = s.mem := rfl
@[simp] theorem State.finish_host (c : ResultCode) : (s.finish c).host = s.host := rfl
@[simp] theorem State.finish_seen (c : ResultCode) : (s.finish c).seen = s.seen := rfl
@[simp] theorem State.finish_draws (c : ResultCode) : (s.finish c).draws = s.draws := rfl

@[simp] theorem State.withMem_cfg (m : Memory) : (s.withMem m).cfg = s.cfg := rfl
@[simp] theorem State.withMem_cmd (m : Memory) : (s.withMem m).cmd = s.cmd := rfl
@[simp] theorem State.withMem_result (m : Memory) : (s.withMem m).result = s.result := rfl
@[simp] theorem State.withMem_tablesReady (m : Memory) : (s.withMem m).tablesReady = s.tablesReady := rfl
@[simp] theorem State.withMem_inBase (m : Memory) : (s.withMem m).inBase = s.inBase := rfl
@[simp] theorem State.withMem_out0Base (m : Memory) : (s.withMem m).out0Base = s.out0Base := rfl
@[simp] theorem State.withMem_out1Base (m : Memory) : (s.withMem m).out1Base = s.out1Base := rfl
@[simp] theorem State.withMem_count (m : Memory) : (s.withMem m).count = s.count := rfl
@[simp] theorem State.withMem_spb (m : Memory) : (s.withMem m).spb = s.spb := rfl
@[simp] theorem State.withMem_blksz (m : Memory) : (s.withMem m).blksz = s.blksz := rfl
@[simp] theorem State.withMem_len (m : Memory) : (s.withMem m).len = s.len := rfl
@[simp] theorem State.withMem_wf (m : Memory) : (s.withMem m).wf = s.wf := rfl
@[simp] theorem State.withMem_wfValid (m : Memory) : (s.withMem m).wfValid = s.wfValid := rfl
@[simp] theorem State.withMem_alawTab (m : Memory) : (s.withMem m).alawTab = s.alawTab := rfl
@[simp] theorem State.withMem_ulawTab (m : Memory) : (s.withMem m).ulawTab = s.ulawTab := rfl
@[simp] theorem State.withMem_ch0 (m : Memory) : (s.withMem m).ch0 = s.ch0 := rfl
@[simp] theorem State.withMem_ch1 (m : Memory) : (s.withMem m).ch1 = s.ch1 := rfl
@[simp] theorem State.withMem_mem (m : Memory) : (s.withMem m).mem = m := rfl
@[simp] theorem State.withMem_host (m : Memory) : (s.withMem m).host = s.host := rfl
@[simp] theorem State.withMem_seen (m : Memory) : (s.withMem m).seen = s.seen := rfl
@[simp] theorem State.withMem_draws (m : Memory) : (s.withMem m).draws = s.draws := rfl

@[simp] theorem State.withChannels_cfg (a b : Channel) : (s.withChannels a b).cfg = s.cfg := rfl
@[simp] theorem State.withChannels_cmd (a b : Channel) : (s.withChannels a b).cmd = s.cmd := rfl
@[simp] theorem State.withChannels_result (a b : Channel) : (s.withChannels a b).result = s.result := rfl
@[simp] theorem State.withChannels_tablesReady (a b : Channel) : (s.withChannels a b).tablesReady = s.tablesReady := rfl
@[simp] theorem State.withChannels_inBase (a b : Channel) : (s.withChannels a b).inBase = s.inBase := rfl
@[simp] theorem State.withChannels_out0Base (a b : Channel) : (s.withChannels a b).out0Base = s.out0Base := rfl
@[simp] theorem State.withChannels_out1Base (a b : Channel) : (s.withChannels a b).out1Base = s.out1Base := rfl
@[simp] theorem State.withChannels_count (a b : Channel) : (s.withChannels a b).count = s.count := rfl
@[simp] theorem State.withChannels_spb (a b : Channel) : (s.withChannels a b).spb = s.spb := rfl
@[simp] theorem State.withChannels_blksz (a b : Channel) : (s.withChannels a b).blksz = s.blksz := rfl
@[simp] theorem State.withChannels_len (a b : Channel) : (s.withChannels a b).len = s.len := rfl
@[simp] theorem State.withChannels_wf (a b : Channel) : (s.withChannels a b).wf = s.wf := rfl
@[simp] theorem State.withChannels_wfValid (a b : Channel) : (s.withChannels a b).wfValid = s.wfValid := rfl
@[simp] theorem State.withChannels_alawTab (a b : Channel) : (s.withChannels a b).alawTab = s.alawTab := rfl
@[simp] theorem State.withChannels_ulawTab (a b : Channel) : (s.withChannels a b).ulawTab = s.ulawTab := rfl
@[simp] theorem State.withChannels_ch0 (a b : Channel) : (s.withChannels a b).ch0 = a := rfl
@[simp] theorem State.withChannels_ch1 (a b : Channel) : (s.withChannels a b).ch1 = b := rfl
@[simp] theorem State.withChannels_mem (a b : Channel) : (s.withChannels a b).mem = s.mem := rfl
@[simp] theorem State.withChannels_host (a b : Channel) : (s.withChannels a b).host = s.host := rfl
@[simp] theorem State.withChannels_seen (a b : Channel) : (s.withChannels a b).seen = s.seen := rfl
@[simp] theorem State.withChannels_draws (a b : Channel) : (s.withChannels a b).draws = s.draws := rfl

@[simp] theorem State.withTables_cfg (a b : Vector F32 256) : (s.withTables a b).cfg = s.cfg := rfl
@[simp] theorem State.withTables_cmd (a b : Vector F32 256) : (s.withTables a b).cmd = s.cmd := rfl
@[simp] theorem State.withTables_result (a b : Vector F32 256) : (s.withTables a b).result = s.result := rfl
@[simp] theorem State.withTables_tablesReady (a b : Vector F32 256) : (s.withTables a b).tablesReady = true := rfl
@[simp] theorem State.withTables_inBase (a b : Vector F32 256) : (s.withTables a b).inBase = s.inBase := rfl
@[simp] theorem State.withTables_out0Base (a b : Vector F32 256) : (s.withTables a b).out0Base = s.out0Base := rfl
@[simp] theorem State.withTables_out1Base (a b : Vector F32 256) : (s.withTables a b).out1Base = s.out1Base := rfl
@[simp] theorem State.withTables_count (a b : Vector F32 256) : (s.withTables a b).count = s.count := rfl
@[simp] theorem State.withTables_spb (a b : Vector F32 256) : (s.withTables a b).spb = s.spb := rfl
@[simp] theorem State.withTables_blksz (a b : Vector F32 256) : (s.withTables a b).blksz = s.blksz := rfl
@[simp] theorem State.withTables_len (a b : Vector F32 256) : (s.withTables a b).len = s.len := rfl
@[simp] theorem State.withTables_wf (a b : Vector F32 256) : (s.withTables a b).wf = s.wf := rfl
@[simp] theorem State.withTables_wfValid (a b : Vector F32 256) : (s.withTables a b).wfValid = s.wfValid := rfl
@[simp] theorem State.withTables_alawTab (a b : Vector F32 256) : (s.withTables a b).alawTab = a := rfl
@[simp] theorem State.withTables_ulawTab (a b : Vector F32 256) : (s.withTables a b).ulawTab = b := rfl
@[simp] theorem State.withTables_ch0 (a b : Vector F32 256) : (s.withTables a b).ch0 = s.ch0 := rfl
@[simp] theorem State.withTables_ch1 (a b : Vector F32 256) : (s.withTables a b).ch1 = s.ch1 := rfl
@[simp] theorem State.withTables_mem (a b : Vector F32 256) : (s.withTables a b).mem = s.mem := rfl
@[simp] theorem State.withTables_host (a b : Vector F32 256) : (s.withTables a b).host = s.host := rfl
@[simp] theorem State.withTables_seen (a b : Vector F32 256) : (s.withTables a b).seen = s.seen := rfl
@[simp] theorem State.withTables_draws (a b : Vector F32 256) : (s.withTables a b).draws = s.draws := rfl

@[simp] theorem State.withRecord_cfg (r : WaveFormat) : (s.withRecord r).cfg = s.cfg := rfl
@[simp] theorem State.withRecord_cmd (r : WaveFormat) : (s.withRecord r).cmd = s.cmd := rfl
@[simp] theorem State.withRecord_result (r : WaveFormat) : (s.withRecord r).result = s.result := rfl
@[simp] theorem State.withRecord_tablesReady (r : WaveFormat) : (s.withRecord r).tablesReady = s.tablesReady := rfl
@[simp] theorem State.withRecord_inBase (r : WaveFormat) : (s.withRecord r).inBase = s.inBase := rfl
@[simp] theorem State.withRecord_out0Base (r : WaveFormat) : (s.withRecord r).out0Base = s.out0Base := rfl
@[simp] theorem State.withRecord_out1Base (r : WaveFormat) : (s.withRecord r).out1Base = s.out1Base := rfl
@[simp] theorem State.withRecord_count (r : WaveFormat) : (s.withRecord r).count = s.count := rfl
@[simp] theorem State.withRecord_spb (r : WaveFormat) : (s.withRecord r).spb = s.spb := rfl
@[simp] theorem State.withRecord_blksz (r : WaveFormat) : (s.withRecord r).blksz = s.blksz := rfl
@[simp] theorem State.withRecord_len (r : WaveFormat) : (s.withRecord r).len = s.len := rfl
@[simp] theorem State.withRecord_wf (r : WaveFormat) : (s.withRecord r).wf = r := rfl
@[simp] theorem State.withRecord_wfValid (r : WaveFormat) : (s.withRecord r).wfValid = true := rfl
@[simp] theorem State.withRecord_alawTab (r : WaveFormat) : (s.withRecord r).alawTab = s.alawTab := rfl
@[simp] theorem State.withRecord_ulawTab (r : WaveFormat) : (s.withRecord r).ulawTab = s.ulawTab := rfl
@[simp] theorem State.withRecord_ch0 (r : WaveFormat) : (s.withRecord r).ch0 = s.ch0 := rfl
@[simp] theorem State.withRecord_ch1 (r : WaveFormat) : (s.withRecord r).ch1 = s.ch1 := rfl
@[simp] theorem State.withRecord_mem (r : WaveFormat) : (s.withRecord r).mem = s.mem := rfl
@[simp] theorem State.withRecord_host (r : WaveFormat) : (s.withRecord r).host = s.host := rfl
@[simp] theorem State.withRecord_seen (r : WaveFormat) : (s.withRecord r).seen = s.seen := rfl
@[simp] theorem State.withRecord_draws (r : WaveFormat) : (s.withRecord r).draws = s.draws := rfl

@[simp] theorem State.loseRecord_cfg : (s.loseRecord).cfg = s.cfg := rfl
@[simp] theorem State.loseRecord_cmd : (s.loseRecord).cmd = s.cmd := rfl
@[simp] theorem State.loseRecord_result : (s.loseRecord).result = s.result := rfl
@[simp] theorem State.loseRecord_tablesReady : (s.loseRecord).tablesReady = s.tablesReady := rfl
@[simp] theorem State.loseRecord_inBase : (s.loseRecord).inBase = s.inBase := rfl
@[simp] theorem State.loseRecord_out0Base : (s.loseRecord).out0Base = s.out0Base := rfl
@[simp] theorem State.loseRecord_out1Base : (s.loseRecord).out1Base = s.out1Base := rfl
@[simp] theorem State.loseRecord_count : (s.loseRecord).count = s.count := rfl
@[simp] theorem State.loseRecord_spb : (s.loseRecord).spb = s.spb := rfl
@[simp] theorem State.loseRecord_blksz : (s.loseRecord).blksz = s.blksz := rfl
@[simp] theorem State.loseRecord_len : (s.loseRecord).len = s.len := rfl
@[simp] theorem State.loseRecord_wf : (s.loseRecord).wf = WaveFormat.free s.cfg.aw s.draws := rfl
@[simp] theorem State.loseRecord_wfValid : (s.loseRecord).wfValid = false := rfl
@[simp] theorem State.loseRecord_alawTab : (s.loseRecord).alawTab = s.alawTab := rfl
@[simp] theorem State.loseRecord_ulawTab : (s.loseRecord).ulawTab = s.ulawTab := rfl
@[simp] theorem State.loseRecord_ch0 : (s.loseRecord).ch0 = s.ch0 := rfl
@[simp] theorem State.loseRecord_ch1 : (s.loseRecord).ch1 = s.ch1 := rfl
@[simp] theorem State.loseRecord_mem : (s.loseRecord).mem = s.mem := rfl
@[simp] theorem State.loseRecord_host : (s.loseRecord).host = s.host := rfl
@[simp] theorem State.loseRecord_seen : (s.loseRecord).seen = s.seen := rfl
@[simp] theorem State.loseRecord_draws : (s.loseRecord).draws = s.draws + 8 := rfl

@[simp] theorem State.loseSpans_cfg (rs : List Region) : (s.loseSpans rs).cfg = s.cfg := rfl
@[simp] theorem State.loseSpans_cmd (rs : List Region) : (s.loseSpans rs).cmd = s.cmd := rfl
@[simp] theorem State.loseSpans_result (rs : List Region) : (s.loseSpans rs).result = s.result := rfl
@[simp] theorem State.loseSpans_tablesReady (rs : List Region) : (s.loseSpans rs).tablesReady = s.tablesReady := rfl
@[simp] theorem State.loseSpans_inBase (rs : List Region) : (s.loseSpans rs).inBase = s.inBase := rfl
@[simp] theorem State.loseSpans_out0Base (rs : List Region) : (s.loseSpans rs).out0Base = s.out0Base := rfl
@[simp] theorem State.loseSpans_out1Base (rs : List Region) : (s.loseSpans rs).out1Base = s.out1Base := rfl
@[simp] theorem State.loseSpans_count (rs : List Region) : (s.loseSpans rs).count = s.count := rfl
@[simp] theorem State.loseSpans_spb (rs : List Region) : (s.loseSpans rs).spb = s.spb := rfl
@[simp] theorem State.loseSpans_blksz (rs : List Region) : (s.loseSpans rs).blksz = s.blksz := rfl
@[simp] theorem State.loseSpans_len (rs : List Region) : (s.loseSpans rs).len = s.len := rfl
@[simp] theorem State.loseSpans_wf (rs : List Region) : (s.loseSpans rs).wf = s.wf := rfl
@[simp] theorem State.loseSpans_wfValid (rs : List Region) : (s.loseSpans rs).wfValid = s.wfValid := rfl
@[simp] theorem State.loseSpans_alawTab (rs : List Region) : (s.loseSpans rs).alawTab = s.alawTab := rfl
@[simp] theorem State.loseSpans_ulawTab (rs : List Region) : (s.loseSpans rs).ulawTab = s.ulawTab := rfl
@[simp] theorem State.loseSpans_ch0 (rs : List Region) : (s.loseSpans rs).ch0 = s.ch0 := rfl
@[simp] theorem State.loseSpans_ch1 (rs : List Region) : (s.loseSpans rs).ch1 = s.ch1 := rfl
@[simp] theorem State.loseSpans_mem (rs : List Region) : (s.loseSpans rs).mem = s.mem.loseSpans s.draws rs := rfl
@[simp] theorem State.loseSpans_host (rs : List Region) : (s.loseSpans rs).host = s.host := rfl
@[simp] theorem State.loseSpans_seen (rs : List Region) : (s.loseSpans rs).seen = s.seen := rfl
@[simp] theorem State.loseSpans_draws (rs : List Region) : (s.loseSpans rs).draws = s.draws + (rs.map Region.size).sum := rfl

@[simp] theorem State.applyReset_cfg : (s.applyReset).cfg = s.cfg := rfl
@[simp] theorem State.applyReset_cmd : (s.applyReset).cmd = 0 := rfl
@[simp] theorem State.applyReset_result : (s.applyReset).result = .none := rfl
@[simp] theorem State.applyReset_tablesReady : (s.applyReset).tablesReady = false := rfl
@[simp] theorem State.applyReset_inBase : (s.applyReset).inBase = 0 := rfl
@[simp] theorem State.applyReset_out0Base : (s.applyReset).out0Base = 0 := rfl
@[simp] theorem State.applyReset_out1Base : (s.applyReset).out1Base = 0 := rfl
@[simp] theorem State.applyReset_count : (s.applyReset).count = 0 := rfl
@[simp] theorem State.applyReset_spb : (s.applyReset).spb = 0 := rfl
@[simp] theorem State.applyReset_blksz : (s.applyReset).blksz = 0 := rfl
@[simp] theorem State.applyReset_len : (s.applyReset).len = 0 := rfl
@[simp] theorem State.applyReset_wf : (s.applyReset).wf = WaveFormat.free s.cfg.aw s.draws := rfl
@[simp] theorem State.applyReset_wfValid : (s.applyReset).wfValid = false := rfl
@[simp] theorem State.applyReset_alawTab : (s.applyReset).alawTab = freeTable (s.draws + 12) := rfl
@[simp] theorem State.applyReset_ulawTab : (s.applyReset).ulawTab = freeTable (s.draws + 268) := rfl
@[simp] theorem State.applyReset_ch0 : (s.applyReset).ch0 = Channel.free (s.draws + 8) := rfl
@[simp] theorem State.applyReset_ch1 : (s.applyReset).ch1 = Channel.free (s.draws + 10) := rfl
@[simp] theorem State.applyReset_mem : (s.applyReset).mem = s.mem := rfl
@[simp] theorem State.applyReset_host : (s.applyReset).host = s.host := rfl
@[simp] theorem State.applyReset_seen : (s.applyReset).seen = s.seen := rfl
@[simp] theorem State.applyReset_draws : (s.applyReset).draws = s.draws + 524 := rfl

@[simp] theorem State.withCmd_cfg (w : Word) : (s.withCmd w).cfg = s.cfg := rfl
@[simp] theorem State.withCmd_cmd (w : Word) : (s.withCmd w).cmd = w := rfl
@[simp] theorem State.withCmd_result (w : Word) : (s.withCmd w).result = s.result := rfl
@[simp] theorem State.withCmd_tablesReady (w : Word) : (s.withCmd w).tablesReady = s.tablesReady := rfl
@[simp] theorem State.withCmd_inBase (w : Word) : (s.withCmd w).inBase = s.inBase := rfl
@[simp] theorem State.withCmd_out0Base (w : Word) : (s.withCmd w).out0Base = s.out0Base := rfl
@[simp] theorem State.withCmd_out1Base (w : Word) : (s.withCmd w).out1Base = s.out1Base := rfl
@[simp] theorem State.withCmd_count (w : Word) : (s.withCmd w).count = s.count := rfl
@[simp] theorem State.withCmd_spb (w : Word) : (s.withCmd w).spb = s.spb := rfl
@[simp] theorem State.withCmd_blksz (w : Word) : (s.withCmd w).blksz = s.blksz := rfl
@[simp] theorem State.withCmd_len (w : Word) : (s.withCmd w).len = s.len := rfl
@[simp] theorem State.withCmd_wf (w : Word) : (s.withCmd w).wf = s.wf := rfl
@[simp] theorem State.withCmd_wfValid (w : Word) : (s.withCmd w).wfValid = s.wfValid := rfl
@[simp] theorem State.withCmd_alawTab (w : Word) : (s.withCmd w).alawTab = s.alawTab := rfl
@[simp] theorem State.withCmd_ulawTab (w : Word) : (s.withCmd w).ulawTab = s.ulawTab := rfl
@[simp] theorem State.withCmd_ch0 (w : Word) : (s.withCmd w).ch0 = s.ch0 := rfl
@[simp] theorem State.withCmd_ch1 (w : Word) : (s.withCmd w).ch1 = s.ch1 := rfl
@[simp] theorem State.withCmd_mem (w : Word) : (s.withCmd w).mem = s.mem := rfl
@[simp] theorem State.withCmd_host (w : Word) : (s.withCmd w).host = s.host := rfl
@[simp] theorem State.withCmd_seen (w : Word) : (s.withCmd w).seen = s.seen := rfl
@[simp] theorem State.withCmd_draws (w : Word) : (s.withCmd w).draws = s.draws := rfl

@[simp] theorem State.withHost_cfg (h : List HostAction) : (s.withHost h).cfg = s.cfg := rfl
@[simp] theorem State.withHost_cmd (h : List HostAction) : (s.withHost h).cmd = s.cmd := rfl
@[simp] theorem State.withHost_result (h : List HostAction) : (s.withHost h).result = s.result := rfl
@[simp] theorem State.withHost_tablesReady (h : List HostAction) : (s.withHost h).tablesReady = s.tablesReady := rfl
@[simp] theorem State.withHost_inBase (h : List HostAction) : (s.withHost h).inBase = s.inBase := rfl
@[simp] theorem State.withHost_out0Base (h : List HostAction) : (s.withHost h).out0Base = s.out0Base := rfl
@[simp] theorem State.withHost_out1Base (h : List HostAction) : (s.withHost h).out1Base = s.out1Base := rfl
@[simp] theorem State.withHost_count (h : List HostAction) : (s.withHost h).count = s.count := rfl
@[simp] theorem State.withHost_spb (h : List HostAction) : (s.withHost h).spb = s.spb := rfl
@[simp] theorem State.withHost_blksz (h : List HostAction) : (s.withHost h).blksz = s.blksz := rfl
@[simp] theorem State.withHost_len (h : List HostAction) : (s.withHost h).len = s.len := rfl
@[simp] theorem State.withHost_wf (h : List HostAction) : (s.withHost h).wf = s.wf := rfl
@[simp] theorem State.withHost_wfValid (h : List HostAction) : (s.withHost h).wfValid = s.wfValid := rfl
@[simp] theorem State.withHost_alawTab (h : List HostAction) : (s.withHost h).alawTab = s.alawTab := rfl
@[simp] theorem State.withHost_ulawTab (h : List HostAction) : (s.withHost h).ulawTab = s.ulawTab := rfl
@[simp] theorem State.withHost_ch0 (h : List HostAction) : (s.withHost h).ch0 = s.ch0 := rfl
@[simp] theorem State.withHost_ch1 (h : List HostAction) : (s.withHost h).ch1 = s.ch1 := rfl
@[simp] theorem State.withHost_mem (h : List HostAction) : (s.withHost h).mem = s.mem := rfl
@[simp] theorem State.withHost_host (h : List HostAction) : (s.withHost h).host = h := rfl
@[simp] theorem State.withHost_seen (h : List HostAction) : (s.withHost h).seen = s.seen := rfl
@[simp] theorem State.withHost_draws (h : List HostAction) : (s.withHost h).draws = s.draws := rfl

end Sys2Proof.Machine
end

