-- ==== Sys2Proof/Laws/Exec.lean ====
section
/-! SUPPORT. What executing an operation can do, said once: a decoder is refused for want of tables,
rejected, refused for a broken duty, or answers the one accepted state; PARSE_HEADER and INIT_TABLES
likewise. -/

namespace Sys2Proof.Machine

/-! ### Commands under the host's duties -/

theorem underDuties_eq_next_iff {f : Footprint} {s t u : State} :
    underDuties f s t = .next u ↔ f.refusal s.cfg = none ∧ u = t := by
  unfold underDuties
  cases f.refusal s.cfg <;> simp [eq_comm]

theorem underDuties_eq_refused_iff {f : Footprint} {s t : State} {r : Refusal} :
    underDuties f s t = .refused r ↔ f.refusal s.cfg = some r := by
  unfold underDuties
  cases f.refusal s.cfg <;> simp

theorem underDuties_ne_fault {f : Footprint} {s t : State} {e : Fault} : underDuties f s t ≠ .fault e := by
  unfold underDuties
  cases f.refusal s.cfg <;> simp

/-! ### The decoders -/

/-- The argument check of a decoder (R161, R248). -/
def State.rejects (s : State) (i : Instr) : Bool :=
  if isAdpcm i then s.rejectAdpcm (isStereo i) else s.rejectCommon (isStereo i)

theorem rejects_eq_false_iff (s : State) (i : Instr) : s.rejects i = false ↔ s.ValidArgs i := by
  cases h : isAdpcm i
  · simpa [State.rejects, h] using rejectCommon_iff s i h
  · simpa [State.rejects, h] using rejectAdpcm_iff s i h

theorem rejects_eq_true_iff (s : State) (i : Instr) : s.rejects i = true ↔ ¬ s.ValidArgs i := by
  rw [← rejects_eq_false_iff, Bool.not_eq_false]

/-- The element width and the conversion of a LIN or LAW decoder. -/
def State.element (s : State) (i : Instr) : Nat × (Nat → F32) :=
  match i with
  | .u8M | .u8S => (1, convU8)
  | .s16M | .s16S => (2, convS16)
  | .s24M | .s24S => (3, convS24)
  | .s32M | .s32S => (4, convS32)
  | .f32M | .f32S => (4, convF32)
  | .f64M | .f64S => (8, convF64)
  | .alawM | .alawS => (1, lawEntry s.alawTab)
  | .ulawM | .ulawS => (1, lawEntry s.ulawTab)
  | .initTables | .parseHeader | .imaM | .imaS => (0, fun _ => 0)

/-- The mono ADPCM run of a command (R250). -/
def State.imaMonoRun (s : State) : Memory × Channel :=
  imaMonoFrames s.cfg.adpcmIndexByteSigned s.inBase s.out0Base s.samplesPerBlock.toNat
    s.blockSize.toNat s.n.toNat 0 s.mem s.ch0

/-- The stereo ADPCM run of a command (R251). -/
def State.imaStereoRun (s : State) : Memory × Channel × Channel :=
  imaStereoFrames s.cfg.adpcmIndexByteSigned s.inBase s.out0Base s.out1Base s.samplesPerBlock.toNat
    s.blockSize.toNat s.n.toNat 0 s.mem s.ch0 s.ch1

/-- The state a decoder answers when it is neither rejected nor refused. -/
def State.accepted (s : State) (i : Instr) : State :=
  match i with
  | .imaM => ((s.withMem s.imaMonoRun.1).withChannels s.imaMonoRun.2 s.ch1).finish .ok
  | .imaS =>
    ((s.withMem s.imaStereoRun.1).withChannels s.imaStereoRun.2.1 s.imaStereoRun.2.2).finish .ok
  | i =>
    if isStereo i then
      (s.withMem (stereoFrames (s.element i).1 (s.element i).2 s.inBase s.out0Base s.out1Base
        s.n.toNat 0 s.mem)).finish .ok
    else
      (s.withMem (monoFrames (s.element i).1 (s.element i).2 s.inBase s.out0Base s.n.toNat 0
        s.mem)).finish .ok

/-- What a decoder does, whichever it is. -/
theorem exec_decoder_eq {i : Instr} (s : State) (hd : isDecoder i = true)
    (hr : isLaw i = true → s.tablesReady = true) :
    exec i s = if s.rejects i then reject s
      else underDuties { reads := s.inputSpans i, writes := s.outputSpans (isStereo i) } s (s.accepted i) := by
  cases i <;> first
    | exact absurd hd Bool.false_ne_true
    | rfl
    | (have h := hr rfl
       simp only [exec, execAlawM, execAlawS, execUlawM, execUlawS, whenReady, h, if_true]
       rfl)

/-- A LAW decoder without tables is refused (R224). -/
theorem exec_law_not_ready {i : Instr} (s : State) (hl : isLaw i = true) (h : s.tablesReady = false) :
    exec i s = .refused .tablesNotReady := by
  cases i <;> first
    | exact absurd hl Bool.false_ne_true
    | simp [exec, execAlawM, execAlawS, execUlawM, execUlawS, whenReady, h]

/-- On invalid arguments a decoder changes `STATUS.RESULT` alone (R162). -/
theorem exec_decoder_invalid {i : Instr} {s : State} (hd : isDecoder i = true)
    (hr : isLaw i = true → s.tablesReady = true) (hv : ¬ s.ValidArgs i) :
    exec i s = .next (s.finish .rejected) := by
  rw [exec_decoder_eq s hd hr, if_pos ((rejects_eq_true_iff s i).2 hv)]
  rfl

/-- On valid arguments a decoder runs under the host's duties. -/
theorem exec_decoder_valid {i : Instr} {s : State} (hd : isDecoder i = true)
    (hr : isLaw i = true → s.tablesReady = true) (hv : s.ValidArgs i) :
    exec i s =
      underDuties { reads := s.inputSpans i, writes := s.outputSpans (isStereo i) } s (s.accepted i) := by
  rw [exec_decoder_eq s hd hr, if_neg]
  rw [(rejects_eq_false_iff s i).2 hv]
  exact Bool.false_ne_true

/-- With the duties kept it answers the accepted state. -/
theorem exec_decoder_accepted {i : Instr} {s : State} (hd : isDecoder i = true)
    (hr : isLaw i = true → s.tablesReady = true) (hv : s.ValidArgs i) (hk : s.KeepsDuties i) :
    exec i s = .next (s.accepted i) := by
  rw [exec_decoder_valid hd hr hv, underDuties_eq_next_iff]
  exact ⟨(decoder_refusal_iff s i hd hv.spbPositive).2 hk, rfl⟩

/-- Every next state of a decoder is a rejection or the accepted state. -/
theorem exec_decoder_cases {i : Instr} {s t : State} (hd : isDecoder i = true) (h : exec i s = .next t) :
    (isLaw i = true → s.tablesReady = true) ∧
      ((¬ s.ValidArgs i ∧ t = s.finish .rejected) ∨
        (s.ValidArgs i ∧ s.KeepsDuties i ∧ t = s.accepted i)) := by
  have hr : isLaw i = true → s.tablesReady = true := by
    intro hl
    by_contra hc
    rw [exec_law_not_ready s hl (by simpa using hc)] at h
    cases h
  refine ⟨hr, ?_⟩
  by_cases hv : s.ValidArgs i
  · rw [exec_decoder_valid hd hr hv, underDuties_eq_next_iff] at h
    exact .inr ⟨hv, (decoder_refusal_iff s i hd hv.spbPositive).1 h.1, h.2⟩
  · rw [exec_decoder_invalid hd hr hv] at h
    cases h
    exact .inl ⟨hv, rfl⟩

/-- The accepted state differs from the state before in the buffer space, the ADPCM state and
`STATUS.RESULT` alone. -/
theorem accepted_frame (s : State) (i : Instr) :
    s.accepted i = { s with
      mem := (s.accepted i).mem, ch0 := (s.accepted i).ch0, ch1 := (s.accepted i).ch1, result := .ok } := by
  cases i <;> rfl

theorem accepted_ch0 (s : State) {i : Instr} (h : isAdpcm i = false) : (s.accepted i).ch0 = s.ch0 := by
  cases i <;> first | rfl | simp [isAdpcm] at h

theorem accepted_ch1 (s : State) {i : Instr} (h : i ≠ .imaS) : (s.accepted i).ch1 = s.ch1 := by
  cases i <;> first | rfl | exact absurd rfl h

/-- The accepted state's buffer space changes inside the output footprint alone (R64, R311). -/
theorem accepted_read_outside {s : State} {i : Instr} (hd : isDecoder i = true) {a : Nat}
    (h : ¬ s.WritesByte i a) : (s.accepted i).mem.read a = s.mem.read a := by
  have hn : s.n.toNat = s.frames := rfl
  have h0 : ¬ InSpan (s.out0Base + 4 * 0) (4 * s.frames) a := fun hc => h ⟨hd, .inl hc⟩
  have h1 : isStereo i = true → ¬ InSpan (s.out1Base + 4 * 0) (4 * s.frames) a :=
    fun hs hc => h ⟨hd, .inr ⟨hs, hc⟩⟩
  cases i <;> first
    | exact absurd hd Bool.false_ne_true
    | exact monoFrames_read_outside _ _ _ _ _ _ _ h0
    | exact stereoFrames_read_outside _ _ _ _ _ _ _ _ h0 (h1 rfl)
    | exact imaMonoFrames_read_outside _ _ _ _ _ _ _ _ _ h0
    | exact imaStereoFrames_read_outside _ _ _ _ _ _ _ _ _ _ _ h0 (h1 rfl)

theorem accepted_wf {s : State} (i : Instr) (h : Memory.wf s.mem = true) :
    Memory.wf (s.accepted i).mem = true := by
  cases i <;> first
    | exact monoFrames_wf _ _ _ _ _ _ h
    | exact stereoFrames_wf _ _ _ _ _ _ _ h
    | exact imaMonoFrames_wf _ _ _ _ _ _ _ _ h
    | exact imaStereoFrames_wf _ _ _ _ _ _ _ _ _ _ h

/-- The accepted state lists no address outside the output footprint that was not listed before. -/
theorem mem_accepted {s : State} {i : Instr} (hd : isDecoder i = true) {c : Host.Cell}
    (h : c ∈ (s.accepted i).mem) : s.WritesByte i c.1 ∨ c ∈ s.mem := by
  have hw : (InSpan (s.out0Base + 4 * 0) (4 * s.frames) c.1 ∨
      (isStereo i = true ∧ InSpan (s.out1Base + 4 * 0) (4 * s.frames) c.1)) → s.WritesByte i c.1 :=
    fun h => ⟨hd, h⟩
  cases i <;> first
    | exact absurd hd Bool.false_ne_true
    | exact (mem_monoFrames _ _ _ _ _ _ h).imp (fun h => hw (.inl h)) id
    | exact (mem_imaMonoFrames _ _ _ _ _ _ _ h).imp (fun h => hw (.inl h)) id
    | (rcases mem_stereoFrames _ _ _ _ _ _ _ h with h | h | h
       · exact .inl (hw (.inl h))
       · exact .inl (hw (.inr ⟨rfl, h⟩))
       · exact .inr h)
    | (rcases mem_imaStereoFrames _ _ _ _ _ _ _ _ h with h | h | h
       · exact .inl (hw (.inl h))
       · exact .inl (hw (.inr ⟨rfl, h⟩))
       · exact .inr h)

/-! ### PARSE_HEADER and INIT_TABLES -/

/-- The state PARSE_HEADER answers. -/
def State.parsed (s : State) : State :=
  match parseHeader s.cfg.aw s.mem s.inBase s.len with
  | some r => (s.withRecord r).finish .ok
  | none => s.loseRecord.finish .parseFail

theorem exec_parseHeader_cases {s t : State} (h : exec .parseHeader s = .next t) :
    (∃ r, parseHeader s.cfg.aw s.mem s.inBase s.len = some r ∧ t = (s.withRecord r).finish .ok) ∨
      (parseHeader s.cfg.aw s.mem s.inBase s.len = none ∧ t = s.loseRecord.finish .parseFail) := by
  have := (underDuties_eq_next_iff.1 h).2
  cases hp : parseHeader s.cfg.aw s.mem s.inBase s.len with
  | none => rw [hp] at this; exact .inr ⟨rfl, this⟩
  | some r => rw [hp] at this; exact .inl ⟨r, rfl, this⟩

/-- With the bytes it may read allocated, or none to read, PARSE_HEADER ends (R62, R71). -/
theorem exec_parseHeader_runs {s : State}
    (h : tooShort s.inBase s.len = true ∨ s.KeepsDuties .parseHeader) :
    exec .parseHeader s = .next s.parsed := by
  refine underDuties_eq_next_iff.2 ⟨(Footprint.refusal_eq_none_iff _ _).2 ⟨?_, ?_⟩, rfl⟩
  · intro r hr a ha
    cases hs : tooShort s.inBase s.len
    · rw [hs] at h hr
      simp only [Bool.false_eq_true, if_false, List.append_nil, List.mem_singleton] at hr
      subst hr
      exact (h.resolve_left Bool.false_ne_true).readsAllocated a ha
    · simp [hs] at hr
  · simp [Footprint.disjoint, pairwiseApart]

/-- With a byte it may read not the host's to give, PARSE_HEADER is refused by the name of the duty (R62). -/
theorem exec_parseHeader_refused {s : State} (hb : s.inBase ≠ 0) (hl : 44 ≤ s.len)
    (h : ¬ ∀ a, InSpan s.inBase s.len a → Allocated s.cfg a) :
    (exec .parseHeader s = .refused .beyondBufferSpace ∧ ∃ a, InSpan s.inBase s.len a ∧ 2 ^ s.cfg.aw ≤ a) ∨
    (exec .parseHeader s = .refused .outsideAllocation ∧ ∃ a, InSpan s.inBase s.len a ∧
      ∃ hole ∈ s.cfg.unallocated, InSpan hole.base hole.size a) := by
  have hs : tooShort s.inBase s.len = false := by
    have hl' : headerMin ≤ s.len := hl
    simp [tooShort, hb, hl']
  have hf : ∀ {f : Footprint} {t : State}, exec .parseHeader s = underDuties f s t →
      f = { reads := [⟨s.inBase, s.len⟩], writes := [] } →
      (exec .parseHeader s = .refused .beyondBufferSpace ∧ ∃ a, InSpan s.inBase s.len a ∧ 2 ^ s.cfg.aw ≤ a) ∨
      (exec .parseHeader s = .refused .outsideAllocation ∧ ∃ a, InSpan s.inBase s.len a ∧
        ∃ hole ∈ s.cfg.unallocated, InSpan hole.base hole.size a) := by
    rintro f t he rfl
    cases hr : Footprint.refusal { reads := [⟨s.inBase, s.len⟩], writes := [] } s.cfg with
    | none =>
      refine absurd (fun a ha => ?_) h
      exact ((Footprint.refusal_eq_none_iff _ _).1 hr).1 _ (List.mem_singleton.2 rfl) a ha
    | some r =>
      rw [he, underDuties_eq_refused_iff, underDuties_eq_refused_iff, hr]
      rcases Footprint.refusal_cases hr with ⟨rfl, q, hq, a, ha, hx⟩ | ⟨rfl, q, hq, a, ha, hx⟩ | ⟨-, ho⟩
      · rw [List.append_nil, List.mem_singleton] at hq
        subst hq
        exact .inl ⟨rfl, a, ha, hx⟩
      · rw [List.append_nil, List.mem_singleton] at hq
        subst hq
        exact .inr ⟨rfl, a, ha, hx⟩
      · exact absurd (by simp [Footprint.disjoint, pairwiseApart]) ho
  exact hf rfl (by simp [hs])

theorem exec_initTables (s : State) :
    exec .initTables s = .next ((s.withTables s.cfg.alawEntry s.cfg.ulawEntry).finish .ok) := rfl

/-- No operation faults (R270). -/
theorem exec_ne_fault (i : Instr) (s : State) (e : Fault) : exec i s ≠ .fault e := by
  by_cases hd : isDecoder i = true
  · by_cases hr : isLaw i = true ∧ s.tablesReady = false
    · rw [exec_law_not_ready s hr.1 hr.2]
      simp
    · have hr' : isLaw i = true → s.tablesReady = true := fun hl => by
        by_contra hc
        exact hr ⟨hl, by simpa using hc⟩
      rw [exec_decoder_eq s hd hr']
      split
      · simp [reject]
      · exact underDuties_ne_fault
  · cases i <;> first
      | exact absurd rfl hd
      | exact underDuties_ne_fault
      | exact fun h => nomatch h

/-- What an operation can be refused for (R277): a LAW decoder for want of tables, any other for a duty of the
host. -/
theorem exec_refused_cases {i : Instr} {s : State} {r : Refusal} (h : exec i s = .refused r) :
    r = .tablesNotReady ∨ r = .beyondBufferSpace ∨ r = .outsideAllocation ∨ r = .overlappingFootprints := by
  have duty : ∀ {f : Footprint} {t : State}, underDuties f s t = .refused r →
      r = .beyondBufferSpace ∨ r = .outsideAllocation ∨ r = .overlappingFootprints := fun h =>
    (Footprint.refusal_cases (underDuties_eq_refused_iff.1 h)).imp And.left (Or.imp And.left And.left)
  by_cases hd : isDecoder i = true
  · by_cases hr : isLaw i = true → s.tablesReady = true
    · rw [exec_decoder_eq s hd hr] at h
      split at h
      · cases h
      · exact .inr (duty h)
    · push Not at hr
      rw [exec_law_not_ready s hr.1 (by simpa using hr.2)] at h
      cases h
      exact .inl rfl
  · cases i <;> first
      | exact absurd rfl hd
      | exact .inr (duty h)
      | cases h

end Sys2Proof.Machine
end

