-- ==== Sys2Proof/Laws/Float.lean ====
section
/-! SUPPORT. Binary32 magnitudes as counts of the least subnormal 2^-149, and what `f32Magnitude` does in
those units (spec/00_scope.md R8): monotone bounds on both sides, and exactness. -/

namespace Sys2Proof.Machine

/-- A finite magnitude pattern in units of 2^-149; the pattern of infinity counts as 2^277. -/
def units (p : Nat) : Nat := if p < 2 ^ 23 then p else (p % 2 ^ 23 + 2 ^ 23) * 2 ^ (p / 2 ^ 23 - 1)

theorem magnitudeValue_eq (p : Nat) : magnitudeValue p = (units p : ℚ) / 2 ^ 149 := by
  unfold magnitudeValue units
  split
  · rfl
  · next h =>
    obtain ⟨e, he⟩ : ∃ e, p / 2 ^ 23 = e + 1 := ⟨p / 2 ^ 23 - 1, by omega⟩
    rw [he, Nat.add_sub_cancel]
    push_cast
    rw [pow_succ 2 e, pow_succ (2 : ℚ) 149]
    ring

/-- A significand at a quantum is the pattern that puts them together; a significand of 2^24 carries into
the exponent. -/
theorem units_compose {u q : Nat} (hq : q ≤ 2 ^ 24) (h : u = 0 ∨ 2 ^ 23 ≤ q) :
    units (u * 2 ^ 23 + q) = q * 2 ^ u := by
  unfold units
  by_cases hs : q < 2 ^ 23
  · obtain rfl := h.resolve_right (by omega)
    simp only [Nat.zero_mul, Nat.zero_add, if_pos hs, pow_zero, Nat.mul_one]
  · rw [if_neg (by omega)]
    by_cases hc : q = 2 ^ 24
    · subst hc
      have e1 : (u * 2 ^ 23 + 2 ^ 24) % 2 ^ 23 = 0 := by omega
      have e2 : (u * 2 ^ 23 + 2 ^ 24) / 2 ^ 23 - 1 = u + 1 := by omega
      rw [e1, e2, pow_succ 2 u]
      ring
    · have e1 : (u * 2 ^ 23 + q) % 2 ^ 23 + 2 ^ 23 = q := by omega
      have e2 : (u * 2 ^ 23 + q) / 2 ^ 23 - 1 = u := by omega
      rw [e1, e2]

theorem units_lt_succ (p : Nat) : units p < units (p + 1) := by
  by_cases h : p < 2 ^ 23
  · have e1 := units_compose (u := 0) (q := p) (by omega) (.inl rfl)
    have e2 := units_compose (u := 0) (q := p + 1) (by omega) (.inl rfl)
    simp only [Nat.zero_mul, Nat.zero_add, pow_zero, Nat.mul_one] at e1 e2
    omega
  · obtain ⟨u, q, hq1, hq2, rfl⟩ : ∃ u q, 2 ^ 23 ≤ q ∧ q < 2 ^ 24 ∧ p = u * 2 ^ 23 + q :=
      ⟨p / 2 ^ 23 - 1, p % 2 ^ 23 + 2 ^ 23, by omega, by omega, by omega⟩
    rw [Nat.add_assoc, units_compose (by omega) (.inr hq1), units_compose (by omega) (.inr (by omega))]
    exact Nat.mul_lt_mul_of_pos_right (by omega) (by positivity)

theorem units_strictMono : StrictMono units := strictMono_nat_of_lt_succ units_lt_succ

theorem magnitudeValue_strictMono : StrictMono magnitudeValue := by
  intro p q h
  rw [magnitudeValue_eq, magnitudeValue_eq]
  have : (units p : ℚ) < units q := by exact_mod_cast units_strictMono h
  gcongr

/-- A number of at most 24 significant bits has a pattern. -/
theorem exists_units (e : Nat) {m : Nat} (hm : m ≤ 2 ^ 24) :
    ∃ p ≤ (e + 2) * 2 ^ 23, units p = m * 2 ^ e := by
  induction e generalizing m with
  | zero =>
    have := units_compose (u := 0) hm (.inl rfl)
    rw [Nat.zero_mul, Nat.zero_add] at this
    exact ⟨m, by omega, this⟩
  | succ e ih =>
    by_cases h : 2 ^ 23 ≤ m
    · exact ⟨(e + 1) * 2 ^ 23 + m, by omega, units_compose hm (.inr h)⟩
    · obtain ⟨p, hp, hu⟩ := ih (m := 2 * m) (by omega)
      exact ⟨p, le_trans hp (Nat.mul_le_mul_right _ (by omega)), by rw [hu, pow_succ 2 e]; ring⟩

/-! ### Rounding to an integer -/

/-- The rounded integer is within a half, and even when it is exactly a half away. -/
theorem roundHalfEven_spec (num : Nat) {den : Nat} (hd : 0 < den) :
    2 * num ≤ (2 * roundHalfEven num den + 1) * den ∧
      2 * roundHalfEven num den * den ≤ 2 * num + den ∧
      ((2 * num = (2 * roundHalfEven num den + 1) * den ∨
        2 * roundHalfEven num den * den = 2 * num + den) → roundHalfEven num den % 2 = 0) := by
  obtain ⟨q, r, hr, rfl⟩ : ∃ q r, r < den ∧ num = q * den + r :=
    ⟨num / den, num % den, Nat.mod_lt _ hd, by rw [Nat.mul_comm]; exact (Nat.div_add_mod num den).symm⟩
  have e1 : (q * den + r) / den = q := by
    rw [Nat.mul_comm, Nat.mul_add_div hd, Nat.div_eq_of_lt hr, Nat.add_zero]
  have e2 : (q * den + r) % den = r := by
    rw [Nat.mul_comm, Nat.mul_add_mod, Nat.mod_eq_of_lt hr]
  have key : ∀ x, x = q ∨ x = q + 1 → (2 * x + 1) * den = 2 * (x * den) + den ∧
      2 * x * den = 2 * (x * den) := fun x _ => ⟨by ring, by ring⟩
  have hs : (q + 1) * den = q * den + den := by ring
  unfold roundHalfEven
  simp only [e1, e2]
  split
  · rw [(key q (.inl rfl)).1, (key q (.inl rfl)).2]; omega
  · split
    · rw [(key _ (.inr rfl)).1, (key _ (.inr rfl)).2, hs]; omega
    · rcases Nat.mod_two_eq_zero_or_one q with h | h
      · have := key q (.inl rfl)
        simp only [h, Nat.add_zero, this.1, this.2]
        exact ⟨by omega, by omega, fun _ => trivial⟩
      · have := key (q + 1) (.inr rfl)
        simp only [h, this.1, this.2, hs]
        omega

theorem roundHalfEven_le {num den k : Nat} (hd : 0 < den) (h : num ≤ k * den) :
    roundHalfEven num den ≤ k := by
  obtain ⟨-, h2, h3⟩ := roundHalfEven_spec num hd
  by_contra hc
  have h4 : (2 * k + 2) * den ≤ 2 * roundHalfEven num den * den := Nat.mul_le_mul_right _ (by omega)
  have h5 : (2 * k + 2) * den = 2 * (k * den) + 2 * den := by ring
  omega

theorem le_roundHalfEven {num den k : Nat} (hd : 0 < den) (h : k * den ≤ num) :
    k ≤ roundHalfEven num den := by
  obtain ⟨h1, -, -⟩ := roundHalfEven_spec num hd
  by_contra hc
  have h4 : (2 * roundHalfEven num den + 1) * den ≤ (2 * k - 1) * den := Nat.mul_le_mul_right _ (by omega)
  have h5 : (2 * k - 1) * den + den = 2 * (k * den) := by
    obtain ⟨j, rfl⟩ : ∃ j, k = j + 1 := ⟨k - 1, by omega⟩
    have : 2 * (j + 1) - 1 = 2 * j + 1 := by omega
    rw [this]; ring
  omega

/-! ### Rounding to a pattern -/

/-- The quantum exponent and the rounded significand of `f32Magnitude`: the value lies between 2^23 and
2^24 quanta, or below 2^24 units at the least quantum. -/
theorem f32Magnitude_parts (num : Nat) {den : Nat} (hd : 0 < den) :
    ∃ u q, f32Magnitude num den = min (u * 2 ^ 23 + q) 0x7F800000 ∧
      q = roundHalfEven (num * 2 ^ 149) (den * 2 ^ u) ∧ q ≤ 2 ^ 24 ∧ (u = 0 ∨ 2 ^ 23 ≤ q) ∧
      num * 2 ^ 149 < 2 ^ 24 * (den * 2 ^ u) ∧ (u = 0 ∨ 2 ^ 23 * (den * 2 ^ u) ≤ num * 2 ^ 149) := by
  generalize hs : num * 2 ^ 149 = scaled
  obtain ⟨u, hu⟩ : ∃ u, u = (scaled / den).log2 - 23 := ⟨_, rfl⟩
  have hpos : 0 < den * 2 ^ u := by positivity
  have hdiv : scaled < (scaled / den + 1) * den := by
    rw [Nat.mul_comm]; exact Nat.lt_mul_div_succ scaled hd
  have hlt : scaled / den < 2 ^ ((scaled / den).log2 + 1) := Nat.lt_log2_self
  have hup : scaled < 2 ^ 24 * (den * 2 ^ u) := by
    have h1 : scaled / den + 1 ≤ 2 ^ (24 + u) :=
      le_trans hlt (Nat.pow_le_pow_right (by decide) (by omega))
    calc scaled < (scaled / den + 1) * den := hdiv
      _ ≤ 2 ^ (24 + u) * den := Nat.mul_le_mul_right _ h1
      _ = 2 ^ 24 * (den * 2 ^ u) := by rw [pow_add]; ring
  have hlow : u = 0 ∨ 2 ^ 23 * (den * 2 ^ u) ≤ scaled := by
    rcases Nat.eq_zero_or_pos u with h0 | h0
    · exact .inl h0
    · refine .inr ?_
      have hne : scaled / den ≠ 0 := by
        intro h; rw [h] at hu; rw [hu] at h0; exact absurd h0 (by decide)
      have h1 : 2 ^ (scaled / den).log2 ≤ scaled / den := Nat.log2_self_le hne
      have h2 : (scaled / den).log2 = 23 + u := by omega
      rw [h2] at h1
      calc 2 ^ 23 * (den * 2 ^ u) = 2 ^ (23 + u) * den := by rw [pow_add]; ring
        _ ≤ scaled / den * den := Nat.mul_le_mul_right _ h1
        _ ≤ scaled := Nat.div_mul_le_self _ _
  refine ⟨u, _, ?_, rfl, roundHalfEven_le hpos (le_of_lt hup), ?_, hup, hlow⟩
  · unfold f32Magnitude
    simp only [hs, ← hu]
  · exact hlow.imp id fun h => le_roundHalfEven hpos h

/-- A value at most that of a pattern rounds to at most the pattern. -/
theorem f32Magnitude_le {num den p : Nat} (hd : 0 < den) (h : num * 2 ^ 149 ≤ units p * den) :
    f32Magnitude num den ≤ p := by
  obtain ⟨u, q, hm, hq, hq24, hn, -, hlow⟩ := f32Magnitude_parts num hd
  rw [hm]
  refine le_trans (Nat.min_le_left _ _) ?_
  by_contra hc
  rcases Nat.eq_zero_or_pos q with h0 | h0
  · rcases hn with h1 | h1 <;> omega
  by_cases hcase : u = 0 ∨ 2 ^ 23 ≤ q - 1
  · have hle : units p ≤ (q - 1) * 2 ^ u := by
      rw [← units_compose (by omega) hcase]
      exact units_strictMono.monotone (by omega)
    have h1 : num * 2 ^ 149 ≤ (q - 1) * (den * 2 ^ u) :=
      calc num * 2 ^ 149 ≤ units p * den := h
        _ ≤ (q - 1) * 2 ^ u * den := Nat.mul_le_mul_right _ hle
        _ = (q - 1) * (den * 2 ^ u) := by ring
    have h2 := roundHalfEven_le (by positivity) h1
    omega
  · have h1 : units p < 2 ^ 23 * 2 ^ u := by
      rw [← units_compose (u := u) (q := 2 ^ 23) (by decide) (.inr (le_refl _))]
      exact units_strictMono (by omega)
    have h2 := hlow.resolve_left (by omega)
    have h3 : units p * den < 2 ^ 23 * (den * 2 ^ u) :=
      calc units p * den < 2 ^ 23 * 2 ^ u * den := Nat.mul_lt_mul_of_pos_right h1 hd
        _ = 2 ^ 23 * (den * 2 ^ u) := by ring
    omega

/-- A value at least that of a pattern rounds to at least the pattern. -/
theorem le_f32Magnitude {num den p : Nat} (hd : 0 < den) (hp : p ≤ 0x7F800000)
    (h : units p * den ≤ num * 2 ^ 149) : p ≤ f32Magnitude num den := by
  obtain ⟨u, q, hm, hq, hq24, hn, hup, -⟩ := f32Magnitude_parts num hd
  rw [hm]
  refine Nat.le_min.2 ⟨?_, hp⟩
  by_contra hc
  by_cases hcase : q = 2 ^ 24
  · have h1 : 2 ^ 24 * 2 ^ u ≤ units p := by
      rw [← units_compose (u := u) (q := 2 ^ 24) (by decide) (.inr (by decide))]
      exact units_strictMono.monotone (by omega)
    have h2 : 2 ^ 24 * (den * 2 ^ u) ≤ units p * den :=
      calc 2 ^ 24 * (den * 2 ^ u) = 2 ^ 24 * 2 ^ u * den := by ring
        _ ≤ units p * den := Nat.mul_le_mul_right _ h1
    omega
  · have hle : (q + 1) * 2 ^ u ≤ units p := by
      rw [← units_compose (u := u) (q := q + 1) (by omega) (hn.imp id fun h => by omega)]
      exact units_strictMono.monotone (by omega)
    have h1 : (q + 1) * (den * 2 ^ u) ≤ num * 2 ^ 149 :=
      calc (q + 1) * (den * 2 ^ u) = (q + 1) * 2 ^ u * den := by ring
        _ ≤ units p * den := Nat.mul_le_mul_right _ hle
        _ ≤ num * 2 ^ 149 := h
    have h2 := le_roundHalfEven (by positivity) h1
    omega

/-- A value that a pattern stands for is given that pattern. -/
theorem f32Magnitude_exact {num den p : Nat} (hd : 0 < den) (hp : p ≤ 0x7F800000)
    (h : num * 2 ^ 149 = units p * den) : f32Magnitude num den = p :=
  le_antisymm (f32Magnitude_le hd h.le) (le_f32Magnitude hd hp h.ge)

theorem f32Magnitude_le_inf (num den : Nat) : f32Magnitude num den ≤ 0x7F800000 := Nat.min_le_right _ _

/-- Rounding keeps order. -/
theorem f32Magnitude_mono {n d n' d' : Nat} (hd : 0 < d) (hd' : 0 < d') (h : n * d' ≤ n' * d) :
    f32Magnitude n d ≤ f32Magnitude n' d' := by
  by_contra hc
  have hlt : f32Magnitude n' d' < 0x7F800000 := by
    have := f32Magnitude_le_inf n d
    omega
  obtain ⟨u, q, hm, hq, hq24, hn, hup, hlow⟩ := f32Magnitude_parts n hd
  obtain ⟨u', q', hm', hq', hq24', hn', hup', hlow'⟩ := f32Magnitude_parts n' hd'
  have hpos : 0 < d * 2 ^ u := by positivity
  have hpos' : 0 < d' * 2 ^ u' := by positivity
  have h' : n * 2 ^ 149 * d' ≤ n' * 2 ^ 149 * d := by
    calc n * 2 ^ 149 * d' = n * d' * 2 ^ 149 := by ring
      _ ≤ n' * d * 2 ^ 149 := Nat.mul_le_mul_right _ h
      _ = n' * 2 ^ 149 * d := by ring
  -- the quantum of the greater value is no less
  have huu : u ≤ u' := by
    by_contra hu
    have h1 := hlow.resolve_left (by omega)
    have h2 : 2 ^ (u' + 1) ≤ 2 ^ u := Nat.pow_le_pow_right (by decide) (by omega)
    have h3 : 2 ^ 24 * (d' * 2 ^ u') * d ≤ n * 2 ^ 149 * d' :=
      calc 2 ^ 24 * (d' * 2 ^ u') * d = 2 ^ 23 * (d * 2 ^ (u' + 1)) * d' := by rw [pow_succ 2 u']; ring
        _ ≤ 2 ^ 23 * (d * 2 ^ u) * d' := Nat.mul_le_mul_right _ (Nat.mul_le_mul_left _ (Nat.mul_le_mul_left _ h2))
        _ ≤ n * 2 ^ 149 * d' := Nat.mul_le_mul_right _ h1
    have h4 : n' * 2 ^ 149 * d < 2 ^ 24 * (d' * 2 ^ u') * d := Nat.mul_lt_mul_of_pos_right hup' hd
    omega
  have hlt2 : u' * 2 ^ 23 + q' < u * 2 ^ 23 + q := by
    rw [hm, hm'] at hc
    by_contra h
    exact hc (min_le_min_right _ (not_lt.1 h))
  rcases Nat.eq_or_lt_of_le huu with rfl | huu
  · obtain ⟨-, a2, a3⟩ := roundHalfEven_spec (n * 2 ^ 149) hpos
    obtain ⟨b1, -, b3⟩ := roundHalfEven_spec (n' * 2 ^ 149) hpos'
    rw [← hq] at a2 a3
    rw [← hq'] at b1 b3
    have hqq : q' + 1 ≤ q := by omega
    -- scaled by the other denominator
    have c1 : 2 * q * (d * 2 ^ u) * d' ≤ 2 * (n * 2 ^ 149 * d') + d * 2 ^ u * d' :=
      calc 2 * q * (d * 2 ^ u) * d' ≤ (2 * (n * 2 ^ 149) + d * 2 ^ u) * d' := Nat.mul_le_mul_right _ a2
        _ = _ := by ring
    have c2 : 2 * (n' * 2 ^ 149 * d) ≤ (2 * q' + 1) * (d' * 2 ^ u) * d :=
      calc 2 * (n' * 2 ^ 149 * d) = 2 * (n' * 2 ^ 149) * d := by ring
        _ ≤ _ := Nat.mul_le_mul_right _ b1
    have c3 : (2 * (q' + 1)) * (d * 2 ^ u) * d' ≤ 2 * q * (d * 2 ^ u) * d' :=
      Nat.mul_le_mul_right _ (Nat.mul_le_mul_right _ (by omega))
    have c4 : (2 * (q' + 1)) * (d * 2 ^ u) * d' = (2 * q' + 1) * (d' * 2 ^ u) * d + d * 2 ^ u * d' := by ring
    -- all of them are equalities, so both significands are even and differ by one
    have e1 : 2 * q * (d * 2 ^ u) * d' = (2 * (n * 2 ^ 149) + d * 2 ^ u) * d' := by
      have : (2 * (n * 2 ^ 149) + d * 2 ^ u) * d' = 2 * (n * 2 ^ 149 * d') + d * 2 ^ u * d' := by ring
      omega
    have e2 : 2 * (n' * 2 ^ 149) * d = (2 * q' + 1) * (d' * 2 ^ u) * d := by
      have : 2 * (n' * 2 ^ 149) * d = 2 * (n' * 2 ^ 149 * d) := by ring
      omega
    have e3 : 2 * (q' + 1) * (d * 2 ^ u) * d' = 2 * q * (d * 2 ^ u) * d' := by omega
    have f1 := a3 (.inr (Nat.eq_of_mul_eq_mul_right hd' e1))
    have f2 := b3 (.inl (Nat.eq_of_mul_eq_mul_right hd e2))
    have f3 := Nat.eq_of_mul_eq_mul_right hpos (Nat.eq_of_mul_eq_mul_right hd' e3)
    omega
  · have : 2 ^ 23 ≤ q' := hn'.resolve_left (by omega)
    omega

/-! ### Whole patterns -/

theorem signed_toNat (neg : Bool) (p : Nat) : (signed neg p).toNat = neg.toNat * 2 ^ 31 + p % 2 ^ 31 := by
  rw [signed, BitVec.toNat_append, BitVec.toNat_ofNat, BitVec.toNat_ofBool,
    ← Nat.shiftLeft_add_eq_or_of_lt (Nat.mod_lt _ (by decide)), Nat.shiftLeft_eq]

@[simp] theorem signed_msb (neg : Bool) (p : Nat) : (signed neg p).msb = neg := by
  have := Nat.mod_lt p (show 0 < 2 ^ 31 by decide)
  rw [BitVec.msb_eq_decide, signed_toNat]
  cases neg <;> (simp; try omega)

theorem signed_magnitude (neg : Bool) {p : Nat} (h : p < 2 ^ 31) :
    (signed neg p).toNat % 2 ^ 31 = p := by
  rw [signed_toNat, Nat.mod_eq_of_lt h]
  omega

theorem f32Value_signed (neg : Bool) {p : Nat} (h : p < 2 ^ 31) :
    f32Value (signed neg p) = (if neg = true then -1 else 1) * magnitudeValue p := by
  rw [f32Value, signed_msb, signed_magnitude neg h]

/-- A rational that a finite pattern stands for is converted without rounding. -/
theorem f32Value_f32_exact {num : Int} {den p : Nat} (hd : 0 < den) (hp : p < 0x7F800000)
    (h : num.natAbs * 2 ^ 149 = units p * den) : f32Value (f32 num den) = (num : ℚ) / den := by
  have hd' : (den : ℚ) ≠ 0 := by exact_mod_cast hd.ne'
  have hq : (num.natAbs : ℚ) * 2 ^ 149 = units p * den := by exact_mod_cast h
  have hv : magnitudeValue p = (num.natAbs : ℚ) / den := by
    rw [magnitudeValue_eq, div_eq_div_iff (by positivity) hd', ← hq]
  rw [f32, f32Magnitude_exact hd (by omega) h, f32Value_signed _ (by omega), hv]
  rcases lt_or_ge num 0 with hn | hn
  · have : (num.natAbs : ℚ) = -num := by
      rw [Nat.cast_natAbs, abs_of_neg hn]; push_cast; rfl
    simp only [hn, decide_true, if_true, this]
    ring
  · have : (num.natAbs : ℚ) = num := by rw [Nat.cast_natAbs, abs_of_nonneg hn]
    simp [not_lt.2 hn, this]

/-- An integer of at most 24 bits over a power of two is converted without rounding. -/
theorem f32Value_f32_dyadic {num : Int} {k : Nat} (hk : k ≤ 149) (hn : num.natAbs ≤ 2 ^ 24) :
    f32Value (f32 num (2 ^ k)) = (num : ℚ) / 2 ^ k := by
  obtain ⟨p, hp, hu⟩ := exists_units (149 - k) hn
  have hp' : p < 0x7F800000 := by
    have : (149 - k + 2) * 2 ^ 23 ≤ 151 * 2 ^ 23 := Nat.mul_le_mul_right _ (by omega)
    omega
  have := f32Value_f32_exact (num := num) (den := 2 ^ k) (p := p) (by positivity) hp' (by
    rw [hu, Nat.mul_assoc, ← pow_add, Nat.sub_add_cancel hk])
  rw [this]
  push_cast
  rfl

end Sys2Proof.Machine
end

