-- ==== Sys2Proof/Laws/Hdr.lean ====
section
/-! SUPPORT. The chunk walk of PARSE_HEADER (spec/40_header_parser.md R121 to R133): one chunk, one turn of
the walk, and what the walk has found. -/

namespace Sys2Proof.Machine

/-- The fields the walk records fit their registers and pass the checks (R128 to R130). -/
def FmtFields.Good (f : FmtFields) : Prop :=
  f.accepted = true ∧ f.fmt < 2 ^ 16 ∧ f.ch < 2 ^ 16 ∧ f.rate < 2 ^ 32 ∧ f.brate < 2 ^ 32 ∧
    f.balign < 2 ^ 16 ∧ f.bits < 2 ^ 16

/-- A recorded payload lies in the buffer and under the ceiling (R131). -/
def DataFields.Good (aw len : Nat) (d : DataFields) : Prop :=
  20 ≤ d.doff ∧ d.dlen ≤ chunkMax ∧ d.doff + d.dlen ≤ len ∧ d.doff + d.dlen < 2 ^ aw

/-- What the walk has found is good. -/
def Found.Good (aw len : Nat) (found : Found) : Prop :=
  (∀ f, found.fmt = some f → f.Good) ∧ (∀ d, found.data = some d → d.Good aw len)

theorem FmtFields.accepted_iff (f : FmtFields) : f.accepted = true ↔
    (1 ≤ f.ch ∧ f.ch ≤ 8) ∧ (1 ≤ f.rate ∧ f.rate ≤ 384000) ∧ f.balign ≠ 0 ∧
    (1 ≤ f.bits ∧ f.bits ≤ 64) ∧
    (f.fmt = 1 → f.balign = (f.ch * f.bits + 7) / 8 ∧ f.brate = f.rate * f.balign) := by
  simp only [FmtFields.accepted, Bool.and_eq_true, Bool.not_eq_true', Bool.or_eq_false_iff,
    beq_eq_false_iff_ne, decide_eq_false_iff_not, Bool.or_eq_true, bne_iff_ne, beq_iff_eq, ne_eq]
  constructor
  · rintro ⟨⟨⟨⟨h1, h2⟩, h3⟩, h4⟩, h5⟩
    exact ⟨by omega, by omega, h3, by omega, fun h => h5.resolve_left (absurd h ·)⟩
  · rintro ⟨h1, h2, h3, h4, h5⟩
    refine ⟨⟨⟨⟨by omega, by omega⟩, h3⟩, by omega⟩, ?_⟩
    by_cases h : f.fmt = 1
    · exact .inr (h5 h)
    · exact .inl h

/-- One chunk keeps what has been found good. -/
theorem chunk_good {aw : Nat} {m : Memory} {buf len off : Nat} {found found' : Found} (ho : 12 ≤ off)
    (hg : found.Good aw len) (h : chunk aw m buf len off found = some found') : found'.Good aw len := by
  unfold chunk at h
  simp only at h
  split at h
  · split at h
    · cases h
    · cases h; exact hg
  · next hb =>
    simp only [not_or, not_lt, not_le] at hb
    split at h
    · split at h
      · cases h
      · split at h
        · next hacc =>
          cases h
          refine ⟨fun f hf => ?_, hg.2⟩
          cases hf
          exact ⟨hacc, Memory.readLE_lt _ _ 2, Memory.readLE_lt _ _ 2, Memory.readLE_lt _ _ 4,
            Memory.readLE_lt _ _ 4, Memory.readLE_lt _ _ 2, Memory.readLE_lt _ _ 2⟩
        · cases h
    · split at h
      · cases h
        refine ⟨hg.1, fun d hd => ?_⟩
        cases hd
        refine ⟨?_, hb.1, hb.2.2, hb.2.1⟩
        show 20 ≤ off + 8
        omega
      · cases h; exact hg

/-- A record comes from something good that the walk found. -/
theorem walk_good {aw : Nat} {m : Memory} {buf len fuel off : Nat} {found : Found} {r : WaveFormat}
    (ho : 12 ≤ off) (hg : found.Good aw len) (h : walk aw m buf len fuel off found = some r) :
    ∃ found', Found.Good aw len found' ∧ found'.record = some r := by
  induction fuel generalizing off found with
  | zero => exact ⟨found, hg, h⟩
  | succ fuel ih =>
    unfold walk at h
    simp only at h
    split at h
    · cases h
    · split at h
      · exact ⟨found, hg, h⟩
      · cases hc : chunk aw m buf len off found with
        | none => rw [hc] at h; cases h
        | some found' =>
          rw [hc] at h
          simp only at h
          have hg' := chunk_good ho hg hc
          split at h
          · exact ⟨found', hg', h⟩
          · split at h
            · cases h
            · exact ih (by unfold nextChunk; omega) hg' h

/-- What a parse that ends OK was given and found. -/
theorem parseHeader_good {aw : Nat} {m : Memory} {buf len : Nat} {r : WaveFormat}
    (h : parseHeader aw m buf len = some r) :
    tooShort buf len = false ∧ ∃ found, Found.Good aw len found ∧ found.record = some r := by
  unfold parseHeader at h
  simp only at h
  split at h
  · cases h
  · next hs =>
    split at h
    · cases h
    · split at h
      · cases h
      · exact ⟨by simpa using hs, walk_good (le_refl _) ⟨by simp, by simp⟩ h⟩

/-- The registers of a record made of good fields hold those fields. -/
theorem record_valid {aw len : Nat} {found : Found} {r : WaveFormat} (hg : found.Good aw len)
    (h : found.record = some r) :
    WaveFormat.Valid aw r ∧ r.dataOffset + r.dataLen.toNat ≤ len := by
  unfold Found.record at h
  split at h
  · next f d hf hd =>
    cases h
    obtain ⟨hacc, h1, h2, h3, h4, h5, h6⟩ := hg.1 f hf
    obtain ⟨k1, k2, k3, k4⟩ := hg.2 d hd
    obtain ⟨a1, a2, a3, a4, a5⟩ := (FmtFields.accepted_iff f).1 hacc
    have e : d.dlen % 2 ^ 32 = d.dlen := Nat.mod_eq_of_lt (by unfold chunkMax at k2; omega)
    refine ⟨⟨?_, ?_, ?_, ?_, ?_, ?_, k1, ?_, ?_⟩, ?_⟩ <;>
      simp only [BitVec.toNat_ofNat, Nat.mod_eq_of_lt h1, Nat.mod_eq_of_lt h2, Nat.mod_eq_of_lt h3,
        Nat.mod_eq_of_lt h4, Nat.mod_eq_of_lt h5, Nat.mod_eq_of_lt h6, e]
    · exact a1
    · exact a2
    · omega
    · exact a4
    · exact fun h => (a5 h).1
    · exact fun h => (a5 h).2
    · exact k2
    · exact k4
    · exact k3
  · cases h

/-! ### One turn of the walk -/

/-- A turn at a chunk header inside the buffer. -/
theorem walk_succ {aw : Nat} {m : Memory} {buf len fuel off : Nat} {found : Found}
    (h1 : off + 8 < 2 ^ aw) (h2 : off + 8 ≤ len) :
    walk aw m buf len (fuel + 1) off found =
      match chunk aw m buf len off found with
      | none => none
      | some found' =>
        if found'.fmt.isSome && found'.data.isSome then found'.record
        else if 2 ^ aw ≤ nextChunk off (m.readLE (buf + off + 4) 4) then none
        else walk aw m buf len fuel (nextChunk off (m.readLE (buf + off + 4) 4)) found' := by
  have e1 : ¬ 2 ^ aw ≤ off + 8 := not_le.2 h1
  have e2 : ¬ len < off + 8 := not_lt.2 h2
  simp only [walk, e1, e2, if_false]
  try rfl

/-- A turn past the end of the buffer ends the walk as exhausted (R125). -/
theorem walk_exhausted {aw : Nat} {m : Memory} {buf len fuel off : Nat} {found : Found}
    (h : len < off + 8) (hn : found.record = none) : walk aw m buf len fuel off found = none := by
  cases fuel with
  | zero => exact hn
  | succ fuel =>
    rw [walk]
    split
    · rfl
    · simp [hn]

/-- The bytes a chunk's outcome depends on lie in the buffer (R137). -/
theorem chunk_congr {aw : Nat} {m m' : Memory} {buf len off : Nat} (found : Found)
    (h : ∀ a, InSpan buf len a → m.read a = m'.read a) (ho : off + 8 ≤ len) :
    chunk aw m buf len off found = chunk aw m' buf len off found := by
  have ht : m.tag (buf + off) = m'.tag (buf + off) := by
    simp only [Memory.tag]
    rw [h _ ⟨by omega, by omega⟩, h _ ⟨by omega, by omega⟩, h _ ⟨by omega, by omega⟩,
      h _ ⟨by omega, by omega⟩]
  have hs : m.readLE (buf + off + 4) 4 = m'.readLE (buf + off + 4) 4 :=
    Memory.readLE_congr fun x hx => h x ⟨by have := hx.1; omega, by have := hx.2; omega⟩
  unfold chunk
  simp only [ht, hs]
  by_cases hb : chunkMax < m'.readLE (buf + off + 4) 4 ∨ 2 ^ aw ≤ off + 8 + m'.readLE (buf + off + 4) 4 ∨
      len < off + 8 + m'.readLE (buf + off + 4) 4
  · simp only [if_pos hb]
  · simp only [if_neg hb]
    by_cases hsz : m'.readLE (buf + off + 4) 4 < 16
    · simp only [if_pos hsz]
    · have hf : m.fmtFields (buf + off + 8) = m'.fmtFields (buf + off + 8) := by
        simp only [not_or, not_lt, not_le] at hb hsz
        simp only [Memory.fmtFields]
        congr 1 <;> exact Memory.readLE_congr fun x hx =>
          h x ⟨by have := hx.1; omega, by have := hx.2; omega⟩
      simp only [hf]

end Sys2Proof.Machine
end

