-- ==== Sys2Proof/Laws/PerInstr.lean ====
section
/-! SUPPORT. What is true of every instruction as syntax, one lemma a constructor: its command word is well
formed and is its opcode, with bits 31:8 zero (spec/30_encoding.md R90, R93). -/

namespace Sys2Proof.Laws.Encoding

/-- The encoding of an instruction. -/
def Statement (i : Instr) : Prop :=
  (splitCmd (encode i)).wellFormed = true ∧ (encode i).toNat = i.opcode ∧ i.opcode < 256

theorem initTables : Statement .initTables := ⟨rfl, rfl, by decide⟩
theorem parseHeader : Statement .parseHeader := ⟨rfl, rfl, by decide⟩
theorem u8M : Statement .u8M := ⟨rfl, rfl, by decide⟩
theorem u8S : Statement .u8S := ⟨rfl, rfl, by decide⟩
theorem s16M : Statement .s16M := ⟨rfl, rfl, by decide⟩
theorem s16S : Statement .s16S := ⟨rfl, rfl, by decide⟩
theorem s24M : Statement .s24M := ⟨rfl, rfl, by decide⟩
theorem s24S : Statement .s24S := ⟨rfl, rfl, by decide⟩
theorem s32M : Statement .s32M := ⟨rfl, rfl, by decide⟩
theorem s32S : Statement .s32S := ⟨rfl, rfl, by decide⟩
theorem f32M : Statement .f32M := ⟨rfl, rfl, by decide⟩
theorem f32S : Statement .f32S := ⟨rfl, rfl, by decide⟩
theorem f64M : Statement .f64M := ⟨rfl, rfl, by decide⟩
theorem f64S : Statement .f64S := ⟨rfl, rfl, by decide⟩
theorem alawM : Statement .alawM := ⟨rfl, rfl, by decide⟩
theorem alawS : Statement .alawS := ⟨rfl, rfl, by decide⟩
theorem ulawM : Statement .ulawM := ⟨rfl, rfl, by decide⟩
theorem ulawS : Statement .ulawS := ⟨rfl, rfl, by decide⟩
theorem imaM : Statement .imaM := ⟨rfl, rfl, by decide⟩
theorem imaS : Statement .imaS := ⟨rfl, rfl, by decide⟩

end Sys2Proof.Laws.Encoding
end

