-- ==== Sys2Proof/Laws/Step.lean ====
section
/-! SUPPORT. What a step can do, said once: one lemma per kind of host action, and the inversion of a step
that answers a next state. -/

namespace Sys2Proof.Machine

variable {s t : State} {rest : List HostAction}

theorem step_idle (h : s.host = []) : step s = .next s := by
  simp only [step, serveNext, h]

theorem step_action {a : HostAction} (h : s.host = a :: rest) : step s = serve a (s.withHost rest) := by
  simp only [step, serveNext, h]

/-- A legal command (R26, R93). -/
theorem step_command {v : Nat} {i : Instr} (h : s.host = .wr 0 v :: rest)
    (hd : decode (BitVec.ofNat 32 v) = .ok i) :
    step s = exec i ((s.withHost rest).withCmd (BitVec.ofNat 32 v)) := by
  rw [step_action h]
  simp only [serve, issue, if_true, hd]

/-- An illegal command (R96). -/
theorem step_illegal {v : Nat} {r : IllegalCmd} (h : s.host = .wr 0 v :: rest)
    (hd : decode (BitVec.ofNat 32 v) = .error r) :
    step s = .next (((s.withHost rest).withCmd (BitVec.ofNat 32 v)).finish .illegalCmd) := by
  rw [step_action h]
  simp only [serve, issue, if_true, hd]

/-- The reset event during a legal command the machine does not refuse (R300). -/
theorem step_resetDuring {v : Nat} {i : Instr} {u : State} (h : s.host = .resetDuring v :: rest)
    (hd : decode (BitVec.ofNat 32 v) = .ok i)
    (he : exec i ((s.withHost rest).withCmd (BitVec.ofNat 32 v)) = .next u) :
    step s = .next ((s.withHost rest).cutShort i u.result) := by
  rw [step_action h]
  simp only [serve, issueThenReset, hd, he]

/-- The reset event during a command the machine refuses: refused likewise (R303). -/
theorem step_resetDuring_refused {v : Nat} {i : Instr} {r : Refusal} (h : s.host = .resetDuring v :: rest)
    (hd : decode (BitVec.ofNat 32 v) = .ok i)
    (he : exec i ((s.withHost rest).withCmd (BitVec.ofNat 32 v)) = .refused r) :
    step s = .refused r := by
  rw [step_action h]
  simp only [serve, issueThenReset, hd, he]

/-- With an illegal word no operation starts (R96), and the reset event is one between commands. -/
theorem step_resetDuring_illegal {v : Nat} {r : IllegalCmd} (h : s.host = .resetDuring v :: rest)
    (hd : decode (BitVec.ofNat 32 v) = .error r) : step s = .next (s.withHost rest).applyReset := by
  rw [step_action h]
  simp only [serve, issueThenReset, hd]

/-- What a reset during an operation leaves but for the buffer space and the count of draws: what a reset
between commands leaves, the free values drawn further on (R38, R300). -/
theorem cutShort_frame (s : State) (i : Instr) (c : ResultCode) :
    ∃ k, s.cutShort i c =
      { { s with draws := k }.applyReset with mem := (s.cutShort i c).mem } := by
  unfold State.cutShort
  split
  · exact ⟨(s.loseSpans (s.outputFootprint i)).draws, rfl⟩
  · exact ⟨s.draws, rfl⟩

/-- Outside the output footprint of an operation that was to end OK, every byte survives (R300). -/
theorem cutShort_read_outside {s : State} {i : Instr} {c : ResultCode} {a : Nat}
    (h : ¬ (c = .ok ∧ s.WritesByte i a)) : (s.cutShort i c).mem.read a = s.mem.read a := by
  unfold State.cutShort
  split
  · next hc =>
    simp only [State.applyReset_mem, State.loseSpans_mem]
    exact Memory.read_loseSpans_outside _ _ _ fun r hr hx =>
      h ⟨hc, (mem_outputFootprint_iff s i a).1 ⟨r, hr, hx⟩⟩
  · rfl

theorem cutShort_wf {s : State} (i : Instr) (c : ResultCode) (h : Memory.wf s.mem = true) :
    Memory.wf (s.cutShort i c).mem = true := by
  unfold State.cutShort
  split
  · exact Memory.wf_loseSpans h _ _
  · exact h

/-- A reset during an operation lists no address outside the output footprint that was not listed. -/
theorem mem_cutShort {s : State} {i : Instr} {c : ResultCode} {x : Host.Cell}
    (h : x ∈ (s.cutShort i c).mem) : (c = .ok ∧ s.WritesByte i x.1) ∨ x ∈ s.mem := by
  unfold State.cutShort at h
  split at h
  · next hc =>
    exact (Memory.mem_loseSpans h).imp (fun hx => ⟨hc, (mem_outputFootprint_iff s i x.1).1 hx⟩) id
  · exact .inr h

theorem step_write {reg v : Nat} (h : s.host = .wr reg v :: rest) (hr : reg ≠ 0) :
    step s = .next ((s.withHost rest).writeRegister reg v) := by
  rw [step_action h]
  simp only [serve, if_neg hr]

theorem step_read {reg : Nat} (h : s.host = .rd reg :: rest) :
    step s = .next ((s.withHost rest).readRegister reg) := by
  rw [step_action h]
  rfl

theorem withinSpace_eq_next_iff {a n : Nat} {u : State} :
    withinSpace s a n t = .next u ↔ Region.below ⟨a, n⟩ s.cfg.aw = true ∧ u = t := by
  unfold withinSpace
  cases Region.below ⟨a, n⟩ s.cfg.aw <;> simp [eq_comm]

theorem withinSpace_ne_refused {a n : Nat} {r : Refusal} : withinSpace s a n t ≠ .refused r := by
  unfold withinSpace
  cases Region.below ⟨a, n⟩ s.cfg.aw <;> simp

/-- A whole-register write changes operand registers alone (R22). -/
theorem writeRegister_frame (s : State) (reg v : Nat) :
    s.writeRegister reg v = { s with
      inBase := (s.writeRegister reg v).inBase, out0Base := (s.writeRegister reg v).out0Base
      out1Base := (s.writeRegister reg v).out1Base, count := (s.writeRegister reg v).count
      spb := (s.writeRegister reg v).spb, blksz := (s.writeRegister reg v).blksz
      len := (s.writeRegister reg v).len } := by
  unfold State.writeRegister
  split <;> rfl

/-- Every next state of a step. -/
theorem step_cases (h : step s = .next t) :
    (s.host = [] ∧ t = s) ∨
    ∃ rest, (∃ v i, s.host = .wr 0 v :: rest ∧ decode (BitVec.ofNat 32 v) = .ok i ∧
        exec i ((s.withHost rest).withCmd (BitVec.ofNat 32 v)) = .next t) ∨
      (∃ v r, s.host = .wr 0 v :: rest ∧ decode (BitVec.ofNat 32 v) = .error r ∧
        t = ((s.withHost rest).withCmd (BitVec.ofNat 32 v)).finish .illegalCmd) ∨
      (∃ reg v, reg ≠ 0 ∧ s.host = .wr reg v :: rest ∧ t = (s.withHost rest).writeRegister reg v) ∨
      (∃ reg, s.host = .rd reg :: rest ∧ t = (s.withHost rest).readRegister reg) ∨
      (∃ a bytes, s.host = .st8 a bytes :: rest ∧ Region.below ⟨a, bytes.length⟩ s.cfg.aw = true ∧
        t = (s.withHost rest).withMem (s.mem.writeBytes a bytes)) ∨
      (∃ a n, (s.host = .ld8 a :: rest ∧ n = 1 ∨ s.host = .ld32 a :: rest ∧ n = 4) ∧
        t = { s.withHost rest with seen := s.mem.readLE a n :: s.seen }) ∨
      (s.host = .reset :: rest ∧ t = (s.withHost rest).applyReset) ∨
      (∃ v r, s.host = .resetDuring v :: rest ∧ decode (BitVec.ofNat 32 v) = .error r ∧
        t = (s.withHost rest).applyReset) ∨
      (∃ v i u, s.host = .resetDuring v :: rest ∧ decode (BitVec.ofNat 32 v) = .ok i ∧
        exec i ((s.withHost rest).withCmd (BitVec.ofNat 32 v)) = .next u ∧
        t = (s.withHost rest).cutShort i u.result) := by
  cases hh : s.host with
  | nil => rw [step_idle hh] at h; cases h; exact .inl ⟨rfl, rfl⟩
  | cons a rest =>
    refine .inr ⟨rest, ?_⟩
    cases a with
    | wr reg v =>
      by_cases hr : reg = 0
      · subst hr
        cases hd : decode (BitVec.ofNat 32 v) with
        | ok i => rw [step_command hh hd] at h; exact .inl ⟨v, i, rfl, hd, h⟩
        | error r => rw [step_illegal hh hd] at h; cases h; exact .inr (.inl ⟨v, r, rfl, hd, rfl⟩)
      · rw [step_write hh hr] at h; cases h
        exact .inr (.inr (.inl ⟨reg, v, hr, rfl, rfl⟩))
    | wrPart reg v => rw [step_action hh] at h; cases h
    | rd reg => rw [step_read hh] at h; cases h; exact .inr (.inr (.inr (.inl ⟨reg, rfl, rfl⟩)))
    | st8 a bytes =>
      rw [step_action hh] at h
      obtain ⟨hb, rfl⟩ := withinSpace_eq_next_iff.1 h
      exact .inr (.inr (.inr (.inr (.inl ⟨a, bytes, rfl, hb, rfl⟩))))
    | ld8 a =>
      rw [step_action hh] at h
      obtain ⟨hb, rfl⟩ := withinSpace_eq_next_iff.1 h
      exact .inr (.inr (.inr (.inr (.inr (.inl ⟨a, 1, .inl ⟨rfl, rfl⟩, rfl⟩)))))
    | ld32 a =>
      rw [step_action hh] at h
      obtain ⟨hb, rfl⟩ := withinSpace_eq_next_iff.1 h
      exact .inr (.inr (.inr (.inr (.inr (.inl ⟨a, 4, .inr ⟨rfl, rfl⟩, rfl⟩)))))
    | reset =>
      rw [step_action hh] at h; cases h
      exact .inr (.inr (.inr (.inr (.inr (.inr (.inl ⟨rfl, rfl⟩))))))
    | resetDuring v =>
      refine .inr (.inr (.inr (.inr (.inr (.inr (.inr ?_))))))
      cases hd : decode (BitVec.ofNat 32 v) with
      | error r => rw [step_resetDuring_illegal hh hd] at h; cases h; exact .inl ⟨v, r, rfl, hd, rfl⟩
      | ok i =>
        cases he : exec i ((s.withHost rest).withCmd (BitVec.ofNat 32 v)) with
        | next u => rw [step_resetDuring hh hd he] at h; cases h; exact .inr ⟨v, i, u, rfl, hd, he, rfl⟩
        | fault f => exact absurd he (exec_ne_fault i _ f)
        | refused r => rw [step_resetDuring_refused hh hd he] at h; cases h

end Sys2Proof.Machine
end

