-- ==== Sys2Proof/Tests/Slice0.lean ====
section
/-! SUPPORT. The model's own tests: words written out from the spec's encoding, ill-formed terms, the vectors
of spec/95_test_vectors.md on one step each, and for every obligation with hypotheses a state that meets
them. Expected values are the spec's (the vector or rule is named). -/

namespace Sys2Proof.Tests

open Sys2Proof Sys2Proof.Machine

-- one theorem at a time: checked all at once, the kernel evaluations below use too many threads
set_option Elab.async false

/-! ### Helpers -/

/-- A buffer space holding bytes from an address on. -/
def bytesAt (a : Nat) (bytes : List Nat) : Memory := Memory.writeBytes [] a (bytes.map (BitVec.ofNat 8))

/-- Reset, with input at 0x100, outputs at 0x200 and 0x300, `n` frames, blocks of 4 frames 8 bytes apart. -/
def stateOn (bytes : List Nat) (n : Nat) : State :=
  { State.reset with
    inBase := 0x100, out0Base := 0x200, out1Base := 0x300, count := BitVec.ofNat 32 n, spb := 4, blksz := 8
    mem := bytesAt 0x100 bytes }

/-- The same after INIT_TABLES. -/
def readyOn (bytes : List Nat) (n : Nat) : State :=
  (stateOn bytes n).withTables defaultConfig.alawEntry defaultConfig.ulawEntry

/-- The first `n` output words at a base after an operation. -/
def words (i : Instr) (s : State) (base n : Nat) : Option (List F32) :=
  match exec i s with
  | .next t => some ((List.range n).map fun k => wordAt t.mem (base + 4 * k))
  | _ => none

/-- `STATUS` after an operation. -/
def statusAfter (i : Instr) (s : State) : Option Word :=
  match exec i s with
  | .next t => some t.statusWord
  | _ => none

/-- The refusal of an operation. -/
def refusalOf (i : Instr) (s : State) : Option Refusal :=
  match exec i s with
  | .refused r => some r
  | _ => none

/-! ### Well-formedness: one ill-formed term for each check -/

/-- The fields of the legal word 0x22. -/
def goodFields : CmdFields := { zero := 0, unit := 1, z4 := 0, fmt := 1, st := 0 }

theorem test_wellFormed_good : goodFields.wellFormed = true := by decide

theorem test_wellFormed_refuses :
    CmdFields.wellFormed { goodFields with zero := 1 } = false ∧
    CmdFields.wellFormed { goodFields with unit := 4 } = false ∧
    CmdFields.wellFormed { goodFields with z4 := 1 } = false ∧
    CmdFields.wellFormed { goodFields with fmt := 6 } = false ∧
    CmdFields.wellFormed { goodFields with unit := 2, fmt := 2 } = false ∧
    CmdFields.wellFormed { goodFields with unit := 3, fmt := 1 } = false ∧
    CmdFields.wellFormed { zero := 0, unit := 0, z4 := 0, fmt := 0, st := 0 } = false ∧
    CmdFields.wellFormed { zero := 0, unit := 0, z4 := 1, fmt := 0, st := 1 } = false := by decide

theorem test_config_good : defaultConfig.wellFormed = true := by decide +kernel

theorem test_config_refuses :
    Config.wellFormed { defaultConfig with maxIndex := 15 } = false ∧
    Config.wellFormed { defaultConfig with alawEntry := defaultConfig.alawEntry.set 7 0x3F800001#32 } = false ∧
    Config.wellFormed { defaultConfig with ulawEntry := defaultConfig.ulawEntry.set 7 0x7FC00000#32 } = false := by
  decide +kernel

/-! ### Decoding: every constructor by its word of R93, written out -/

theorem test_decode_every_row :
    decode 0b000_00001#32 = .ok .initTables ∧ decode 0b000_00010#32 = .ok .parseHeader ∧
    decode 0b001_0_000_0#32 = .ok .u8M ∧ decode 0b001_0_000_1#32 = .ok .u8S ∧
    decode 0b001_0_001_0#32 = .ok .s16M ∧ decode 0b001_0_001_1#32 = .ok .s16S ∧
    decode 0b001_0_010_0#32 = .ok .s24M ∧ decode 0b001_0_010_1#32 = .ok .s24S ∧
    decode 0b001_0_011_0#32 = .ok .s32M ∧ decode 0b001_0_011_1#32 = .ok .s32S ∧
    decode 0b001_0_100_0#32 = .ok .f32M ∧ decode 0b001_0_100_1#32 = .ok .f32S ∧
    decode 0b001_0_101_0#32 = .ok .f64M ∧ decode 0b001_0_101_1#32 = .ok .f64S ∧
    decode 0b010_0_000_0#32 = .ok .alawM ∧ decode 0b010_0_000_1#32 = .ok .alawS ∧
    decode 0b010_0_001_0#32 = .ok .ulawM ∧ decode 0b010_0_001_1#32 = .ok .ulawS ∧
    decode 0b011_0_000_0#32 = .ok .imaM ∧ decode 0b011_0_000_1#32 = .ok .imaS := by decide +kernel

/-- E2. -/
theorem test_decode_illegal :
    decode 0x00000000#32 = .error .reservedFunc ∧ decode 0x00000003#32 = .error .reservedFunc ∧
    decode 0x0000002C#32 = .error .reservedFmt ∧ decode 0x00000030#32 = .error .z4Set ∧
    decode 0x00000044#32 = .error .reservedFmt ∧ decode 0x00000062#32 = .error .reservedFmt ∧
    decode 0x00000080#32 = .error .reservedUnit ∧ decode 0x00000122#32 = .error .zeroBits ∧
    decode 0xFFFFFFFF#32 = .error .zeroBits := by decide +kernel

/-- The host's selection (R95) and the source's call forms (R99). -/
theorem test_select_decoder :
    selectDecoder 1 24 2 = some .s24S ∧ selectDecoder 17 4 1 = some .imaM ∧ selectDecoder 3 64 1 = some .f64M ∧
    selectDecoder 2 4 1 = none ∧ selectDecoder 1 16 3 = none ∧
    callMono .s16M 0x102C 0x2000 2 = [.wr 2 0x102C, .wr 3 0x2000, .wr 5 2, .wr 0 0x22] := by decide

/-! ### Unit LIN (L1 to L8) -/

/-- L1. -/
theorem test_u8M : words .u8M (stateOn [0x00, 0x01, 0x7F, 0x80, 0x81, 0xFF] 6) 0x200 6 =
    some [0xBF800000#32, 0xBF7E0000#32, 0xBC000000#32, 0x00000000#32, 0x3C000000#32, 0x3F7E0000#32] := by
  decide +kernel

/-- L7. -/
theorem test_u8S :
    words .u8S (stateOn [0x00, 0xFF, 0x80, 0x81] 2) 0x200 2 = some [0xBF800000#32, 0x00000000#32] ∧
    words .u8S (stateOn [0x00, 0xFF, 0x80, 0x81] 2) 0x300 2 = some [0x3F7E0000#32, 0x3C000000#32] := by
  decide +kernel

/-- L2. -/
theorem test_s16M : words .s16M (stateOn [0x00, 0x80, 0xFF, 0xFF, 0x01, 0x00, 0xFF, 0x7F, 0xC7, 0xCF] 5) 0x200 5 =
    some [0xBF800000#32, 0xB8000000#32, 0x38000000#32, 0x3F7FFE00#32, 0xBEC0E400#32] := by decide +kernel

/-- L7. -/
theorem test_s16S :
    words .s16S (stateOn [0x00, 0x80, 0xFF, 0x7F] 1) 0x200 1 = some [0xBF800000#32] ∧
    words .s16S (stateOn [0x00, 0x80, 0xFF, 0x7F] 1) 0x300 1 = some [0x3F7FFE00#32] := by decide +kernel

/-- L3. -/
theorem test_s24M : words .s24M (stateOn [0x00, 0x00, 0x80, 0xFF, 0xFF, 0xFF, 0x56, 0x34, 0x12] 3) 0x200 3 =
    some [0xBF800000#32, 0xB4000000#32, 0x3E11A2B0#32] := by decide +kernel

/-- L7. -/
theorem test_s24S :
    words .s24S (stateOn [0x00, 0x00, 0x80, 0xFF, 0xFF, 0x7F] 1) 0x200 1 = some [0xBF800000#32] ∧
    words .s24S (stateOn [0x00, 0x00, 0x80, 0xFF, 0xFF, 0x7F] 1) 0x300 1 = some [0x3F7FFFFE#32] := by
  decide +kernel

/-- L4: the ties. -/
theorem test_s32M :
    [0x7FFFFFBF, 0x7FFFFFC0, 0x01000001, 0x01000003, 0x02000002, 0x02000006, 0x12345678, 0xFEFFFFFF].map convS32 =
      [0x3F7FFFFF#32, 0x3F800000#32, 0x3C000000#32, 0x3C000002#32, 0x3C800000#32, 0x3C800002#32, 0x3E11A2B4#32,
        0xBC000000#32] ∧
    words .s32M (stateOn [0x78, 0x56, 0x34, 0x12] 1) 0x200 1 = some [0x3E11A2B4#32] := by decide +kernel

/-- L7. -/
theorem test_s32S :
    words .s32S (stateOn [0x00, 0x00, 0x00, 0x80, 0xFF, 0xFF, 0xFF, 0x7F] 1) 0x200 1 = some [0xBF800000#32] ∧
    words .s32S (stateOn [0x00, 0x00, 0x00, 0x80, 0xFF, 0xFF, 0xFF, 0x7F] 1) 0x300 1 = some [0x3F800000#32] := by
  decide +kernel

/-- L5. -/
theorem test_f32M :
    [0x7F800000, 0xFF800000, 0x7FC00000, 0xFFC00001, 0x7F800001, 0x3F800001, 0xBF800001, 0x80000000, 0x807FFFFF,
      0x3DCCCCCD].map convF32 =
      [0x3F800000#32, 0xBF800000#32, 0x00000000#32, 0x00000000#32, 0x00000000#32, 0x3F800000#32, 0xBF800000#32,
        0x80000000#32, 0x807FFFFF#32, 0x3DCCCCCD#32] ∧
    words .f32M (stateOn [0x00, 0x00, 0x00, 0x40] 1) 0x200 1 = some [0x3F800000#32] := by decide +kernel

/-- L7. -/
theorem test_f32S :
    words .f32S (stateOn [0x00, 0x00, 0xC0, 0x7F, 0x00, 0x00, 0x40, 0xC0] 1) 0x200 1 = some [0x00000000#32] ∧
    words .f32S (stateOn [0x00, 0x00, 0xC0, 0x7F, 0x00, 0x00, 0x40, 0xC0] 1) 0x300 1 = some [0xBF800000#32] := by
  decide +kernel

/-- L6. -/
theorem test_f64M :
    [0x8000000000000000, 0x3FEFFFFFF0000000, 0x3FEFFFFFE0000000, 0x7E37E43C8800759C, 0xFFF0000000000001,
      0x3FB999999999999A, 0x37A16C262777579C, 0x3690000000000000, 0xB690000000000000, 0x36A8000000000000].map convF64 =
      [0x80000000#32, 0x3F800000#32, 0x3F7FFFFF#32, 0x3F800000#32, 0x00000000#32, 0x3DCCCCCD#32, 0x000116C2#32,
        0x00000000#32, 0x80000000#32, 0x00000002#32] ∧
    words .f64M (stateOn [0, 0, 0, 0, 0, 0, 0xE0, 0x3F] 1) 0x200 1 = some [0x3F000000#32] := by decide +kernel

/-- L7. -/
theorem test_f64S :
    words .f64S (stateOn [0, 0, 0, 0, 0, 0, 0xF0, 0x7F, 0, 0, 0, 0, 0, 0, 0xF8, 0xBF] 1) 0x200 1 =
      some [0x3F800000#32] ∧
    words .f64S (stateOn [0, 0, 0, 0, 0, 0, 0xF0, 0x7F, 0, 0, 0, 0, 0, 0, 0xF8, 0xBF] 1) 0x300 1 =
      some [0xBF800000#32] := by decide +kernel

/-- L8: the guard at its two boundary values, and each absent buffer. -/
theorem test_validation :
    State.rejects (stateOn [] 0) .u8M = true ∧ State.rejects (stateOn [] 0xFFFFFFFF) .u8M = true ∧
    State.rejects (stateOn [] 0x80000000) .u8M = true ∧ State.rejects (stateOn [] 0x08000000) .u8M = true ∧
    State.rejects (stateOn [] 0x07FFFFFF) .u8M = false ∧
    State.rejects { stateOn [] 1 with inBase := 0 } .u8M = true ∧
    State.rejects { stateOn [] 1 with out0Base := 0 } .u8M = true ∧
    State.rejects { stateOn [] 1 with out1Base := 0 } .u8M = false ∧
    State.rejects { stateOn [] 1 with out1Base := 0 } .u8S = true := by decide +kernel

/-! ### Unit SYS and unit LAW (W1 to W5) -/

/-- W1. -/
theorem test_initTables : statusAfter .initTables State.reset = some 0x00000009#32 := by decide +kernel

/-- W4. -/
theorem test_alawM : words .alawM (readyOn [0xD5, 0x55, 0x2A, 0xAA, 0x00, 0x80, 0xFF, 0x7F] 8) 0x200 8 =
    some [0x39800000#32, 0xB9800000#32, 0xBF7C0000#32, 0x3F7C0000#32, 0xBE2C0000#32, 0x3E2C0000#32, 0x3CD40000#32,
      0xBCD40000#32] := by decide +kernel

/-- W4. -/
theorem test_alawS :
    words .alawS (readyOn [0xAA, 0x2A] 1) 0x200 1 = some [0x3F7C0000#32] ∧
    words .alawS (readyOn [0xAA, 0x2A] 1) 0x300 1 = some [0xBF7C0000#32] := by decide +kernel

/-- R222. -/
theorem test_ulawM : words .ulawM (readyOn [0x00, 0x80, 0xFF] 3) 0x200 3 =
    some [0xBF800000#32, 0x3F800000#32, 0x00000000#32] := by decide +kernel

/-- R223. -/
theorem test_ulawS :
    words .ulawS (readyOn [0x8F, 0x0F] 1) 0x200 1 = some [0x3F059825#32] ∧
    words .ulawS (readyOn [0x8F, 0x0F] 1) 0x300 1 = some [0xBF059825#32] := by decide +kernel

/-- W5 and P5: refused, whatever the arguments. -/
theorem test_law_not_ready :
    refusalOf .alawM (stateOn [0xD5] 1) = some .tablesNotReady ∧
    refusalOf .alawM (stateOn [0xD5] 0) = some .tablesNotReady := by decide +kernel

/-! ### The tables of R215 and R218, rows 0x80 to 0xF0 -/

/-- Codes 0x80 to 0xFF. -/
def upperCodes : List Byte := (List.range 128).map fun k => BitVec.ofNat 8 (128 + k)

theorem test_ulaw_integers : upperCodes.map ulawInt =
    [8031, 7775, 7519, 7263, 7007, 6751, 6495, 6239, 5983, 5727, 5471, 5215, 4959, 4703, 4447, 4191]
    ++ [3999, 3871, 3743, 3615, 3487, 3359, 3231, 3103, 2975, 2847, 2719, 2591, 2463, 2335, 2207, 2079]
    ++ [1983, 1919, 1855, 1791, 1727, 1663, 1599, 1535, 1471, 1407, 1343, 1279, 1215, 1151, 1087, 1023]
    ++ [975, 943, 911, 879, 847, 815, 783, 751, 719, 687, 655, 623, 591, 559, 527, 495]
    ++ [471, 455, 439, 423, 407, 391, 375, 359, 343, 327, 311, 295, 279, 263, 247, 231]
    ++ [219, 211, 203, 195, 187, 179, 171, 163, 155, 147, 139, 131, 123, 115, 107, 99]
    ++ [93, 89, 85, 81, 77, 73, 69, 65, 61, 57, 53, 49, 45, 41, 37, 33]
    ++ [30, 28, 26, 24, 22, 20, 18, 16, 14, 12, 10, 8, 6, 4, 2, 0] := by decide +kernel

theorem test_ulaw_entries : upperCodes.map ulawEntry =
    [0x3F800000#32, 0x3F77D6F1#32, 0x3F6FADE3#32, 0x3F6784D4#32, 0x3F5F5BC6#32, 0x3F5732B7#32, 0x3F4F09A9#32, 0x3F46E09A#32,
      0x3F3EB78B#32, 0x3F368E7D#32, 0x3F2E656E#32, 0x3F263C60#32, 0x3F1E1351#32, 0x3F15EA43#32, 0x3F0DC134#32, 0x3F059825#32]
    ++ [0x3EFEF2B5#32, 0x3EF6C9A7#32, 0x3EEEA098#32, 0x3EE67789#32, 0x3EDE4E7B#32, 0x3ED6256C#32, 0x3ECDFC5E#32, 0x3EC5D34F#32,
      0x3EBDAA41#32, 0x3EB58132#32, 0x3EAD5823#32, 0x3EA52F15#32, 0x3E9D0606#32, 0x3E94DCF8#32, 0x3E8CB3E9#32, 0x3E848ADB#32]
    ++ [0x3E7CD81F#32, 0x3E74AF11#32, 0x3E6C8602#32, 0x3E645CF4#32, 0x3E5C33E5#32, 0x3E540AD7#32, 0x3E4BE1C8#32, 0x3E43B8B9#32,
      0x3E3B8FAB#32, 0x3E33669C#32, 0x3E2B3D8E#32, 0x3E23147F#32, 0x3E1AEB71#32, 0x3E12C262#32, 0x3E0A9953#32, 0x3E027045#32]
    ++ [0x3DF8A2F4#32, 0x3DF079E5#32, 0x3DE850D7#32, 0x3DE027C8#32, 0x3DD7FEBA#32, 0x3DCFD5AB#32, 0x3DC7AC9C#32, 0x3DBF838E#32,
      0x3DB75A7F#32, 0x3DAF3171#32, 0x3DA70862#32, 0x3D9EDF54#32, 0x3D96B645#32, 0x3D8E8D36#32, 0x3D866428#32, 0x3D7C7633#32]
    ++ [0x3D70389D#32, 0x3D680F8E#32, 0x3D5FE680#32, 0x3D57BD71#32, 0x3D4F9463#32, 0x3D476B54#32, 0x3D3F4245#32, 0x3D371937#32,
      0x3D2EF028#32, 0x3D26C71A#32, 0x3D1E9E0B#32, 0x3D1674FD#32, 0x3D0E4BEE#32, 0x3D0622DF#32, 0x3CFBF3A2#32, 0x3CEBA185#32]
    ++ [0x3CDF63EF#32, 0x3CD73AE0#32, 0x3CCF11D2#32, 0x3CC6E8C3#32, 0x3CBEBFB5#32, 0x3CB696A6#32, 0x3CAE6D97#32, 0x3CA64489#32,
      0x3C9E1B7A#32, 0x3C95F26C#32, 0x3C8DC95D#32, 0x3C85A04F#32, 0x3C7AEE80#32, 0x3C6A9C63#32, 0x3C5A4A46#32, 0x3C49F829#32]
    ++ [0x3C3DBA93#32, 0x3C359184#32, 0x3C2D6876#32, 0x3C253F67#32, 0x3C1D1658#32, 0x3C14ED4A#32, 0x3C0CC43B#32, 0x3C049B2D#32,
      0x3BF8E43C#32, 0x3BE8921F#32, 0x3BD84002#32, 0x3BC7EDE5#32, 0x3BB79BC8#32, 0x3BA749AB#32, 0x3B96F78D#32, 0x3B86A570#32]
    ++ [0x3B74CFB5#32, 0x3B647D98#32, 0x3B542B7B#32, 0x3B43D95E#32, 0x3B338740#32, 0x3B233523#32, 0x3B12E306#32, 0x3B0290E9#32,
      0x3AE47D98#32, 0x3AC3D95E#32, 0x3AA33523#32, 0x3A8290E9#32, 0x3A43D95E#32, 0x3A0290E9#32, 0x398290E9#32, 0x00000000#32] := by decide +kernel

theorem test_alaw_integers : upperCodes.map alawInt =
    [5504, 5248, 6016, 5760, 4480, 4224, 4992, 4736, 7552, 7296, 8064, 7808, 6528, 6272, 7040, 6784]
    ++ [2752, 2624, 3008, 2880, 2240, 2112, 2496, 2368, 3776, 3648, 4032, 3904, 3264, 3136, 3520, 3392]
    ++ [22016, 20992, 24064, 23040, 17920, 16896, 19968, 18944, 30208, 29184, 32256, 31232, 26112, 25088, 28160, 27136]
    ++ [11008, 10496, 12032, 11520, 8960, 8448, 9984, 9472, 15104, 14592, 16128, 15616, 13056, 12544, 14080, 13568]
    ++ [344, 328, 376, 360, 280, 264, 312, 296, 472, 456, 504, 488, 408, 392, 440, 424]
    ++ [88, 72, 120, 104, 24, 8, 56, 40, 216, 200, 248, 232, 152, 136, 184, 168]
    ++ [1376, 1312, 1504, 1440, 1120, 1056, 1248, 1184, 1888, 1824, 2016, 1952, 1632, 1568, 1760, 1696]
    ++ [688, 656, 752, 720, 560, 528, 624, 592, 944, 912, 1008, 976, 816, 784, 880, 848] := by decide +kernel

/-- R215: entries of codes below 0x80 are those of the code with bit 7 set, negated, but for 0x7F. W2, W3. -/
theorem test_law_lower_codes :
    ulawEntry 0x00#8 = 0xBF800000#32 ∧ ulawEntry 0x01#8 = 0xBF77D6F1#32 ∧ ulawEntry 0x7E#8 = 0xB98290E9#32 ∧
    ulawEntry 0x7F#8 = 0x00000000#32 ∧ ulawEntry 0x0F#8 = 0xBF059825#32 ∧
    alawEntry 0x2A#8 = 0xBF7C0000#32 ∧ alawEntry 0x00#8 = 0xBE2C0000#32 ∧ alawEntry 0x55#8 = 0xB9800000#32 ∧
    alawEntry 0x7F#8 = 0xBCD40000#32 := by decide +kernel

/-! ### Unit ADPCM (A1 to A9) -/

/-- P3: two blocks, a stride greater than the block, a last partial block. -/
theorem test_imaM :
    words .imaM (stateOn [0x00, 0x01, 0x0A, 0x00, 0x47, 0xB2, 0xEE, 0xEE, 0x00, 0x80, 0x58, 0x00, 0x77, 0xFF] 6) 0x200 7 =
      some [0x3C110000#32, 0x3C280000#32, 0x3C378000#32, 0x3C248000#32, 0x3F5FF800#32, 0x3F7FFE00#32,
        0x00000000#32] := by decide +kernel

/-- A8. -/
theorem test_imaS :
    words .imaS { stateOn [0x9C, 0xFF, 0x05, 0x00, 0x64, 0x00, 0xC8, 0x00, 0x8F, 0x31] 2 with spb := 2, blksz := 10 }
      0x200 2 = some [0xBB740000#32, 0xBB620000#32] ∧
    words .imaS { stateOn [0x9C, 0xFF, 0x05, 0x00, 0x64, 0x00, 0xC8, 0x00, 0x8F, 0x31] 2 with spb := 2, blksz := 10 }
      0x300 2 = some [0xBDF9B000#32, 0x3F2C7400#32] := by decide +kernel

/-- R241, R242: the ends of the step table, its order, and the index table. -/
theorem test_step_table :
    stepTable[0] = 7 ∧ stepTable[88] = 32767 ∧ stepTable.toList.Pairwise (· < ·) ∧
    indexTable.toList = [-1, -1, -1, -1, 2, 4, 6, 8, -1, -1, -1, -1, 2, 4, 6, 8] := by decide +kernel

/-- A4: saturation. -/
theorem test_nibble_saturates :
    Channel.step { pred := 32000, idx := 88 } 7 = { pred := 32767, idx := 88 } ∧
    Channel.step { pred := 32767, idx := 88 } 15 = { pred := BitVec.ofInt 16 (-28669), idx := 88 } ∧
    Channel.step { pred := BitVec.ofInt 16 (-32000), idx := 88 } 15 = { pred := BitVec.ofInt 16 (-32768), idx := 88 } ∧
    Channel.step { pred := 100, idx := 3 } 8 = { pred := 99, idx := 2 } := by decide +kernel

/-- A9. -/
theorem test_ima_validation :
    State.rejects { stateOn [] 1 with spb := 3 } .imaM = true ∧
    State.rejects { stateOn [] 1 with spb := 0 } .imaM = true ∧
    State.rejects { stateOn [] 1 with spb := BitVec.ofInt 32 (-2) } .imaM = true ∧
    State.rejects { stateOn [] 1 with blksz := 0 } .imaM = true ∧
    State.rejects { stateOn [] 1 with blksz := BitVec.ofInt 32 (-1) } .imaM = true := by decide +kernel

/-! ### Unit HDR (H1 to H11) -/

/-- The 44 bytes of H1, with a last four bytes of one's own. -/
def minimalFile (dataSize : List Nat) : List Nat :=
  [0x52, 0x49, 0x46, 0x46, 0x24, 0x00, 0x00, 0x00, 0x57, 0x41, 0x56, 0x45, 0x66, 0x6D, 0x74, 0x20,
    0x10, 0x00, 0x00, 0x00, 0x01, 0x00, 0x01, 0x00, 0x40, 0x1F, 0x00, 0x00, 0x80, 0x3E, 0x00, 0x00,
    0x02, 0x00, 0x10, 0x00, 0x64, 0x61, 0x74, 0x61] ++ dataSize

/-- A state whose buffer for PARSE_HEADER is these bytes. -/
def fileState (bytes : List Nat) : State := { stateOn bytes 1 with len := bytes.length }

/-- `RESULT` and, when it is OK, the eight fields. -/
def parsedFields (s : State) : Option (Nat × List Nat) :=
  match exec .parseHeader s with
  | .next t => some (t.result.code,
      if t.result = .ok then
        [t.wf.format.toNat, t.wf.channels.toNat, t.wf.sampleRate.toNat, t.wf.byteRate.toNat,
          t.wf.blockAlign.toNat, t.wf.bits.toNat, t.wf.dataOffset, t.wf.dataLen.toNat]
      else [])
  | _ => none

/-- H1, H2 (a skipped odd chunk, format 3, an odd `data` ending at the end of the buffer), H3. -/
theorem test_parse_ok :
    parsedFields (fileState (minimalFile [0, 0, 0, 0])) = some (1, [1, 1, 8000, 16000, 2, 16, 44, 0]) ∧
    parsedFields (fileState ([0x52, 0x49, 0x46, 0x46, 0x35, 0, 0, 0, 0x57, 0x41, 0x56, 0x45, 0x4C, 0x49, 0x53, 0x54,
      3, 0, 0, 0, 0x61, 0x62, 0x63, 0x00, 0x66, 0x6D, 0x74, 0x20, 0x10, 0, 0, 0, 3, 0, 2, 0, 0x80, 0xBB, 0, 0,
      0x00, 0xDC, 0x05, 0x00, 8, 0, 0x20, 0, 0x64, 0x61, 0x74, 0x61, 5, 0, 0, 0, 1, 2, 3, 4, 5])) =
      some (1, [3, 2, 48000, 384000, 8, 32, 56, 5]) := by decide +kernel

/-- H5; H4: a short buffer, and no buffer. -/
theorem test_parse_fails :
    parsedFields (fileState (minimalFile [1, 0, 0, 0])) = some (3, []) ∧
    parsedFields { fileState (minimalFile [0, 0, 0, 0]) with len := 43 } = some (3, []) ∧
    parsedFields { fileState (minimalFile [0, 0, 0, 0]) with inBase := 0 } = some (3, []) := by decide +kernel

/-! ### Witnesses: for each obligation with hypotheses, a state and operands that meet all of them -/

/-- A decoder's duties, from the footprint test. -/
theorem keeps_of_check {s : State} {i : Instr} (hd : isDecoder i = true) (hv : s.rejects i = false)
    (h : Footprint.refusal { reads := s.inputSpans i, writes := s.outputSpans (isStereo i) } s.cfg = none) :
    s.KeepsDuties i :=
  (decoder_refusal_iff s i hd ((rejects_eq_false_iff s i).1 hv).spbPositive).1 h

/-- Reset with operands on which every decoder is accepted, the tables ready: 6 frames, blocks of 4. -/
def good : State := readyOn [0x00, 0x01, 0x0A, 0x00, 0x47, 0xB2, 0xEE, 0xEE, 0x00, 0x80, 0x58, 0x00, 0x77, 0xFF] 6

/-- Every decoder of U8DecodersConvertEachSample to ImaStereoDecodesEachFrame, accepted: tables ready,
arguments valid, duties kept; so too for DecodersRejectExactlyInvalidArguments,
DecodersRunExactlyUnderTheDuties and the first clause of DecodersAreStatelessAndIdempotent. -/
theorem witness_decoders_accepted (i : Instr) (hd : isDecoder i = true) :
    good.tablesReady = true ∧ good.ValidArgs i ∧ good.KeepsDuties i ∧ good.frames = 6 ∧
      ∃ t, exec i good = .next t ∧ t.result = .ok := by
  have hv : good.rejects i = false := by
    cases i <;> first | exact absurd hd Bool.false_ne_true | decide +kernel
  have hk : good.KeepsDuties i := by
    refine keeps_of_check hd hv ?_
    cases i <;> first | exact absurd hd Bool.false_ne_true | decide +kernel
  have ha := (rejects_eq_false_iff good i).1 hv
  exact ⟨rfl, ha, hk, by decide +kernel, _, exec_decoder_accepted hd (fun _ => rfl) ha hk, by rw [accepted_frame]⟩

/-- The rejected clause of the decoders' statements, at each boundary of R161 and R248. -/
theorem witness_decoders_rejected :
    (∀ n ∈ ([0x00000000, 0x80000000, 0xFFFFFFFF, 0x08000000] : List Nat),
      ¬ State.ValidArgs { good with count := BitVec.ofNat 32 n } .u8M) ∧
    State.ValidArgs { good with count := 0x07FFFFFF#32 } .u8M ∧
    ¬ State.ValidArgs { good with inBase := 0 } .f64M ∧ ¬ State.ValidArgs { good with out0Base := 0 } .ulawS ∧
    ¬ State.ValidArgs { good with out1Base := 0 } .s16S ∧ State.ValidArgs { good with out1Base := 0 } .s16M ∧
    ¬ State.ValidArgs { good with spb := 3 } .imaM ∧ ¬ State.ValidArgs { good with blksz := 0 } .imaS := by
  simp only [← rejects_eq_false_iff]
  decide +kernel

/-- DecodersRunExactlyUnderTheDuties: each way to break a duty, the arguments valid. -/
theorem witness_duties_broken :
    (∀ s ∈ ([{ good with inBase := 2 ^ 32 - 5 }, { good with out1Base := 0x20C },
        { good with out0Base := 0x103 }] : List State), s.ValidArgs .s24S) ∧
    refusalOf .s24S { good with inBase := 2 ^ 32 - 5 } = some .beyondBufferSpace ∧
    refusalOf .s24S { good with out1Base := 0x20C } = some .overlappingFootprints ∧
    refusalOf .s24S { good with out0Base := 0x103 } = some .overlappingFootprints ∧
    refusalOf .s24S { good with cfg := { defaultConfig with unallocated := [⟨0x217, 1⟩] } } =
      some .outsideAllocation := by
  simp only [← rejects_eq_false_iff]
  decide +kernel

/-- LawDecodersNeedTheTables. -/
theorem witness_law_without_tables :
    isLaw .alawM = true ∧ isLaw .ulawS = true ∧ (stateOn [0xD5] 1).tablesReady = false := by decide

/-- A host action pending on the state the decoders are accepted on. -/
def pending (a : HostAction) : State := { good with host := [a] }

/-- StepRunsTheDecodedCommand; IllegalCommandIsANoOp on a word of each class, at its boundary. -/
theorem witness_command_words :
    (pending (.wr 0 0x22)).host = .wr 0 0x22 :: [] ∧ decode (BitVec.ofNat 32 0x22) = .ok .s16M ∧
    ∀ v ∈ ([0x100, 0x80, 0x30, 0x2C, 0x44, 0x62, 0x00, 0x03, 0x1F] : List Nat),
      (pending (.wr 0 v)).host = .wr 0 v :: [] ∧ ∀ i : Instr, decode (BitVec.ofNat 32 v) ≠ .ok i := by
  refine ⟨rfl, by decide +kernel, fun v hv => ⟨rfl, ?_⟩⟩
  fin_cases hv <;> intro i <;> cases i <;> decide +kernel

/-- ResetEventLeavesTheBufferSpace; StatusFields (the step that clears `TABLES_READY`). -/
theorem witness_reset_event :
    (pending .reset).host = .reset :: [] ∧ (pending .reset).tablesReady = true ∧
      ∃ t, step (pending .reset) = .next t ∧ t.tablesReady = false := ⟨rfl, rfl, _, rfl, rfl⟩

/-- ResetDuringACommandLosesItsOutput (and RefusalsAreTheSpecsOwn, StatusFields of a reset during a command): an
operation that was to end OK with a byte of its output footprint, for every decoder; one that was to be rejected;
an illegal word; a refused command. -/
theorem witness_reset_during :
    (∀ i, isDecoder i = true → ∃ u t,
      exec i { good with host := [], cmd := BitVec.ofNat 32 (encode i).toNat } = .next u ∧ u.result = .ok ∧
      good.WritesByte i 0x200 ∧ step (pending (.resetDuring (encode i).toNat)) = .next t ∧ t.tablesReady = false) ∧
    (∃ t, step { pending (.resetDuring 0x22) with count := 0 } = .next t ∧ t.mem = good.mem ∧ t.cmd = 0) ∧
    (∃ t, step (pending (.resetDuring 0x2C)) = .next t ∧ t.mem = good.mem ∧ t.result = .none) ∧
    step { pending (.resetDuring 0x40) with tablesReady := false } = .refused .tablesNotReady := by
  refine ⟨fun i hd => ?_, ⟨_, rfl, rfl, rfl⟩, ⟨_, rfl, rfl, rfl⟩, rfl⟩
  obtain ⟨-, hv, hk, hf, -⟩ := witness_decoders_accepted i hd
  have hu := exec_decoder_accepted (s := { good with host := [], cmd := BitVec.ofNat 32 (encode i).toNat }) hd
    (fun _ => rfl) ⟨hv.1, hv.2, hv.3, hv.4, hv.5, hv.6, hv.7, hv.8⟩ (by
      have := hk
      cases i <;> exact ⟨this.1, this.2, this.3, this.4⟩)
  refine ⟨_, _, hu, by rw [accepted_frame], ⟨hd, .inl ?_⟩, step_resetDuring rfl (by cases i <;> decide +kernel) hu, ?_⟩
  · rw [hf]; decide
  · obtain ⟨k, hk⟩ := cutShort_frame ((pending (.resetDuring (encode i).toNat)).withHost []) i
      (State.accepted { good with host := [], cmd := BitVec.ofNat 32 (encode i).toNat } i).result
    rw [hk]
    rfl

/-- OperandRegistersAreTheHosts and UnlistedRegistersIgnoreWritesAndReadZero: the pending actions. -/
theorem witness_register_actions :
    (∀ r ∈ [2, 3, 4, 5, 6, 7, 8], (pending (.wr r 0x123456789)).host = .wr r 0x123456789 :: []) ∧
    (pending (.wrPart 5 1)).host = .wrPart 5 1 :: [] ∧
    (∀ r ∈ [9, 15, 24], ((9 ≤ r ∧ r ≤ 15) ∨ 24 ≤ r) ∧ (pending (.wr r 1)).host = .wr r 1 :: [] ∧
      (pending (.rd r)).host = .rd r :: []) ∧
    (∀ r ∈ [1, 16, 23], (r = 1 ∨ (16 ≤ r ∧ r ≤ 23)) ∧ (pending (.wr r 1)).host = .wr r 1 :: []) :=
  ⟨fun _ _ => rfl, rfl, fun r hr => ⟨by fin_cases hr <;> decide, rfl, rfl⟩, fun r hr => ⟨by fin_cases hr <;> decide, rfl⟩⟩

/-- A record that PARSE_HEADER can return (H1). -/
def record : WaveFormat :=
  { format := 1, channels := 1, sampleRate := 8000, byteRate := 16000, blockAlign := 2, bits := 16
    dataOffset := 44, dataLen := 0 }

/-- RegisterReadsReturnTheirValues at its first and last registers, with and without a valid record;
InvalidRecordReadsAreDraws at both ends of its range. -/
theorem witness_register_reads :
    step { pending (.rd 0) with cmd := 0x122 } = .next { good with cmd := 0x122, seen := [0x122] } ∧
    step { pending (.rd 8) with len := 48 } = .next { good with len := 48, seen := [48] } ∧
    step { pending (.rd 16) with wf := record, wfValid := true } =
      .next { good with wf := record, wfValid := true, seen := [1] } ∧
    step { pending (.rd 22) with wf := record, wfValid := true } =
      .next { good with wf := record, wfValid := true, seen := [44] } ∧
    (pending (.rd 16)).wfValid = false ∧ (pending (.rd 23)).wfValid = false := ⟨rfl, rfl, rfl, rfl, rfl, rfl⟩

/-- A file's bytes are the host's: reset's allocation is everything below 2^32. -/
theorem file_keeps (s : State) (hc : s.cfg = defaultConfig) (h : s.inBase + s.len ≤ 2 ^ 32) :
    s.KeepsDuties .parseHeader := by
  refine ⟨fun a ha => ⟨?_, ?_⟩, fun a ha => ?_, fun a _ hw => ?_, fun h => absurd h Bool.false_ne_true⟩
  · rw [hc]; exact lt_of_lt_of_le ha.2 h
  · rw [hc]; intro hole hh; cases hh
  · exact absurd ha.1 Bool.false_ne_true
  · exact absurd hw.1 Bool.false_ne_true

/-- The state of H1. -/
def minimal : State := fileState (minimalFile [0, 0, 0, 0])

/-- CanonicalFileParses; and PARSE_HEADER's hypotheses in ParseHeaderTouchesOnlyTheRecord,
ParsedRecordsAreValid and EachOperationEndsWithItsCodes. -/
theorem witness_canonical_file :
    minimal.KeepsDuties .parseHeader ∧ minimal.len < 2 ^ minimal.cfg.aw ∧ minimal.inBase ≠ 0 ∧ minimal.len = 44 ∧
    Memory.tag minimal.mem minimal.inBase = [0x52#8, 0x49#8, 0x46#8, 0x46#8] ∧
    Memory.tag minimal.mem (minimal.inBase + 8) = [0x57#8, 0x41#8, 0x56#8, 0x45#8] ∧
    minimal.mem.readLE (minimal.inBase + 4) 4 = 36 ∧
    Memory.tag minimal.mem (minimal.inBase + 12) = [0x66#8, 0x6D#8, 0x74#8, 0x20#8] ∧
    minimal.mem.readLE (minimal.inBase + 16) 4 = 16 ∧ minimal.mem.readLE (minimal.inBase + 20) 2 = 1 ∧
    minimal.mem.readLE (minimal.inBase + 22) 2 = 1 ∧ minimal.mem.readLE (minimal.inBase + 24) 4 = 8000 ∧
    minimal.mem.readLE (minimal.inBase + 28) 4 = 16000 ∧ minimal.mem.readLE (minimal.inBase + 32) 2 = 2 ∧
    minimal.mem.readLE (minimal.inBase + 34) 2 = 16 ∧
    Memory.tag minimal.mem (minimal.inBase + 36) = [0x64#8, 0x61#8, 0x74#8, 0x61#8] ∧
    minimal.mem.readLE (minimal.inBase + 40) 4 = 0 ∧
    parsedFields minimal = some (1, [1, 1, 8000, 16000, 2, 16, 44, 0]) := by
  refine ⟨file_keeps _ rfl (by decide), by decide, by decide, by decide, ?_⟩
  decide +kernel

/-- ParseHeaderTouchesOnlyTheRecord, the refusals: H1 with its last byte at `2^AW`, and with that byte in a hole
of the allocation. -/
theorem witness_parse_refused :
    (∀ s ∈ ([{ minimal with inBase := 2 ^ 32 - 43 },
        { minimal with cfg := { defaultConfig with unallocated := [⟨0x12B, 1⟩] } }] : List State),
      s.inBase ≠ 0 ∧ 44 ≤ s.len ∧ InSpan s.inBase s.len (s.inBase + 43) ∧ ¬ Allocated s.cfg (s.inBase + 43)) ∧
    refusalOf .parseHeader { minimal with inBase := 2 ^ 32 - 43 } = some .beyondBufferSpace ∧
    refusalOf .parseHeader { minimal with cfg := { defaultConfig with unallocated := [⟨0x12B, 1⟩] } } =
      some .outsideAllocation := by
  refine ⟨fun s hs => ?_, by decide +kernel, by decide +kernel⟩
  simp only [List.mem_cons, List.not_mem_nil, or_false] at hs
  rcases hs with rfl | rfl
  · exact ⟨by decide, by decide, by decide, fun h => absurd h.1 (by decide +kernel)⟩
  · exact ⟨by decide, by decide, by decide, fun h => h.2 ⟨0x12B, 1⟩ (List.mem_singleton.2 rfl) (by decide)⟩

/-- A file that differs from H1 in one byte. -/
def fileWith (off byte : Nat) : State := fileState ((minimalFile [0, 0, 0, 0]).set off byte)

theorem fileWith_keeps (off byte : Nat) : (fileWith off byte).KeepsDuties .parseHeader :=
  file_keeps _ rfl (by
    show 0x100 + (List.set _ off byte).length ≤ 2 ^ 32
    rw [List.length_set]
    decide)

/-- ParseFailsOnBadPreamble (each tag, and the two tests that read nothing), ParseFailsOnBadFileSize (35 and 37
of H1) and ParseFailsOnBadFmtChunk (each clause at its boundary, H8 and H9): every one ends PARSE_FAIL. The
duties are `fileWith_keeps`. -/
theorem witness_parse_failures :
    Memory.tag (fileWith 3 0x58).mem 0x100 ≠ [0x52#8, 0x49#8, 0x46#8, 0x46#8] ∧
    Memory.tag (fileWith 8 0x77).mem 0x108 ≠ [0x57#8, 0x41#8, 0x56#8, 0x45#8] ∧
    (fileWith 4 35).mem.readLE 0x104 4 < 36 ∧ 44 - 8 < (fileWith 4 37).mem.readLE 0x104 4 ∧
    (fileWith 16 14).mem.readLE 0x110 4 < 16 ∧ (fileWith 22 0).mem.readLE 0x116 2 = 0 ∧
    8 < (fileWith 22 9).mem.readLE 0x116 2 ∧ 384000 < (fileWith 26 6).mem.readLE 0x118 4 ∧
    (fileWith 32 0).mem.readLE 0x120 2 = 0 ∧ (fileWith 34 0).mem.readLE 0x122 2 = 0 ∧
    64 < (fileWith 34 65).mem.readLE 0x122 2 ∧ (fileWith 32 4).mem.readLE 0x120 2 ≠ (1 * 16 + 7) / 8 ∧
    (fileWith 28 0x81).mem.readLE 0x11C 4 ≠ 8000 * 2 ∧
    ∀ p ∈ ([(3, 0x58), (8, 0x77), (4, 35), (4, 37), (16, 14), (22, 0), (22, 9), (26, 6), (32, 0), (34, 0), (34, 65),
        (32, 4), (28, 0x81)] : List (Nat × Nat)), parsedFields (fileWith p.1 p.2) = some (3, []) := by
  decide +kernel

/-- ChunkRejectionAndSkipping: a fatal chunk over the ceiling, a skipped one, and an advance that does not fit. -/
theorem witness_chunk_clauses :
    walk 32 (bytesAt 0x10C [0x64, 0x61, 0x74, 0x61, 0x01, 0x00, 0x40, 0x06]) 0x100 (2 ^ 30) 1 12
      { fmt := none, data := none } = none ∧
    Memory.tag (bytesAt 0x10C [0x4C, 0x49, 0x53, 0x54, 3, 0, 0, 0]) 0x10C ≠ tagFmt ∧
    Memory.tag (bytesAt 0x10C [0x4C, 0x49, 0x53, 0x54, 3, 0, 0, 0]) 0x10C ≠ tagData ∧
    Memory.readLE (bytesAt 0x10C [0x4C, 0x49, 0x53, 0x54, 3, 0, 0, 0]) 0x110 4 = 3 ∧
    2 ^ 32 ≤ 12 + 8 + Memory.readLE (bytesAt 0x10C [0x4C, 0x49, 0x53, 0x54, 0xEC, 0xFF, 0xFF, 0xFF]) 0x110 4 := by
  decide +kernel

/-- ParseDependsOnItsBufferAlone: two buffer spaces that differ outside the buffer alone. -/
theorem witness_outside_the_buffer :
    minimal.mem ≠ minimal.mem.write 0x12C 7 ∧
      ∀ a, InSpan 0x100 44 a → minimal.mem.read a = (minimal.mem.write 0x12C 7).read a := by
  refine ⟨by decide +kernel, fun a ha => (Memory.read_write_other _ _ _ ?_).symm⟩
  rintro rfl
  exact absurd ha (by decide)

/-- OffsetWidthIsUnobservable; F32RoundsToNearestEven (a tie: 2^24 + 1); ClampAndNarrowCommute (a value above
1.0 that binary32 cannot hold, and infinity); IntegerConversionsKeepOrder. -/
theorem witness_numbers :
    44 < 2 ^ 8 ∧ 44 < 2 ^ 32 ∧ f32 0 (2 ^ 31) = 0x00000000#32 ∧ f32 16777217 1 = 0x4B800000#32 ∧ f32Magnitude 16777219 1 = 0x4B800002 ∧
    unpack64 0x7E37E43C8800759C#64 ≠ .nan ∧ unpack64 0xFFF0000000000000#64 ≠ .nan ∧
    unpack64 0x36A8000000000000#64 ≠ .nan ∧
    sext 32 0x7FFFFFBF = 2147483583 ∧ sext 32 0x7FFFFFC0 = 2147483584 ∧ sext 16 0x8000 < sext 16 0x7FFF := by
  decide +kernel

/-- F32RoundsToNearestEven: the bound on the magnitude. -/
theorem witness_rounding_bound : |((16777217 : Int) : ℚ) / (1 : Nat)| ≤ magnitudeValue 0x7F7FFFFF := by
  norm_num [magnitudeValue]

/-- ImaBlocksDecodeIndependently: 6 frames, cut after the first block of 4. -/
theorem witness_block_cut (i : Instr) (h : isAdpcm i = true) :
    good.ValidArgs i ∧ good.KeepsDuties i ∧ 0 < 1 ∧ 1 * good.spb.toInt.toNat < good.frames :=
  have h := witness_decoders_accepted i (by cases i <;> first | rfl | exact absurd h Bool.false_ne_true)
  ⟨h.2.1, h.2.2.1, by decide, by decide +kernel⟩

/-- ImaBlocksDecodeIndependently is about both ADPCM decoders. -/
theorem witness_adpcm : isAdpcm .imaM = true ∧ isAdpcm .imaS = true := ⟨rfl, rfl⟩

/-- The invariant on the state the decoders run on: OutputsAreNormalized, EveryStepKeepsTheInvariant. -/
theorem witness_invariant : good.Inv ∧ good.cfg.wellFormed = true ∧ (pending (.wr 0 0x43)).Inv := by
  have hm : Memory.wf good.mem = true := by decide +kernel
  have hb : ∀ c ∈ good.mem, c.1 < 2 ^ good.cfg.aw := by decide +kernel
  exact ⟨⟨hm, hb, by decide, by decide, by decide, by decide, by decide, fun _ => ⟨rfl, rfl⟩,
      fun h => absurd h (by decide)⟩, test_config_good,
    ⟨hm, hb, by decide, by decide, by decide, by decide, by decide, fun _ => ⟨rfl, rfl⟩,
      fun h => absurd h (by decide)⟩⟩

/-- HostAccessesTheBufferSpace: each clause at the top of the buffer space; RefusalsAreTheSpecsOwn: a refused
and a faulting step. -/
theorem witness_host_accesses :
    2 ^ 32 - 2 + [1#8, 2#8].length ≤ 2 ^ good.cfg.aw ∧ 2 ^ 32 - 4 + 4 ≤ 2 ^ good.cfg.aw ∧
    2 ^ 32 - 1 < 2 ^ good.cfg.aw ∧ step (pending (.ld8 (2 ^ 32))) = .fault .noSuchAddress ∧
    step (pending (.ld32 (2 ^ 32 - 3))) = .fault .noSuchAddress ∧
    step (pending (.st8 (2 ^ 32 - 1) [1#8, 2#8])) = .fault .noSuchAddress ∧
    step (pending (.wrPart 5 1)) = .refused .partialWidthWrite ∧
    step { pending (.wr 0 0x40) with tablesReady := false } = .refused .tablesNotReady :=
  ⟨by decide +kernel, by decide +kernel, by decide +kernel, rfl, rfl, rfl, rfl, rfl⟩

/-- FailuresChangeNothingElse: a rejected and a failed-parse outcome; OperationsKeepToTheirOutputs,
UnlistedOperandsHaveNoEffect and EachOperationEndsWithItsCodes: a next state of each kind of operation. -/
theorem witness_outcomes :
    exec .u8M { good with count := 0 } = .next { good with count := 0, result := .rejected } ∧
    (∃ t, exec .parseHeader { minimal with len := 43 } = .next t ∧ t.result = .parseFail) ∧
    (∃ t, exec .initTables State.reset = .next t ∧ t.result = .ok) ∧
    refusalOf .u8M { good with out0Base := 0x103 } = some .overlappingFootprints :=
  ⟨rfl, ⟨_, rfl, rfl⟩, ⟨_, rfl, rfl⟩, by decide +kernel⟩

/-- HarmlessRunsAreClean: a host with an illegal word, INIT_TABLES, INIT_TABLES cut short by a reset, an accepted
write and a load pending. -/
theorem witness_harmless_host :
    ∀ a ∈ ([.wr 0 0x2C, .wr 0 0x01, .resetDuring 0x01, .wr 5 6, .ld8 0x100] : List HostAction), (∀ reg v, a ≠ .wrPart reg v) ∧
      ∀ v i, a = .wr 0 v ∨ a = .resetDuring v → decode (BitVec.ofNat 32 v) = .ok i → i = .initTables := by
  intro a ha
  fin_cases ha <;> refine ⟨fun _ _ h => (nomatch h), fun v i h hd => ?_⟩ <;> simp at h <;> subst h <;>
    cases i <;> first | rfl | exact absurd hd (by decide +kernel)

/-- LittleEndianReadAfterWrite: a byte index and an address outside. -/
theorem witness_little_endian : 3 < 4 ∧ ¬ InSpan 0x100 4 0x104 ∧ ¬ InSpan 0x100 4 0xFF := by decide

/-- FmtChunksAreCheckedAndRecorded and DataChunksAreRecorded, at the two chunks of H1: inside the buffer, under
the ceiling, and the data chunk ending exactly at the buffer's end. -/
theorem witness_chunks_recorded :
    minimal.mem.tag (0x100 + 12) = [0x66#8, 0x6D#8, 0x74#8, 0x20#8] ∧ minimal.mem.readLE (0x100 + 12 + 4) 4 = 16 ∧
    12 + 8 + 16 < 2 ^ 32 ∧ 12 + 8 + 16 ≤ 44 ∧
    minimal.mem.tag (0x100 + 36) = [0x64#8, 0x61#8, 0x74#8, 0x61#8] ∧ minimal.mem.readLE (0x100 + 36 + 4) 4 = 0 ∧
    36 + 8 + 0 < 2 ^ 32 ∧ 36 + 8 + 0 ≤ 44 := by decide +kernel

/-- ParseFailsOnBadFileSize, second clause: H1 with 4 bytes more, its field 36 in one buffer and 40 in the other. -/
theorem witness_file_size_unused :
    let m := (fileState (minimalFile [0, 0, 0, 0, 0, 0, 0, 0])).mem
    m.readLE 0x104 4 = 36 ∧ (m.write 0x104 40).readLE 0x104 4 = 40 ∧
      ∀ a, InSpan 0x100 48 a → ¬ InSpan (0x100 + 4) 4 a → m.read a = (m.write 0x104 40).read a := by
  refine ⟨by decide +kernel, by decide +kernel, fun a _ ha => (Memory.read_write_other _ _ _ ?_).symm⟩
  rintro rfl
  exact absurd ha (by decide)

/-- DecodersAreStatelessAndIdempotent, second clause: two runs whose states differ in LEN and in
the record. -/
theorem witness_two_runs (i : Instr) (hd : isDecoder i = true) :
    let s' : State := { good with len := 5, wf := record }
    s'.mem = good.mem ∧ (∃ t, exec i good = .next t ∧ t.result = .ok) ∧ ∃ t', exec i s' = .next t' ∧ t'.result = .ok := by
  have h := witness_decoders_accepted i hd
  refine ⟨rfl, h.2.2.2.2, _, exec_decoder_accepted (s := { good with len := 5, wf := record }) hd (fun _ => rfl) ?_ ?_,
    by rw [accepted_frame]⟩
  · exact ⟨h.2.1.inPresent, h.2.1.out0Present, h.2.1.out1Present, h.2.1.positive, h.2.1.guarded, h.2.1.spbPositive,
      h.2.1.spbEven, h.2.1.blkszPositive⟩
  · have hr : State.rejects { good with len := 5, wf := record } i = false := by
      cases i <;> first | exact absurd hd Bool.false_ne_true | decide +kernel
    refine keeps_of_check hd hr ?_
    cases i <;> first | exact absurd hd Bool.false_ne_true | decide +kernel

end Sys2Proof.Tests
end

section
/-! Rounding to binary32 (R8, R183): `f32Magnitude` against every other pattern, first on natural numbers
(in units of 2^-149 over the denominator), then on rationals, then with signs. -/

namespace Sys2Proof.Machine

/-! ### The neighbours of a pattern -/

/-- Every greater pattern is at least one quantum above. -/
theorem quantum_above_le_units {u q p : Nat} (hq : q ≤ 2 ^ 24) (hn : u = 0 ∨ 2 ^ 23 ≤ q)
    (hp : u * 2 ^ 23 + q < p) : (q + 1) * 2 ^ u ≤ units p := by
  rcases Nat.lt_or_eq_of_le hq with hlt | rfl
  · rw [← units_compose (u := u) (q := q + 1) hlt (hn.imp id fun h => by omega)]
    exact units_strictMono.monotone hp
  · calc (2 ^ 24 + 1) * 2 ^ u ≤ (2 ^ 23 + 1) * 2 ^ (u + 1) := by rw [pow_succ 2 u]; omega
      _ = units ((u + 1) * 2 ^ 23 + (2 ^ 23 + 1)) := (units_compose (by decide) (.inr (by decide))).symm
      _ ≤ units p := units_strictMono.monotone (by omega)

/-- Every smaller pattern is at least one quantum below, except below a power of two (`q = 2^23`), where the
patterns lie closer together. -/
theorem units_add_quantum_le {u q p : Nat} (hq : q ≤ 2 ^ 24) (hn : u = 0 ∨ 2 ^ 23 < q)
    (hp : p < u * 2 ^ 23 + q) : units p + 2 ^ u ≤ q * 2 ^ u := by
  obtain ⟨k, rfl⟩ : ∃ k, q = k + 1 := ⟨q - 1, by omega⟩
  have hk : units p ≤ k * 2 ^ u := by
    rw [← units_compose (u := u) (q := k) (by omega) (hn.imp id fun h => by omega)]
    exact units_strictMono.monotone (by omega)
  rw [Nat.succ_mul]
  omega

/-! ### The nearest magnitude -/

/-- How far a magnitude pattern lies from `num / den`, in units of 2^-149 over `den`. -/
def unitsOff (num den p : Nat) : Nat := (((units p * den : Nat) : Int) - (num * 2 ^ 149 : Nat)).natAbs

theorem abs_magnitudeValue_sub (num : Nat) {den : Nat} (hd : 0 < den) (p : Nat) :
    |magnitudeValue p - (num : ℚ) / den| = (unitsOff num den p : ℚ) / (2 ^ 149 * den) := by
  have hd' : (0 : ℚ) < den := by exact_mod_cast hd
  have hsub : magnitudeValue p - (num : ℚ) / den = ((units p : ℚ) * den - num * 2 ^ 149) / (2 ^ 149 * den) := by
    rw [magnitudeValue_eq]
    field_simp
  rw [hsub, abs_div, abs_of_pos (show (0 : ℚ) < 2 ^ 149 * den by positivity), unitsOff, Nat.cast_natAbs]
  push_cast
  rfl

/-- The rounded multiple `q * d` is at most half of `d` away from `n`, so whatever lies `d` or more from the
multiple, or beyond it as seen from `n`, is no nearer; what is as near leaves `q` even. -/
theorem roundHalfEven_nearest (n : Nat) {d x : Nat} (hd : 0 < d)
    (hx : x + d ≤ roundHalfEven n d * d ∨ roundHalfEven n d * d + d ≤ x ∨
      x < roundHalfEven n d * d ∧ roundHalfEven n d * d ≤ n) :
    (((roundHalfEven n d * d : Nat) : Int) - n).natAbs ≤ ((x : Int) - n).natAbs ∧
      ((((roundHalfEven n d * d : Nat) : Int) - n).natAbs = ((x : Int) - n).natAbs →
        roundHalfEven n d % 2 = 0) := by
  have hround := roundHalfEven_spec n hd
  rw [Nat.add_mul, Nat.mul_assoc, Nat.one_mul] at hround
  omega

/-- No pattern is nearer than the rounded one, and another pattern as near leaves the rounded one even. -/
theorem f32Magnitude_nearest {num den : Nat} (hd : 0 < den)
    (hfin : f32Magnitude num den < 0x7F800000) (p : Nat) :
    unitsOff num den (f32Magnitude num den) ≤ unitsOff num den p ∧
      (unitsOff num den (f32Magnitude num den) = unitsOff num den p → p ≠ f32Magnitude num den →
        f32Magnitude num den % 2 = 0) := by
  obtain ⟨u, q, hm, hq, hq24, hn, -, hlow⟩ := f32Magnitude_parts num hd
  have hM : f32Magnitude num den = u * 2 ^ 23 + q := by omega
  have hU : units (u * 2 ^ 23 + q) * den = q * (den * 2 ^ u) := by rw [units_compose hq24 hn]; ring
  rcases eq_or_ne p (f32Magnitude num den) with rfl | hne
  · exact ⟨le_refl _, fun _ h => absurd rfl h⟩
  have hgap : units p * den + den * 2 ^ u ≤ q * (den * 2 ^ u) ∨
      q * (den * 2 ^ u) + den * 2 ^ u ≤ units p * den ∨
      units p * den < q * (den * 2 ^ u) ∧ q * (den * 2 ^ u) ≤ num * 2 ^ 149 := by
    rcases Nat.lt_or_gt_of_ne (hM ▸ hne) with hlt | hgt
    · by_cases hpow : u = 0 ∨ 2 ^ 23 < q
      · left
        calc units p * den + den * 2 ^ u = (units p + 2 ^ u) * den := by ring
          _ ≤ q * 2 ^ u * den := Nat.mul_le_mul_right _ (units_add_quantum_le hq24 hpow hlt)
          _ = q * (den * 2 ^ u) := by ring
      · -- a power of two: the value itself is not below it
        obtain rfl : 2 ^ 23 = q := by omega
        exact .inr (.inr ⟨hU ▸ Nat.mul_lt_mul_of_pos_right (units_strictMono hlt) hd, hlow.resolve_left (by omega)⟩)
    · right; left
      calc q * (den * 2 ^ u) + den * 2 ^ u = (q + 1) * 2 ^ u * den := by ring
        _ ≤ units p * den := Nat.mul_le_mul_right _ (quantum_above_le_units hq24 hn hgt)
  obtain ⟨hle, htie⟩ := roundHalfEven_nearest (num * 2 ^ 149) (show 0 < den * 2 ^ u by positivity) (hq ▸ hgap)
  rw [← hq] at hle htie
  rw [hM, unitsOff, unitsOff, hU]
  exact ⟨hle, fun h _ => by have := htie h; omega⟩

/-! ### Signs -/

theorem magnitudeValue_zero : magnitudeValue 0 = 0 := by simp [magnitudeValue]

theorem magnitudeValue_nonneg (p : Nat) : 0 ≤ magnitudeValue p := by
  rw [magnitudeValue_eq]
  positivity

theorem abs_f32Value (w : F32) : |f32Value w| = magnitudeValue (w.toNat % 2 ^ 31) := by
  rw [f32Value, abs_mul, abs_of_nonneg (magnitudeValue_nonneg _)]
  split <;> simp

theorem abs_intCast_div (num : Int) (den : Nat) : |(num : ℚ) / den| = (num.natAbs : ℚ) / den := by
  rw [abs_div, Nat.abs_cast, Nat.cast_natAbs, Int.cast_abs]

/-- A rational up to the largest finite value is not rounded to infinity. -/
theorem f32Magnitude_finite {num : Int} {den : Nat} (hd : 0 < den)
    (h : |(num : ℚ) / den| ≤ magnitudeValue 0x7F7FFFFF) : f32Magnitude num.natAbs den < 0x7F800000 := by
  rw [abs_intCast_div, magnitudeValue_eq, div_le_div_iff₀ (by exact_mod_cast hd) (by positivity)] at h
  exact Nat.lt_succ_of_le (f32Magnitude_le hd (by exact_mod_cast h))

theorem f32_magnitude (num : Int) (den : Nat) :
    (f32 num den).toNat % 2 ^ 31 = f32Magnitude num.natAbs den :=
  signed_magnitude _ (Nat.lt_of_le_of_lt (f32Magnitude_le_inf _ _) (by decide))

/-- The converted value has the sign of the rational, so their distance is that of their magnitudes. -/
theorem abs_f32Value_f32_sub (num : Int) (den : Nat) :
    |f32Value (f32 num den) - (num : ℚ) / den| =
      |magnitudeValue (f32Magnitude num.natAbs den) - (num.natAbs : ℚ) / den| := by
  rw [f32Value, f32_magnitude, f32, signed_msb, Nat.cast_natAbs]
  rcases lt_or_ge num 0 with hneg | hpos
  · rw [abs_of_neg hneg, if_pos (decide_eq_true hneg), ← abs_neg]
    congr 1
    push_cast
    ring
  · rw [abs_of_nonneg hpos, if_neg (by simpa using hpos), one_mul]

/-- The distance of any word is at least that of its magnitude. -/
theorem abs_magnitude_sub_le (w : F32) (num : Int) (den : Nat) :
    |magnitudeValue (w.toNat % 2 ^ 31) - (num.natAbs : ℚ) / den| ≤ |f32Value w - (num : ℚ) / den| := by
  rw [← abs_f32Value, ← abs_intCast_div]
  exact abs_abs_sub_abs_le_abs_sub _ _

/-- No word's magnitude is nearer to the rational's than the converted value is to the rational. -/
theorem f32_nearest_magnitude {num : Int} {den : Nat} (hd : 0 < den)
    (hfin : f32Magnitude num.natAbs den < 0x7F800000) (w : F32) :
    |f32Value (f32 num den) - (num : ℚ) / den| ≤
      |magnitudeValue (w.toNat % 2 ^ 31) - (num.natAbs : ℚ) / den| := by
  rw [abs_f32Value_f32_sub, abs_magnitudeValue_sub _ hd, abs_magnitudeValue_sub _ hd]
  have := (f32Magnitude_nearest hd hfin (w.toNat % 2 ^ 31)).1
  gcongr

/-- A word of another magnitude that is as near leaves the converted magnitude even. -/
theorem f32Magnitude_even_of_tie {num : Int} {den : Nat} (hd : 0 < den)
    (hfin : f32Magnitude num.natAbs den < 0x7F800000) {w : F32}
    (htie : |f32Value (f32 num den) - (num : ℚ) / den| = |f32Value w - (num : ℚ) / den|)
    (hne : w.toNat % 2 ^ 31 ≠ f32Magnitude num.natAbs den) : f32Magnitude num.natAbs den % 2 = 0 := by
  have heq := le_antisymm (f32_nearest_magnitude hd hfin w) (htie ▸ abs_magnitude_sub_le w num den)
  have hscale : (2 : ℚ) ^ 149 * den ≠ 0 := by positivity
  rw [abs_f32Value_f32_sub, abs_magnitudeValue_sub _ hd, abs_magnitudeValue_sub _ hd,
    div_left_inj' hscale, Nat.cast_inj] at heq
  exact (f32Magnitude_nearest hd hfin _).2 heq hne

/-- A word of the same magnitude that is as near stands for the same value: opposite values are as near only
to zero, which converts to zero. -/
theorem f32Value_eq_of_tie {num : Int} {den : Nat} (hd : 0 < den)
    (hfin : f32Magnitude num.natAbs den < 0x7F800000) {w : F32}
    (htie : |f32Value (f32 num den) - (num : ℚ) / den| = |f32Value w - (num : ℚ) / den|)
    (hmag : w.toNat % 2 ^ 31 = f32Magnitude num.natAbs den) : f32Value w = f32Value (f32 num den) := by
  have habs : |f32Value w| = |f32Value (f32 num den)| := by
    rw [abs_f32Value, abs_f32Value, hmag, f32_magnitude]
  have hzero := f32_nearest_magnitude hd hfin 0#32
  rw [BitVec.toNat_ofNat, Nat.zero_mod, magnitudeValue_zero, zero_sub, abs_neg,
    ← abs_intCast_div, abs_abs] at hzero
  generalize f32Value w = y, f32Value (f32 num den) = v, (num : ℚ) / den = x at *
  rcases abs_eq_abs.1 habs with rfl | rfl
  · rfl
  · rcases abs_eq_abs.1 htie with h | h
    · linarith
    · obtain rfl : x = 0 := by linarith
      rw [sub_zero, abs_zero, abs_nonpos_iff] at hzero
      rw [hzero, neg_zero]

theorem f32_zero {den : Nat} (hd : 0 < den) : f32 0 den = 0x00000000#32 := by
  have hmag : f32Magnitude 0 den = 0 := f32Magnitude_exact hd (by decide) (by simp [units])
  rw [f32, Int.natAbs_zero, hmag]
  rfl

end Sys2Proof.Machine

namespace Sys2Proof
open Sys2Proof.Machine

/-- Settles O45: the magnitude is a rounded count of quanta, every other pattern is half a quantum away or
more, and a value of the opposite sign is no nearer than its magnitude. -/
theorem f32RoundsToNearestEven : Obligations.F32RoundsToNearestEven := by
  unfold Obligations.F32RoundsToNearestEven
  refine ⟨fun den hd => f32_zero hd, fun num den hd hrange => ?_⟩
  have hfin := f32Magnitude_finite hd hrange
  refine ⟨by rwa [f32_magnitude], fun w _ => ⟨?_, fun htie hne => ?_⟩⟩
  · exact (f32_nearest_magnitude hd hfin w).trans (abs_magnitude_sub_le w num den)
  · have heven := f32Magnitude_even_of_tie hd hfin htie fun hmag => hne (f32Value_eq_of_tie hd hfin htie hmag)
    have := f32_magnitude num den
    omega

end Sys2Proof
end

section
/-! The host-interface registers (spec/10_state.md): what an operation's next state can be and what none of
them touches, which operand registers an operation does not read (R24), that none reads `STATUS.RESULT`
(R25), and what a host access of each register does (R21, R22, R31). -/

namespace Sys2Proof.Machine

variable {i : Instr} {s t : State}

/-! ### The next state of an operation -/

@[simp] theorem accepted_result (s : State) (i : Instr) : (s.accepted i).result = .ok := by
  rw [accepted_frame]

@[simp] theorem accepted_tablesReady (s : State) (i : Instr) : (s.accepted i).tablesReady = s.tablesReady := by
  rw [accepted_frame]

/-- Every next state of an operation: one for INIT_TABLES, and two each for PARSE_HEADER and a decoder. -/
theorem exec_next_cases (h : exec i s = .next t) :
    (i = .initTables ∧ t = (s.withTables s.cfg.alawEntry s.cfg.ulawEntry).finish .ok) ∨
    (i = .parseHeader ∧
      ((∃ r, t = (s.withRecord r).finish .ok) ∨ t = s.loseRecord.finish .parseFail)) ∨
    (isDecoder i = true ∧ (t = s.finish .rejected ∨ t = s.accepted i)) := by
  by_cases hd : isDecoder i = true
  · obtain ⟨-, ⟨-, rfl⟩ | ⟨-, -, rfl⟩⟩ := exec_decoder_cases hd h
    · exact .inr (.inr ⟨hd, .inl rfl⟩)
    · exact .inr (.inr ⟨hd, .inr rfl⟩)
  · cases i with
    | initTables => cases h; exact .inl ⟨rfl, rfl⟩
    | parseHeader =>
      obtain ⟨r, -, rfl⟩ | ⟨-, rfl⟩ := exec_parseHeader_cases h
      · exact .inr (.inl ⟨rfl, .inl ⟨r, rfl⟩⟩)
      · exact .inr (.inl ⟨rfl, .inr rfl⟩)
    | _ => exact absurd rfl hd

/-- What no operation touches: the parameters, `CMD`, the operand registers and the host's own state. -/
theorem exec_frame (h : exec i s = .next t) :
    t = { s with
      result := t.result, tablesReady := t.tablesReady, alawTab := t.alawTab, ulawTab := t.ulawTab
      wf := t.wf, wfValid := t.wfValid, ch0 := t.ch0, ch1 := t.ch1, mem := t.mem, draws := t.draws } := by
  obtain ⟨-, rfl⟩ | ⟨-, ⟨r, rfl⟩ | rfl⟩ | ⟨-, rfl | rfl⟩ := exec_next_cases h
  · rfl
  · rfl
  · rfl
  · rfl
  · rw [accepted_frame]

/-! ### STATUS -/

theorem exec_result_ne_none (h : exec i s = .next t) : t.result ≠ .none := by
  obtain ⟨-, rfl⟩ | ⟨-, ⟨r, rfl⟩ | rfl⟩ | ⟨-, rfl | rfl⟩ := exec_next_cases h <;> simp

theorem exec_tablesReady (h : exec i s = .next t) :
    t.tablesReady = (s.tablesReady || decide (i = .initTables)) := by
  have hd : isDecoder i = true → i ≠ .initTables := by rintro hd rfl; cases hd
  obtain ⟨rfl, rfl⟩ | ⟨rfl, ⟨r, rfl⟩ | rfl⟩ | ⟨hi, rfl | rfl⟩ := exec_next_cases h
  · simp
  · simp
  · simp
  · simp [hd hi]
  · simp [hd hi]

/-- No operation reads `RESULT`, and each overwrites it (R25). -/
theorem exec_withResult (i : Instr) (s : State) (r : ResultCode) : exec i { s with result := r } = exec i s := by
  cases i <;> rfl

/-- The two fields of `STATUS` do not carry into each other. -/
theorem statusWord_toNat (s : State) :
    s.statusWord.toNat = s.result.code + if s.tablesReady = true then 8 else 0 := by
  have hc : s.result.code < 8 := by cases s.result <;> decide
  rw [State.statusWord, BitVec.toNat_ofNat, Nat.mod_eq_of_lt]
  split <;> omega

/-- `TABLES_READY` is cleared by the reset event alone (R25, R300). -/
theorem step_clears_tablesReady (h : step s = .next t) (hs : s.tablesReady = true) (ht : t.tablesReady = false) :
    s.host.head? = some .reset ∨ ∃ v, s.host.head? = some (.resetDuring v) := by
  have kept : t.tablesReady = s.tablesReady → False := by simp [hs, ht]
  obtain ⟨-, rfl⟩ | ⟨rest, ⟨v, i, -, -, he⟩ | ⟨v, r, -, -, rfl⟩ | ⟨reg, v, -, -, rfl⟩ | ⟨reg, -, rfl⟩ |
    ⟨a, bytes, -, -, rfl⟩ | ⟨a, n, -, rfl⟩ | ⟨hh, -⟩ | ⟨v, r, hh, -⟩ | ⟨v, i, u, hh, -⟩⟩ := step_cases h
  · exact (kept rfl).elim
  · exact (kept (by simp [exec_tablesReady he, hs])).elim
  · exact (kept rfl).elim
  · exact (kept (by rw [writeRegister_frame]; rfl)).elim
  · exact (kept rfl).elim
  · exact (kept rfl).elim
  · exact (kept rfl).elim
  · exact .inl (by rw [hh, List.head?_cons])
  · exact .inr ⟨v, by rw [hh, List.head?_cons]⟩
  · exact .inr ⟨v, by rw [hh, List.head?_cons]⟩

/-! ### Operand registers an operation does not list -/

/-- The operand registers that R24 does not list for the operation, replaced by those of `u`. -/
def State.withUnlisted (s : State) (i : Instr) (u : State) : State :=
  { s with
    inBase := if i = .initTables then u.inBase else s.inBase
    out0Base := if isDecoder i = true then s.out0Base else u.out0Base
    out1Base := if isStereo i = true then s.out1Base else u.out1Base
    count := if isDecoder i = true then s.count else u.count
    spb := if isAdpcm i = true then s.spb else u.spb
    blksz := if isAdpcm i = true then s.blksz else u.blksz
    len := if i = .parseHeader then s.len else u.len }

/-- A change to the state of an outcome that answers one. -/
def mapNext (g : State → State) : Host.Outcome State Fault Refusal → Host.Outcome State Fault Refusal
  | .next t => .next (g t)
  | .fault f => .fault f
  | .refused r => .refused r

theorem mapNext_underDuties (g : State → State) (f : Footprint) (s t : State) :
    mapNext g (underDuties f s t) = underDuties f s (g t) := by
  unfold underDuties
  cases f.refusal s.cfg <;> rfl

section
variable (s u : State) (hd : isDecoder i = true)
include hd

theorem rejectCommon_withUnlisted :
    (s.withUnlisted i u).rejectCommon (isStereo i) = s.rejectCommon (isStereo i) := by
  have hin : (s.withUnlisted i u).inBase = s.inBase := if_neg (by rintro rfl; cases hd)
  have hout0 : (s.withUnlisted i u).out0Base = s.out0Base := if_pos hd
  have hout1 : (isStereo i && (s.withUnlisted i u).out1Base == 0) = (isStereo i && s.out1Base == 0) := by
    cases hs : isStereo i
    · rfl
    · rw [State.withUnlisted, if_pos hs]
  have hn : (s.withUnlisted i u).n = s.n := congrArg BitVec.toInt (if_pos hd)
  have hcfg : (s.withUnlisted i u).cfg = s.cfg := rfl
  rw [State.rejectCommon, State.rejectCommon, hin, hout0, hout1, hn, hcfg]

/-- A decoder's validation looks at listed registers alone (R161, R248). -/
theorem rejects_withUnlisted : (s.withUnlisted i u).rejects i = s.rejects i := by
  rw [State.rejects, State.rejects, rejectCommon_withUnlisted s u hd]
  by_cases ha : isAdpcm i = true
  · have hspb : (s.withUnlisted i u).samplesPerBlock = s.samplesPerBlock := congrArg BitVec.toInt (if_pos ha)
    have hbs : (s.withUnlisted i u).blockSize = s.blockSize := congrArg BitVec.toInt (if_pos ha)
    rw [if_pos ha, if_pos ha, State.rejectAdpcm, State.rejectAdpcm, rejectCommon_withUnlisted s u hd, hspb, hbs]
  · rw [if_neg ha, if_neg ha]

theorem inputSpans_withUnlisted : (s.withUnlisted i u).inputSpans i = s.inputSpans i := by
  cases i with
  | initTables | parseHeader => cases hd
  | _ => rfl

theorem outputSpans_withUnlisted :
    (s.withUnlisted i u).outputSpans (isStereo i) = s.outputSpans (isStereo i) := by
  cases i with
  | initTables | parseHeader => cases hd
  | _ => rfl

theorem accepted_withUnlisted : (s.withUnlisted i u).accepted i = (s.accepted i).withUnlisted i u := by
  cases i with
  | initTables | parseHeader => cases hd
  | _ => rfl

theorem exec_decoder_withUnlisted :
    exec i (s.withUnlisted i u) = mapNext (·.withUnlisted i u) (exec i s) := by
  by_cases hr : isLaw i = true → s.tablesReady = true
  · rw [exec_decoder_eq s hd hr, exec_decoder_eq (s.withUnlisted i u) hd hr, rejects_withUnlisted s u hd,
      inputSpans_withUnlisted s u hd, outputSpans_withUnlisted s u hd, accepted_withUnlisted s u hd,
      apply_ite (mapNext _), mapNext_underDuties]
    rfl
  · push Not at hr
    have hn : s.tablesReady = false := by simpa using hr.2
    rw [exec_law_not_ready s hr.1 hn, exec_law_not_ready (s.withUnlisted i u) hr.1 hn]
    rfl

end

theorem parsed_withUnlisted (s u : State) :
    (s.withUnlisted .parseHeader u).parsed = s.parsed.withUnlisted .parseHeader u := by
  have hparse : parseHeader (s.withUnlisted .parseHeader u).cfg.aw (s.withUnlisted .parseHeader u).mem
      (s.withUnlisted .parseHeader u).inBase (s.withUnlisted .parseHeader u).len =
      parseHeader s.cfg.aw s.mem s.inBase s.len := rfl
  rw [State.parsed, State.parsed, hparse]
  cases parseHeader s.cfg.aw s.mem s.inBase s.len <;> rfl

theorem exec_parseHeader_eq (s : State) :
    exec .parseHeader s = underDuties
      { reads := if tooShort s.inBase s.len then [] else [⟨s.inBase, s.len⟩], writes := [] } s s.parsed := rfl

/-- An operation reads only the operand registers R24 lists for it, and leaves the others as they are. -/
theorem exec_withUnlisted (i : Instr) (s u : State) :
    exec i (s.withUnlisted i u) = mapNext (·.withUnlisted i u) (exec i s) := by
  by_cases hd : isDecoder i = true
  · exact exec_decoder_withUnlisted s u hd
  · cases i with
    | initTables => rfl
    | parseHeader =>
      rw [exec_parseHeader_eq, exec_parseHeader_eq, mapNext_underDuties, parsed_withUnlisted]
      rfl
    | _ => exact absurd rfl hd

/-! ### Host accesses of the registers -/

theorem decode_encode (i : Instr) : decode (encode i) = .ok i := by
  cases i <;> rfl

/-- A write of any number but those of `CMD` and the operand registers is ignored (R21; log 10). -/
theorem writeRegister_ignored (s : State) {reg : Nat} (h : reg < 2 ∨ 8 < reg) (v : Nat) :
    s.writeRegister reg v = s := by
  unfold State.writeRegister
  split
  case h_8 => rfl
  all_goals omega

/-- A read that draws no free value changes nothing but what the host has seen. -/
theorem readRegister_specified {reg : Nat} (h : isWaveRegister reg = true → s.wfValid = true) :
    s.readRegister reg = { s with seen := s.registerValue reg :: s.seen } := by
  cases hw : isWaveRegister reg
  · simp [State.readRegister, State.drawsOfRead, hw]
  · simp [State.readRegister, State.drawsOfRead, h hw]

/-- A read of a `WF_*` register that holds no specified value answers a draw (R31; log 4, log 5). -/
theorem readRegister_draw {reg : Nat} (hw : isWaveRegister reg = true) (hv : s.wfValid = false) :
    s.readRegister reg = { s with
      seen := (WaveFormat.free s.cfg.aw s.draws).register reg :: s.seen, draws := s.draws + 8 } := by
  simp [State.readRegister, State.registerValue, State.drawsOfRead, hw, hv]

theorem isWaveRegister_iff {reg : Nat} : isWaveRegister reg = true ↔ 16 ≤ reg ∧ reg ≤ 23 := by
  simp [isWaveRegister]

/-- A register that does not exist reads as 0 (R21). -/
theorem registerValue_unlisted (s : State) {reg : Nat} (h : (9 ≤ reg ∧ reg ≤ 15) ∨ 24 ≤ reg) :
    s.registerValue reg = 0 := by
  unfold State.registerValue
  rw [if_neg (by rw [isWaveRegister_iff]; omega)]
  split
  case h_10 => rfl
  all_goals omega

/-- While the record is valid a `WF_*` register reads as its field (R30, R31). -/
theorem registerValue_record {reg : Nat} (hw : isWaveRegister reg = true) (hv : s.wfValid = true) :
    s.registerValue reg = s.wf.register reg := by
  unfold State.registerValue
  rw [if_pos hw, if_pos hv]

theorem step_read_specified {reg : Nat} {rest : List HostAction} (hh : s.host = .rd reg :: rest)
    (h : isWaveRegister reg = true → s.wfValid = true) :
    step s = .next { s with host := rest, seen := s.registerValue reg :: s.seen } := by
  rw [step_read hh, readRegister_specified (s := s.withHost rest) h]
  rfl

end Sys2Proof.Machine

namespace Sys2Proof
open Sys2Proof.Machine

/-- Settles O9, by the frame of the operations and the host's register write. -/
theorem operandRegistersAreTheHosts : Obligations.OperandRegistersAreTheHosts := by
  unfold Obligations.OperandRegistersAreTheHosts
  refine ⟨fun i s t h => ?_, fun s v rest => ?_⟩
  · rw [exec_frame h]
    exact ⟨rfl, rfl, rfl, rfl, rfl, rfl, rfl⟩
  · have write {reg : Nat} (hr : reg ≠ 0) (h : s.host = .wr reg v :: rest) := step_write h hr
    exact ⟨write (by decide), write (by decide), write (by decide), write (by decide), write (by decide),
      write (by decide), write (by decide)⟩

/-- Settles O13: the fields by the value of the status word, the writers by the operations' next states and by
the cases of a step. -/
theorem statusFields : Obligations.StatusFields := by
  unfold Obligations.StatusFields
  refine ⟨fun s => ?_, fun i s t h => ⟨exec_result_ne_none h, exec_tablesReady h⟩, exec_withResult,
    fun s t => step_clears_tablesReady⟩
  rw [statusWord_toNat]
  cases s.result <;> cases s.tablesReady <;> decide

/-- Settles O54: an operation commutes with any change of the operand registers it does not list. -/
theorem unlistedOperandsHaveNoEffect : Obligations.UnlistedOperandsHaveNoEffect := by
  unfold Obligations.UnlistedOperandsHaveNoEffect
  intro i s inB o0 o1 ln n spb bs s'
  let u : State := { s with
    inBase := inB, out0Base := o0, out1Base := o1, count := n, spb := spb, blksz := bs, len := ln }
  have hexec : exec i s' = mapNext (·.withUnlisted i u) (exec i s) := exec_withUnlisted i s u
  refine ⟨fun r h => by rw [hexec, h]; rfl, fun t h => ?_⟩
  rw [hexec, h, exec_frame h]
  rfl

/-- Settles O5: the step of a legal command. -/
theorem stepRunsTheDecodedCommand : Obligations.StepRunsTheDecodedCommand := by
  unfold Obligations.StepRunsTheDecodedCommand
  intro s v rest i hh hd
  exact step_command hh hd

/-- Settles O6: the word placed decodes to the operation it encodes. -/
theorem placedWordRunsNext : Obligations.PlacedWordRunsNext := by
  unfold Obligations.PlacedWordRunsNext
  intro s i
  have hw : BitVec.ofNat 32 ((encode i).toNat % 2 ^ 32) = encode i := by
    rw [Nat.mod_eq_of_lt (encode i).isLt, BitVec.ofNat_toNat, BitVec.setWidth_eq]
  have hstep := step_command (s := s.withFetchWord 32 (encode i).toNat) rfl (hw ▸ decode_encode i)
  rw [hstep, hw]
  rfl

/-- Settles O7, by the definition of the reset state. -/
theorem resetClearsTheRegisters : Obligations.ResetClearsTheRegisters := by
  unfold Obligations.ResetClearsTheRegisters
  exact ⟨rfl, rfl, rfl, rfl, rfl, rfl, rfl, rfl, rfl, rfl, rfl, rfl⟩

/-- Settles O8: the step serves the reset event. -/
theorem resetEventLeavesTheBufferSpace : Obligations.ResetEventLeavesTheBufferSpace := by
  unfold Obligations.ResetEventLeavesTheBufferSpace
  intro s rest hh
  exact ⟨(s.withHost rest).applyReset, step_action hh, rfl, rfl⟩

/-- Settles O10: the write is ignored, and the read draws nothing. -/
theorem unlistedRegistersIgnoreWritesAndReadZero : Obligations.UnlistedRegistersIgnoreWritesAndReadZero := by
  unfold Obligations.UnlistedRegistersIgnoreWritesAndReadZero
  intro s reg v rest
  have ignored (hr : reg = 1 ∨ 8 < reg) (hh : s.host = .wr reg v :: rest) : step s = .next (s.withHost rest) := by
    rw [step_write hh (by omega), writeRegister_ignored _ (by omega)]
  refine ⟨fun hr => ⟨ignored (by omega), fun hh => ?_⟩, fun hr => ignored (by omega)⟩
  rw [step_read_specified hh (by rw [isWaveRegister_iff]; omega), registerValue_unlisted _ hr]

/-- Settles O11: each listed register reads as its field, and the read draws nothing. -/
theorem registerReadsReturnTheirValues : Obligations.RegisterReadsReturnTheirValues := by
  unfold Obligations.RegisterReadsReturnTheirValues
  intro s reg v rest hh hm
  obtain ⟨rfl, hspec⟩ : s.registerValue reg = v ∧ (isWaveRegister reg = true → s.wfValid = true) := by
    rcases List.mem_append.1 hm with hm | hm
    · fin_cases hm <;> exact ⟨rfl, nofun⟩
    · split at hm
      · next hv => fin_cases hm <;> exact ⟨registerValue_record rfl hv, fun _ => hv⟩
      · cases hm
  exact step_read_specified hh hspec

/-- Settles O12: the value seen is a draw, fixed by the count of draws. -/
theorem invalidRecordReadsAreDraws : Obligations.InvalidRecordReadsAreDraws := by
  unfold Obligations.InvalidRecordReadsAreDraws
  intro s reg rest hh h16 h23 hv
  refine ⟨(WaveFormat.free s.cfg.aw s.draws).register reg, s.draws + 8, fun r => ?_⟩
  rw [step_read (s := { s with wf := r }) hh, readRegister_draw (s := State.withHost { s with wf := r } rest)
    (isWaveRegister_iff.2 ⟨h16, h23⟩) hv]
  rfl

/-- Settles O58: every register and the tables' flag are clear, and no byte is listed. -/
theorem invariantHoldsAtReset : Obligations.InvariantHoldsAtReset := by
  unfold Obligations.InvariantHoldsAtReset
  have zero_in_range : 0 < 2 ^ State.reset.cfg.aw := Nat.two_pow_pos _
  exact
    { memCanonical := rfl
      memBelow := List.forall_mem_nil _
      inBase := zero_in_range
      out0Base := zero_in_range
      out1Base := zero_in_range
      len := zero_in_range
      dataOffset := zero_in_range
      tables := fun h => absurd h Bool.false_ne_true
      record := fun h => absurd h Bool.false_ne_true }

end Sys2Proof
end

section
/-! The machine's invariant (`State.Inv`) is kept by every step: one lemma per change a step makes to the state,
then the operations, then the reset event during one of them, then the step. -/

namespace Sys2Proof.Machine

variable {i : Instr} {s t : State}

/-! ### The changes a step makes -/

section Changes
variable (hs : s.Inv)
include hs

theorem State.Inv.finish (c : ResultCode) : (s.finish c).Inv := { hs with }

theorem State.Inv.withHost (h : List HostAction) : (s.withHost h).Inv := { hs with }

theorem State.Inv.withCmd (w : Word) : (s.withCmd w).Inv := { hs with }

theorem State.Inv.withSeen (l : List Nat) : { s with seen := l }.Inv := { hs with }

theorem State.Inv.readRegister (reg : Nat) : (s.readRegister reg).Inv := { hs with }

/-- A buffer space in canonical form, with no address listed that neither exists nor was listed before. -/
theorem State.Inv.withMem {m : Memory} (hwf : m.wf = true) (hm : ∀ c ∈ m, c.1 < 2 ^ s.cfg.aw ∨ c ∈ s.mem) :
    (s.withMem m).Inv :=
  { hs with
    memCanonical := hwf
    memBelow := fun c hc => (hm c hc).elim id (hs.memBelow c) }

/-- INIT_TABLES fills the tables with the parameters' entries (R212). -/
theorem State.Inv.withTables : (s.withTables s.cfg.alawEntry s.cfg.ulawEntry).Inv :=
  { hs with tables := fun _ => ⟨rfl, rfl⟩ }

theorem State.Inv.withRecord {r : WaveFormat} (hr : WaveFormat.Valid s.cfg.aw r) : (s.withRecord r).Inv :=
  { hs with
    dataOffset := (Nat.le_add_right ..).trans_lt hr.fits
    record := fun _ => hr }

/-- The offset's own width bounds a lost one (R31, R138). -/
theorem State.Inv.loseRecord : s.loseRecord.Inv :=
  { hs with
    dataOffset := Nat.mod_lt _ (Nat.two_pow_pos _)
    record := nofun }

/-- The reset event marks the tables and the record as holding nothing (R38). -/
theorem State.Inv.applyReset : s.applyReset.Inv :=
  { hs with
    inBase := Nat.two_pow_pos _
    out0Base := Nat.two_pow_pos _
    out1Base := Nat.two_pow_pos _
    len := Nat.two_pow_pos _
    dataOffset := Nat.mod_lt _ (Nat.two_pow_pos _)
    tables := nofun
    record := nofun }

/-- A register write keeps the low bits (R22). -/
theorem State.Inv.writeRegister (reg v : Nat) : (s.writeRegister reg v).Inv := by
  have low_bits : v % 2 ^ s.cfg.aw < 2 ^ s.cfg.aw := Nat.mod_lt _ (Nat.two_pow_pos _)
  unfold State.writeRegister
  split
  · exact { hs with inBase := low_bits }
  · exact { hs with out0Base := low_bits }
  · exact { hs with out1Base := low_bits }
  · exact { hs with }
  · exact { hs with }
  · exact { hs with }
  · exact { hs with len := low_bits }
  · exact hs

end Changes

/-! ### The operations -/

/-- What a parse returns is a record R133 allows. -/
theorem parseHeader_valid {aw : Nat} {m : Memory} {buf len : Nat} {r : WaveFormat}
    (h : parseHeader aw m buf len = some r) : WaveFormat.Valid aw r := by
  obtain ⟨-, found, hgood, hrecord⟩ := parseHeader_good h
  exact (record_valid hgood hrecord).1

/-- An accepted decoder writes below `2^AW`, since the host keeps its duties (R62). -/
theorem State.Inv.accepted (hs : s.Inv) (hd : isDecoder i = true) (hk : s.KeepsDuties i) : (s.accepted i).Inv := by
  have hmem : (s.withMem (s.accepted i).mem).Inv :=
    hs.withMem (accepted_wf i hs.memCanonical) fun c hc =>
      (mem_accepted hd hc).imp_left fun hw => (hk.writesAllocated c.1 hw).1
  rw [accepted_frame]
  exact { hmem with }

theorem exec_keeps_inv (hs : s.Inv) (h : exec i s = .next t) : t.Inv := by
  by_cases hd : isDecoder i = true
  · obtain ⟨-, ⟨-, rfl⟩ | ⟨-, hk, rfl⟩⟩ := exec_decoder_cases hd h
    · exact hs.finish _
    · exact hs.accepted hd hk
  · cases i with
    | initTables => cases h; exact hs.withTables.finish _
    | parseHeader =>
      obtain ⟨r, hp, rfl⟩ | ⟨-, rfl⟩ := exec_parseHeader_cases h
      · exact (hs.withRecord (parseHeader_valid hp)).finish _
      · exact hs.loseRecord.finish _
    | _ => exact absurd rfl hd

/-- An operation that ends OK writes only bytes that exist and are allocated (R62). -/
theorem exec_ok_writes_allocated {a : Nat} (h : exec i s = .next t) (hok : t.result = .ok)
    (hw : s.WritesByte i a) : Allocated s.cfg a := by
  obtain ⟨-, ⟨-, rfl⟩ | ⟨-, hk, -⟩⟩ := exec_decoder_cases hw.1 h
  · cases hok
  · exact hk.writesAllocated a hw

/-! ### The step -/

/-- A reset during an operation loses bytes below `2^AW` alone, those the operation would have written (R300). -/
theorem State.Inv.cutShort {c : ResultCode} (hs : s.Inv)
    (hw : c = .ok → ∀ a, s.WritesByte i a → Allocated s.cfg a) : (s.cutShort i c).Inv := by
  obtain ⟨k, hframe⟩ := cutShort_frame s i c
  have hreset : { s with draws := k }.applyReset.Inv :=
    State.Inv.applyReset { hs with }
  rw [hframe]
  exact hreset.withMem (cutShort_wf i c hs.memCanonical) fun x hx =>
    (mem_cutShort hx).imp_left fun ⟨hok, hwrites⟩ => (hw hok x.1 hwrites).1

theorem State.Inv.storeBytes (hs : s.Inv) {a : Nat} {bytes : List Byte}
    (hb : Region.below ⟨a, bytes.length⟩ s.cfg.aw = true) : (s.withMem (s.mem.writeBytes a bytes)).Inv :=
  hs.withMem (Memory.wf_writeBytes hs.memCanonical a bytes) fun c hc =>
    (Memory.mem_writeBytes hc).imp_left ((Region.below_iff _ _).1 hb c.1)

theorem step_keeps_inv (hs : s.Inv) (h : step s = .next t) : t.Inv := by
  obtain ⟨-, rfl⟩ | ⟨rest, h⟩ := step_cases h
  · exact hs
  have hs' := hs.withHost rest
  obtain ⟨v, i, -, -, he⟩ | ⟨v, r, -, -, rfl⟩ | ⟨reg, v, -, -, rfl⟩ | ⟨reg, -, rfl⟩ | ⟨a, bytes, -, hb, rfl⟩ |
    ⟨a, n, -, rfl⟩ | ⟨-, rfl⟩ | ⟨v, r, -, -, rfl⟩ | ⟨v, i, u, -, -, he, rfl⟩ := h
  · exact exec_keeps_inv (hs'.withCmd _) he
  · exact (hs'.withCmd _).finish _
  · exact hs'.writeRegister reg v
  · exact hs'.readRegister reg
  · exact hs'.storeBytes hb
  · exact hs'.withSeen _
  · exact hs'.applyReset
  · exact hs'.applyReset
  · exact hs'.cutShort fun hok a hw =>
      exec_ok_writes_allocated (s := (s.withHost rest).withCmd (BitVec.ofNat 32 v)) he hok hw

end Sys2Proof.Machine

namespace Sys2Proof
open Sys2Proof.Machine

/-- Settles O59, by the cases of a step. -/
theorem everyStepKeepsTheInvariant : Obligations.EveryStepKeepsTheInvariant := by
  unfold Obligations.EveryStepKeepsTheInvariant
  intro s t hs h
  exact step_keeps_inv hs h

end Sys2Proof
end

section
/-! The buffer space (spec/20_memory.md): little-endian bytes (R63), the host's own accesses (R61), the duties
under which a decoder runs (R62, R72), and the frame of every operation (R64, R311). -/

namespace Sys2Proof.Machine

variable {i : Instr} {s t : State} {rest : List HostAction} {a n : Nat}

/-! ### Bytes -/

/-- Byte `k` of a little-endian write is byte `k` of the value (R63). -/
theorem Memory.read_writeLE (m : Memory) (a n v k : Nat) (hk : k < n) :
    ((m.writeLE a n v).read (a + k)).toNat = v / 256 ^ k % 256 := by
  induction n generalizing m a v k with
  | zero => omega
  | succ n ih =>
    rw [Memory.writeLE]
    cases k with
    | zero =>
      rw [Nat.add_zero a, Memory.read_writeLE_outside _ _ _ _ (fun h => absurd h.1 (by omega)),
        Memory.read_write_same, BitVec.toNat_ofNat, pow_zero, Nat.div_one]
    | succ k =>
      rw [Nat.add_comm k, ← Nat.add_assoc, ih _ _ _ k (by omega), Nat.div_div_eq_div_mul, Nat.add_comm 1,
        pow_succ']

theorem Memory.readLE_one (m : Memory) (a : Nat) : m.readLE a 1 = (m.read a).toNat := rfl

/-! ### The host's accesses -/

theorem Region.below_span_iff {aw : Nat} : Region.below ⟨a, n⟩ aw = true ↔ n = 0 ∨ a + n ≤ 2 ^ aw := by
  simp [Region.below]

theorem withinSpace_eq_next (h : a + n ≤ 2 ^ s.cfg.aw) : withinSpace s a n t = .next t :=
  withinSpace_eq_next_iff.2 ⟨Region.below_span_iff.2 (.inr h), rfl⟩

theorem withinSpace_eq_fault (hn : 0 < n) (h : 2 ^ s.cfg.aw < a + n) :
    withinSpace s a n t = .fault .noSuchAddress := by
  rw [withinSpace, if_neg]
  rw [Region.below_span_iff]
  omega

/-! ### The operations -/

/-- The `WF_*` registers change under PARSE_HEADER alone (R31). -/
theorem exec_keeps_record (h : exec i s = .next t) (hi : i ≠ .parseHeader) :
    t.wf = s.wf ∧ t.wfValid = s.wfValid ∧ t.draws = s.draws := by
  obtain ⟨-, rfl⟩ | ⟨rfl, -⟩ | ⟨-, rfl | rfl⟩ := exec_next_cases h
  · exact ⟨rfl, rfl, rfl⟩
  · exact absurd rfl hi
  · exact ⟨rfl, rfl, rfl⟩
  · rw [accepted_frame]
    exact ⟨rfl, rfl, rfl⟩

/-- The tables change under INIT_TABLES alone (R32). -/
theorem exec_keeps_tables (h : exec i s = .next t) (hi : i ≠ .initTables) :
    t.alawTab = s.alawTab ∧ t.ulawTab = s.ulawTab ∧ t.tablesReady = s.tablesReady := by
  obtain ⟨rfl, -⟩ | ⟨-, ⟨r, rfl⟩ | rfl⟩ | ⟨-, rfl | rfl⟩ := exec_next_cases h
  · exact absurd rfl hi
  · exact ⟨rfl, rfl, rfl⟩
  · exact ⟨rfl, rfl, rfl⟩
  · exact ⟨rfl, rfl, rfl⟩
  · rw [accepted_frame]
    exact ⟨rfl, rfl, rfl⟩

/-- The accepted run of a decoder is the only next state in which a channel or a byte can differ (R34, R64). -/
theorem exec_mem_channels_cases (h : exec i s = .next t) :
    (t.mem = s.mem ∧ t.ch0 = s.ch0 ∧ t.ch1 = s.ch1) ∨ (isDecoder i = true ∧ t = s.accepted i) := by
  obtain ⟨-, rfl⟩ | ⟨-, ⟨r, rfl⟩ | rfl⟩ | ⟨hd, rfl | rfl⟩ := exec_next_cases h
  · exact .inl ⟨rfl, rfl, rfl⟩
  · exact .inl ⟨rfl, rfl, rfl⟩
  · exact .inl ⟨rfl, rfl, rfl⟩
  · exact .inl ⟨rfl, rfl, rfl⟩
  · exact .inr ⟨hd, rfl⟩

theorem exec_keeps_ch0 (h : exec i s = .next t) (hi : isAdpcm i = false) : t.ch0 = s.ch0 := by
  obtain ⟨-, hch0, -⟩ | ⟨-, rfl⟩ := exec_mem_channels_cases h
  · exact hch0
  · exact accepted_ch0 s hi

theorem exec_keeps_ch1 (h : exec i s = .next t) (hi : i ≠ .imaS) : t.ch1 = s.ch1 := by
  obtain ⟨-, -, hch1⟩ | ⟨-, rfl⟩ := exec_mem_channels_cases h
  · exact hch1
  · exact accepted_ch1 s hi

theorem exec_read_outside (h : exec i s = .next t) (ha : ¬ s.WritesByte i a) : t.mem.read a = s.mem.read a := by
  obtain ⟨hmem, -, -⟩ | ⟨hd, rfl⟩ := exec_mem_channels_cases h
  · rw [hmem]
  · exact accepted_read_outside hd ha

end Sys2Proof.Machine

namespace Sys2Proof
open Sys2Proof.Machine

/-- Settles O51, by induction on the number of bytes written. -/
theorem littleEndianReadAfterWrite : Obligations.LittleEndianReadAfterWrite := by
  unfold Obligations.LittleEndianReadAfterWrite
  intro m a n v
  exact ⟨Memory.readLE_writeLE m a n v, Memory.read_writeLE m a n v,
    fun x => Memory.read_writeLE_outside m a n v⟩

/-- Settles O52: an access whose span ends at or below `2^AW` has its effect, one that reaches past it faults. -/
theorem hostAccessesTheBufferSpace : Obligations.HostAccessesTheBufferSpace := by
  unfold Obligations.HostAccessesTheBufferSpace
  intro s a rest
  refine ⟨fun bytes hh hend => ?_, fun bytes hh hne hend => ?_, fun hh hend => ?_, fun hh hend => ?_,
    fun hh hend => ?_, fun hh hend => ?_⟩
  · refine ⟨(s.withHost rest).withMem (s.mem.writeBytes a bytes), ?_, rfl,
      Memory.read_writeBytes s.mem a bytes, fun x => Memory.read_writeBytes_outside s.mem a bytes⟩
    rw [step_action hh]
    exact withinSpace_eq_next hend
  · rw [step_action hh]
    exact withinSpace_eq_fault (List.length_pos_iff.2 hne) hend
  · rw [step_action hh]
    exact withinSpace_eq_next hend
  · rw [step_action hh, ← Memory.readLE_one]
    exact withinSpace_eq_next hend
  · rw [step_action hh]
    exact withinSpace_eq_fault (by decide) (Nat.lt_succ_of_le hend)
  · rw [step_action hh]
    exact withinSpace_eq_fault (by decide) hend

/-- Settles O18: a decoder with valid arguments answers as its footprint is refused or not. -/
theorem decodersRunExactlyUnderTheDuties : Obligations.DecodersRunExactlyUnderTheDuties := by
  unfold Obligations.DecodersRunExactlyUnderTheDuties
  intro i s hd hready hv
  have hkeeps := decoder_refusal_iff s i hd hv.spbPositive
  rw [exec_decoder_valid hd hready hv]
  refine ⟨?_, fun hbroken => ?_⟩
  · simp only [underDuties_eq_next_iff, exists_and_left, exists_eq, and_true, hkeeps]
  · obtain ⟨r, hr⟩ := Option.ne_none_iff_exists'.1 (mt hkeeps.1 hbroken)
    simp only [underDuties_eq_refused_iff, hr, Option.some.injEq]
    exact decoder_refusal_cases hd hv.spbPositive hr

/-- Settles O53, by the frame of the operations and the next states of each kind of them. -/
theorem operationsKeepToTheirOutputs : Obligations.OperationsKeepToTheirOutputs := by
  unfold Obligations.OperationsKeepToTheirOutputs
  intro i s t h
  have hframe := exec_frame h
  refine ⟨?_, ?_, ?_, ?_, ?_, ?_, ?_, ?_, ?_, ?_, ?_, exec_keeps_record h, exec_keeps_tables h,
    exec_keeps_ch0 h, exec_keeps_ch1 h, fun a => exec_read_outside h⟩
  all_goals rw [hframe]

end Sys2Proof
end

section
/-! The decoder and the opcode map (spec/30_encoding.md): each unit's decoder answers the operation whose opcode
is the command word's value (R91, R93), so a word is legal exactly when its fields are well formed (R96). -/

namespace Sys2Proof

variable {i : Instr} {w : Word}

/-! ### The fields of a word -/

/-- The command word with these fields, as a number (R90). -/
def CmdFields.value (c : CmdFields) : Nat :=
  c.zero.toNat * 256 + c.unit.toNat * 32 + c.z4.toNat * 16 + c.fmt.toNat * 2 + c.st.toNat

theorem CmdFields.func_toNat (c : CmdFields) : c.func.toNat = c.z4.toNat * 16 + c.fmt.toNat * 2 + c.st.toNat := by
  have hfmt := c.fmt.isLt
  have hst := c.st.isLt
  rw [CmdFields.func, BitVec.toNat_append, BitVec.toNat_append, ← Nat.shiftLeft_add_eq_or_of_lt hst,
    ← Nat.shiftLeft_add_eq_or_of_lt hfmt]
  omega

theorem splitCmd_zero_toNat (w : Word) : (splitCmd w).zero.toNat = w.toNat / 256 := by
  have hw := w.isLt
  simp [splitCmd, Nat.shiftRight_eq_div_pow]
  omega

theorem splitCmd_unit_toNat (w : Word) : (splitCmd w).unit.toNat = w.toNat / 32 % 8 := by
  simp [splitCmd, Nat.shiftRight_eq_div_pow]

theorem splitCmd_z4_toNat (w : Word) : (splitCmd w).z4.toNat = w.toNat / 16 % 2 := by
  simp [splitCmd, Nat.shiftRight_eq_div_pow]

theorem splitCmd_fmt_toNat (w : Word) : (splitCmd w).fmt.toNat = w.toNat / 2 % 8 := by
  simp [splitCmd, Nat.shiftRight_eq_div_pow]

theorem splitCmd_st_toNat (w : Word) : (splitCmd w).st.toNat = w.toNat % 2 := by
  simp [splitCmd]

theorem splitCmd_func_toNat (w : Word) : (splitCmd w).func.toNat = w.toNat % 32 := by
  rw [CmdFields.func_toNat, splitCmd_z4_toNat, splitCmd_fmt_toNat, splitCmd_st_toNat]
  omega

theorem splitCmd_value (w : Word) : (splitCmd w).value = w.toNat := by
  rw [CmdFields.value, splitCmd_zero_toNat, splitCmd_unit_toNat, splitCmd_z4_toNat, splitCmd_fmt_toNat,
    splitCmd_st_toNat]
  omega

theorem CmdFields.fmtOk_iff (c : CmdFields) : c.fmtOk = true ↔
    (c.unit.toNat = 1 → c.fmt.toNat < 6) ∧ (c.unit.toNat = 2 → c.fmt.toNat < 2) ∧
      (c.unit.toNat = 3 → c.fmt.toNat < 1) := by
  have hfmt : c.fmt.toNat < 8 := c.fmt.isLt
  rw [fmtOk, decide_eq_true_iff]
  split
  case h_4 => simp only [imp_false] at *; omega
  all_goals omega

/-- The five conditions on the fields, whose failures are the five classes of R96. -/
theorem CmdFields.wellFormed_iff (c : CmdFields) : c.wellFormed = true ↔
    c.zero = 0 ∧ c.unit.toNat < 4 ∧ (c.unit.toNat = 0 ∨ c.z4 = 0) ∧
      ((c.unit.toNat = 1 → c.fmt.toNat < 6) ∧ (c.unit.toNat = 2 → c.fmt.toNat < 2) ∧
        (c.unit.toNat = 3 → c.fmt.toNat < 1)) ∧
      (c.unit.toNat = 0 → c.func = 1 ∨ c.func = 2) := by
  have hunit : c.unit = 0#3 ↔ c.unit.toNat = 0 := BitVec.toNat_inj.symm
  simp only [wellFormed, Bool.and_eq_true, fmtOk_iff, and_assoc]
  simp [zeroOk, unitOk, z4Ok, funcOk, hunit, or_assoc, imp_iff_not_or]

/-- Well-formedness in the bits of the word (R90, R91). -/
theorem splitCmd_wellFormed_iff (w : Word) : (splitCmd w).wellFormed = true ↔
    w.toNat / 256 = 0 ∧ w.toNat / 32 % 8 < 4 ∧ (w.toNat / 32 % 8 = 0 ∨ w.toNat / 16 % 2 = 0) ∧
      ((w.toNat / 32 % 8 = 1 → w.toNat / 2 % 8 < 6) ∧ (w.toNat / 32 % 8 = 2 → w.toNat / 2 % 8 < 2) ∧
        (w.toNat / 32 % 8 = 3 → w.toNat / 2 % 8 < 1)) ∧
      (w.toNat / 32 % 8 = 0 → w.toNat % 32 = 1 ∨ w.toNat % 32 = 2) := by
  rw [CmdFields.wellFormed_iff]
  simp only [← BitVec.toNat_inj, splitCmd_zero_toNat, splitCmd_unit_toNat, splitCmd_z4_toNat, splitCmd_fmt_toNat,
    splitCmd_func_toNat]
  rfl

/-! ### The units -/

@[simp] theorem toOption_error (r : IllegalCmd) : (Except.error r : Except IllegalCmd Instr).toOption = none := rfl

theorem opcode_byLayout {mono stereo : Instr} (h : stereo.opcode = mono.opcode + 1) (st : BitVec 1) :
    (byLayout st mono stereo).opcode = mono.opcode + st.toNat := by
  obtain rfl | rfl := BitVec.eq_zero_or_eq_one st
  · rfl
  · exact h

/-- The units of R91: what each accepts, and the opcode of what it answers. -/
theorem opcode_decodeSys (func : BitVec 5) :
    (decodeSys func).toOption.map Instr.opcode = if func = 1 ∨ func = 2 then some func.toNat else none := by
  unfold decodeSys
  split
  · next h =>
    obtain rfl : func = 1 := BitVec.toNat_inj.1 h
    rfl
  · next h =>
    obtain rfl : func = 2 := BitVec.toNat_inj.1 h
    rfl
  · next h1 h2 =>
    rw [if_neg]
    · rfl
    · rintro (rfl | rfl)
      · exact h1 rfl
      · exact h2 rfl

theorem opcode_decodeLin (fmt : BitVec 3) (st : BitVec 1) :
    (decodeLin fmt st).toOption.map Instr.opcode =
      if fmt.toNat < 6 then some (0x20 + fmt.toNat * 2 + st.toNat) else none := by
  unfold decodeLin
  split
  case h_7 => rw [if_neg]; exacts [rfl, by simp only [imp_false] at *; omega]
  all_goals
    next h =>
    rw [if_pos (by omega), h]
    exact congrArg some (opcode_byLayout rfl st)

theorem opcode_decodeLaw (fmt : BitVec 3) (st : BitVec 1) :
    (decodeLaw fmt st).toOption.map Instr.opcode =
      if fmt.toNat < 2 then some (0x40 + fmt.toNat * 2 + st.toNat) else none := by
  unfold decodeLaw
  split
  case h_3 => rw [if_neg]; exacts [rfl, by simp only [imp_false] at *; omega]
  all_goals
    next h =>
    rw [if_pos (by omega), h]
    exact congrArg some (opcode_byLayout rfl st)

theorem opcode_decodeAdpcm (fmt : BitVec 3) (st : BitVec 1) :
    (decodeAdpcm fmt st).toOption.map Instr.opcode =
      if fmt.toNat < 1 then some (0x60 + fmt.toNat * 2 + st.toNat) else none := by
  unfold decodeAdpcm
  split
  case h_2 h => rw [if_neg]; exacts [rfl, fun hlt => h (by omega)]
  next h =>
    rw [if_pos (by omega), h]
    exact congrArg some (opcode_byLayout rfl st)

/-! ### The decoder -/

/-- The decoder accepts exactly the well-formed fields, and answers the operation whose opcode they spell. -/
theorem opcode_decodeFields (c : CmdFields) :
    (decodeFields c).toOption.map Instr.opcode = if c.wellFormed = true then some c.value else none := by
  rw [if_congr c.wellFormed_iff rfl rfl]
  unfold decodeFields
  by_cases hz : c.zero = 0
  · rw [if_neg (not_not.2 hz)]
    split
    · next hu => rw [opcode_decodeSys, c.func_toNat]; simp [hz, hu, CmdFields.value]
    · next hu => split <;> simp_all [CmdFields.value, opcode_decodeLin]
    · next hu => split <;> simp_all [CmdFields.value, opcode_decodeLaw]
    · next hu => split <;> simp_all [CmdFields.value, opcode_decodeAdpcm]
    · rw [if_neg]; exacts [rfl, by simp only [imp_false] at *; omega]
  · rw [if_pos hz, if_neg (fun h => hz h.1)]; rfl

theorem opcode_decode (w : Word) :
    (decode w).toOption.map Instr.opcode = if (splitCmd w).wellFormed = true then some w.toNat else none := by
  rw [decode, opcode_decodeFields, splitCmd_value]

/-- The decoder and the encoder are inverse to each other (R90, R93). -/
theorem decode_eq_ok_iff : decode w = .ok i ↔ w = encode i := by
  refine ⟨fun h => ?_, fun h => h ▸ Machine.decode_encode i⟩
  have hop := opcode_decode w
  rw [h] at hop
  split at hop
  · have hvalue : i.opcode = w.toNat := Option.some.inj hop
    rw [encode, hvalue, BitVec.ofNat_toNat, BitVec.setWidth_eq]
  · cases hop

/-- A word is legal exactly when its fields are well formed (R96). -/
theorem exists_decode_eq_ok_iff : (∃ i, decode w = .ok i) ↔ (splitCmd w).wellFormed = true := by
  have hop := opcode_decode w
  cases hd : decode w with
  | ok i =>
    rw [hd] at hop
    split at hop
    · next hwf => exact ⟨fun _ => hwf, fun _ => ⟨i, rfl⟩⟩
    · cases hop
  | error r =>
    rw [hd] at hop
    split at hop
    · cases hop
    · next hwf => exact ⟨nofun, fun h => absurd h hwf⟩

/-- The host's reading of a 32-bit word is the decoder's (R90). -/
theorem decodeTableWord_toNat (w : Word) : decodeTableWord 32 w.toNat = (decode w).toOption := by
  rw [decodeTableWord, Nat.mod_eq_of_lt w.isLt, BitVec.ofNat_toNat, BitVec.setWidth_eq]
  cases decode w <;> rfl

end Sys2Proof

namespace Sys2Proof
open Sys2Proof.Machine

/-- Settles O1: an operation is answered on its encoding alone, which is its row of the table. -/
theorem decodeAcceptsExactlyTheOpcodeMap : Obligations.DecodeAcceptsExactlyTheOpcodeMap := by
  unfold Obligations.DecodeAcceptsExactlyTheOpcodeMap
  intro w i
  rw [decode_eq_ok_iff]
  constructor
  · rintro rfl
    cases i <;> decide
  · intro h
    fin_cases h <;> rfl

/-- Settles O4: R96's classes are the ways the fields are ill formed, and the step is that of an illegal command. -/
theorem illegalCommandIsANoOp : Obligations.IllegalCommandIsANoOp := by
  unfold Obligations.IllegalCommandIsANoOp
  intro s v rest hh
  constructor
  · rw [exists_decode_eq_ok_iff, splitCmd_wellFormed_iff, BitVec.toNat_ofNat]
    omega
  · intro hd
    cases hr : decode (BitVec.ofNat 32 v) with
    | ok i => exact absurd hr (hd i)
    | error r => exact step_illegal hh hr

/-- Settles O2, by the decoder on each encoding; the host's reading is the decoder's. -/
theorem decodeOfEncodeIsTheInstruction : Obligations.DecodeOfEncodeIsTheInstruction := by
  unfold Obligations.DecodeOfEncodeIsTheInstruction
  intro i
  refine ⟨decode_encode i, ?_⟩
  rw [decodeTableWord_toNat, decode_encode]
  rfl

/-- Settles O3: the five words are the encodings of those operations. -/
theorem writtenOutWordsDecode : Obligations.WrittenOutWordsDecode := by
  unfold Obligations.WrittenOutWordsDecode
  exact ⟨decode_encode .initTables, decode_encode .parseHeader, decode_encode .s24S, decode_encode .ulawM,
    decode_encode .imaS⟩

end Sys2Proof
end

section
/-! PARSE_HEADER (spec/40_header_parser.md): the checks before the walk (R122, R124), one chunk (R126 to R131), one
turn of the walk (R125, R132, R133), and what a walk depends on: the offsets of the buffer that fit the width, the
bytes from offset 12 on, and no more fuel than R136 allows. -/

namespace Sys2Proof.Machine

variable {aw aw' buf len off fuel fuel' : Nat} {m m' : Memory} {found found' : Found} {s : State}

/-- A tag depends on its own bytes alone. -/
theorem Memory.tag_congr {a : Nat} (h : ∀ x, InSpan a 4 x → m.read x = m'.read x) : m.tag a = m'.tag a := by
  rw [Memory.tag, Memory.tag, h a ⟨by omega, by omega⟩, h (a + 1) ⟨by omega, by omega⟩,
    h (a + 2) ⟨by omega, by omega⟩, h (a + 3) ⟨by omega, by omega⟩]

/-! ### The checks before the walk -/

theorem tooShort_iff : tooShort buf len = true ↔ buf = 0 ∨ len < 44 := by
  simp only [tooShort, Bool.or_eq_true, beq_iff_eq, decide_eq_true_eq]
  rfl

/-- What R122 and R124 ask of a buffer before its chunks are walked. -/
structure Preamble (m : Memory) (buf len : Nat) : Prop where
  present : buf ≠ 0
  long : 44 ≤ len
  riff : m.tag buf = tagRiff
  wave : m.tag (buf + 8) = tagWave
  sizeAtLeast : 36 ≤ m.readLE (buf + 4) 4
  sizeAtMost : m.readLE (buf + 4) 4 ≤ len - 8

theorem parseHeader_of_preamble (h : Preamble m buf len) :
    parseHeader aw m buf len = walk aw m buf len (walkBound len) 12 { fmt := none, data := none } := by
  have hshort : ¬ tooShort buf len = true := by
    have := h.present
    have := h.long
    rw [tooShort_iff]
    omega
  have hsize : ¬ (m.readLE (buf + 4) 4 < 36 ∨ len - 8 < m.readLE (buf + 4) 4) := by
    have := h.sizeAtLeast
    have := h.sizeAtMost
    omega
  simp only [parseHeader, hshort, h.riff, h.wave, hsize, ne_eq, not_true_eq_false, or_self, if_false,
    Bool.false_eq_true]

theorem preamble_of_parseHeader {r : WaveFormat} (h : parseHeader aw m buf len = some r) : Preamble m buf len := by
  simp only [parseHeader] at h
  split at h
  · cases h
  next hshort =>
  split at h
  · cases h
  next htags =>
  split at h
  · cases h
  next hsize =>
  rw [tooShort_iff] at hshort
  push Not at hshort htags hsize
  obtain ⟨⟨hpresent, hlong⟩, ⟨hriff, hwave⟩, hge, hle⟩ := And.intro hshort (And.intro htags hsize)
  exact ⟨hpresent, hlong, hriff, hwave, hge, hle⟩

theorem parseHeader_eq_none (h : ¬ Preamble m buf len) : parseHeader aw m buf len = none :=
  Option.eq_none_iff_forall_ne_some.2 fun _ hr => h (preamble_of_parseHeader hr)

/-! ### One chunk -/

/-- The chunk is over the ceiling, or runs past `AW` bits or past the buffer (R126). -/
abbrev Rejected (aw len off size : Nat) : Prop :=
  chunkMax < size ∨ 2 ^ aw ≤ off + 8 + size ∨ len < off + 8 + size

/-- A `fmt ` payload is at least 16 bytes and its fields pass (R128 to R130). -/
abbrev FmtPasses (m : Memory) (buf off : Nat) : Prop :=
  16 ≤ m.readLE (buf + off + 4) 4 ∧ (m.fmtFields (buf + off + 8)).accepted = true

theorem not_rejected {size : Nat} (hmax : size ≤ 104857600) (haw : off + 8 + size < 2 ^ aw)
    (hlen : off + 8 + size ≤ len) : ¬ Rejected aw len off size := by
  rw [Rejected, chunkMax]
  omega

theorem chunk_rejected (hr : Rejected aw len off (m.readLE (buf + off + 4) 4)) :
    chunk aw m buf len off found =
      if m.tag (buf + off) = tagFmt ∨ m.tag (buf + off) = tagData then none else some found :=
  if_pos hr

theorem chunk_skipped (hkey : ¬ (m.tag (buf + off) = tagFmt ∨ m.tag (buf + off) = tagData)) :
    chunk aw m buf len off found = some found := by
  obtain ⟨hfmt, hdata⟩ := not_or.1 hkey
  simp only [chunk, hfmt, hdata, or_self, if_false, ite_self]

theorem chunk_fmt (hr : ¬ Rejected aw len off (m.readLE (buf + off + 4) 4)) (htag : m.tag (buf + off) = tagFmt) :
    chunk aw m buf len off found =
      if FmtPasses m buf off then some { found with fmt := some (m.fmtFields (buf + off + 8)) } else none := by
  rw [chunk, if_neg hr, if_pos htag, ite_and]
  by_cases hsize : m.readLE (buf + off + 4) 4 < 16
  · rw [if_pos hsize, if_neg (not_le.2 hsize)]
  · rw [if_neg hsize, if_pos (not_lt.1 hsize)]

theorem chunk_data (hr : ¬ Rejected aw len off (m.readLE (buf + off + 4) 4)) (htag : m.tag (buf + off) = tagData) :
    chunk aw m buf len off found =
      some { found with data := some { doff := off + 8, dlen := m.readLE (buf + off + 4) 4 } } := by
  have hfmt : m.tag (buf + off) ≠ tagFmt := htag ▸ by decide
  rw [chunk, if_neg hr, if_neg hfmt, if_pos htag]

/-- A `fmt ` chunk that is rejected or does not pass is fatal (R127 to R130). -/
theorem chunk_fmt_eq_none (htag : m.tag (buf + off) = tagFmt) (hbad : ¬ FmtPasses m buf off) :
    chunk aw m buf len off found = none := by
  by_cases hr : Rejected aw len off (m.readLE (buf + off + 4) 4)
  · rw [chunk_rejected hr, if_pos (.inl htag)]
  · rw [chunk_fmt hr htag, if_neg hbad]

/-- R128 to R130 as the causes of failure they list. -/
theorem not_fmtPasses_iff : ¬ FmtPasses m buf off ↔
    let f := m.fmtFields (buf + off + 8)
    m.readLE (buf + off + 4) 4 < 16 ∨ f.ch = 0 ∨ 8 < f.ch ∨ f.rate = 0 ∨ 384000 < f.rate ∨ f.balign = 0 ∨
      f.bits = 0 ∨ 64 < f.bits ∨
      (f.fmt = 1 ∧ (f.balign ≠ (f.ch * f.bits + 7) / 8 ∨ f.brate ≠ f.rate * f.balign)) := by
  simp only [FmtPasses, FmtFields.accepted_iff]
  omega

/-! ### One turn of the walk -/

theorem Found.record_ne_none_iff : found.record ≠ none ↔ found.fmt ≠ none ∧ found.data ≠ none := by
  obtain ⟨fmt, data⟩ := found
  cases fmt <;> cases data <;> simp [Found.record]

theorem Found.record_eq_none_iff : found.record = none ↔ found.fmt = none ∨ found.data = none := by
  rw [← not_iff_not, not_or]
  exact Found.record_ne_none_iff

theorem walk_of_chunk_none (haw : off + 8 < 2 ^ aw) (hlen : off + 8 ≤ len)
    (hc : chunk aw m buf len off found = none) : walk aw m buf len (fuel + 1) off found = none := by
  rw [walk_succ haw hlen, hc]

theorem walk_of_chunk_some (haw : off + 8 < 2 ^ aw) (hlen : off + 8 ≤ len)
    (hc : chunk aw m buf len off found = some found') :
    walk aw m buf len (fuel + 1) off found =
      if found'.record ≠ none then found'.record
      else if nextChunk off (m.readLE (buf + off + 4) 4) < 2 ^ aw then
        walk aw m buf len fuel (nextChunk off (m.readLE (buf + off + 4) 4)) found'
      else none := by
  have hboth : (found'.fmt.isSome && found'.data.isSome) = true ↔ found'.record ≠ none := by
    rw [Found.record_ne_none_iff, Bool.and_eq_true, Option.isSome_iff_ne_none, Option.isSome_iff_ne_none]
  rw [walk_succ haw hlen, hc]
  simp only [hboth, ← not_lt, ite_not]

theorem walk_goes_on (haw : off + 8 < 2 ^ aw) (hlen : off + 8 ≤ len)
    (hc : chunk aw m buf len off found = some found') (hnone : found'.record = none)
    (hnext : nextChunk off (m.readLE (buf + off + 4) 4) < 2 ^ aw) :
    walk aw m buf len (fuel + 1) off found =
      walk aw m buf len fuel (nextChunk off (m.readLE (buf + off + 4) 4)) found' := by
  rw [walk_of_chunk_some haw hlen hc, if_neg (not_not.2 hnone), if_pos hnext]

theorem walk_too_wide (haw : 2 ^ aw ≤ off + 8) : walk aw m buf len (fuel + 1) off found = none := if_pos haw

/-! ### What a walk depends on -/

section Agree
variable (hw : ∀ n ≤ len, n < 2 ^ aw ↔ n < 2 ^ aw')
  (hm : ∀ a, InSpan (buf + 12) (len - 12) a → m.read a = m'.read a)

include hm in
theorem readLE_agree {a n : Nat} (hfrom : buf + 12 ≤ a) (hto : a + n ≤ buf + len) : m.readLE a n = m'.readLE a n :=
  Memory.readLE_congr fun x hx => hm x ⟨hfrom.trans hx.1, by have := hx.2; omega⟩

include hm in
theorem fmtFields_agree (hoff : 12 ≤ off) (hlen : off + 24 ≤ len) :
    m.fmtFields (buf + off + 8) = m'.fmtFields (buf + off + 8) := by
  rw [Memory.fmtFields, Memory.fmtFields]
  congr 1 <;> exact readLE_agree hm (by omega) (by omega)

include hw hm in
/-- Neither the width nor a byte before offset 12 or past the buffer shows in a chunk's outcome (R137, R139 o). -/
theorem chunk_agree (hoff : 12 ≤ off) (hlen : off + 8 ≤ len) :
    chunk aw m buf len off found = chunk aw' m' buf len off found := by
  have htag : m.tag (buf + off) = m'.tag (buf + off) :=
    Memory.tag_congr fun x hx => hm x ⟨by have := hx.1; omega, by have := hx.2; omega⟩
  have hsize : m.readLE (buf + off + 4) 4 = m'.readLE (buf + off + 4) 4 := readLE_agree hm (by omega) (by omega)
  have hrej : Rejected aw len off (m.readLE (buf + off + 4) 4) ↔
      Rejected aw' len off (m'.readLE (buf + off + 4) 4) := by
    have := hw (off + 8 + m.readLE (buf + off + 4) 4)
    rw [hsize] at this ⊢
    omega
  by_cases hr : Rejected aw len off (m.readLE (buf + off + 4) 4)
  · rw [chunk_rejected hr, chunk_rejected (hrej.1 hr), htag]
  by_cases hfmt : m.tag (buf + off) = tagFmt
  · rw [chunk_fmt hr hfmt, chunk_fmt (mt hrej.2 hr) (htag ▸ hfmt)]
    by_cases hlong : 16 ≤ m.readLE (buf + off + 4) 4
    · have hend : off + 8 + m.readLE (buf + off + 4) 4 ≤ len := by omega
      simp only [FmtPasses, fmtFields_agree hm hoff (by omega), hsize]
    · rw [if_neg fun h => hlong h.1, if_neg fun h => hlong (hsize ▸ h.1)]
  by_cases hdata : m.tag (buf + off) = tagData
  · rw [chunk_data hr hdata, chunk_data (mt hrej.2 hr) (htag ▸ hdata), hsize]
  · rw [chunk_skipped (not_or.2 ⟨hfmt, hdata⟩), chunk_skipped (htag ▸ not_or.2 ⟨hfmt, hdata⟩)]

include hw hm in
/-- Two walks that have not found both chunks, each with the fuel of R136, end alike. -/
theorem walk_agree (hoff : 12 ≤ off) (hnone : found.record = none) (hfuel : len < off + 8 + 8 * fuel)
    (hfuel' : len < off + 8 + 8 * fuel') :
    walk aw m buf len fuel off found = walk aw' m' buf len fuel' off found := by
  induction fuel generalizing fuel' off found with
  | zero => rw [walk_exhausted (by omega) hnone, walk_exhausted (by omega) hnone]
  | succ fuel ih =>
    by_cases hlen : len < off + 8
    · rw [walk_exhausted hlen hnone, walk_exhausted hlen hnone]
    rw [not_lt] at hlen
    obtain ⟨fuel', rfl⟩ : ∃ k, fuel' = k + 1 := ⟨fuel' - 1, by omega⟩
    by_cases haw : off + 8 < 2 ^ aw
    swap
    · rw [walk_too_wide (not_lt.1 haw), walk_too_wide (not_lt.1 (mt (hw _ hlen).2 haw))]
    have haw' := (hw _ hlen).1 haw
    have hchunk := chunk_agree (found := found) hw hm hoff hlen
    cases hc : chunk aw m buf len off found with
    | none => rw [walk_of_chunk_none haw hlen hc, walk_of_chunk_none haw' hlen (hchunk.symm.trans hc)]
    | some found' =>
      rw [walk_of_chunk_some haw hlen hc, walk_of_chunk_some haw' hlen (hchunk.symm.trans hc),
        ← readLE_agree hm (a := buf + off + 4) (n := 4) (by omega) (by omega)]
      generalize m.readLE (buf + off + 4) 4 = size
      by_cases hfound : found'.record = none
      · have hnext : off + 8 ≤ nextChunk off size := by unfold nextChunk; omega
        rw [ih (fuel' := fuel') (by omega) hfound (by omega) (by omega)]
        by_cases hin : nextChunk off size ≤ len
        · rw [if_congr (hw _ hin) rfl rfl]
        · rw [walk_exhausted (by omega) hfound, ite_self, ite_self]
      · rw [if_pos hfound, if_pos hfound]

end Agree

/-- The fuel of R136 is enough from offset 12. -/
theorem lt_walkBound (len : Nat) : len < 12 + 8 + 8 * walkBound len := by
  unfold walkBound
  omega

/-- Two parses end alike when the widths hold the same offsets of the buffer, both preambles hold or neither does,
and the bytes from offset 12 on are the same. -/
theorem parseHeader_agree (hw : ∀ n ≤ len, n < 2 ^ aw ↔ n < 2 ^ aw')
    (hm : ∀ a, InSpan (buf + 12) (len - 12) a → m.read a = m'.read a)
    (hpre : Preamble m buf len ↔ Preamble m' buf len) : parseHeader aw m buf len = parseHeader aw' m' buf len := by
  by_cases h : Preamble m buf len
  · rw [parseHeader_of_preamble h, parseHeader_of_preamble (hpre.1 h)]
    exact walk_agree hw hm (le_refl _) rfl (lt_walkBound len) (lt_walkBound len)
  · rw [parseHeader_eq_none h, parseHeader_eq_none (mt hpre.2 h)]

/-- Of the first bytes the preamble asks the tags, and of the file size its range alone (R124). -/
theorem Preamble.agree (h : Preamble m buf len)
    (hm : ∀ a, InSpan buf len a → ¬ InSpan (buf + 4) 4 a → m.read a = m'.read a)
    (hge : 36 ≤ m'.readLE (buf + 4) 4) (hle : m'.readLE (buf + 4) 4 ≤ len - 8) : Preamble m' buf len := by
  have hlong := h.long
  have htag : ∀ k, k = 0 ∨ k = 8 → m.tag (buf + k) = m'.tag (buf + k) := fun k hk =>
    Memory.tag_congr fun x ⟨hfrom, hto⟩ => hm x ⟨by omega, by omega⟩ (by omega)
  exact { h with
    riff := (htag 0 (.inl rfl)).symm.trans h.riff
    wave := (htag 8 (.inr rfl)).symm.trans h.wave
    sizeAtLeast := hge
    sizeAtMost := hle }

theorem Preamble.agree_on_buffer (h : Preamble m buf len) (hm : ∀ a, InSpan buf len a → m.read a = m'.read a) :
    Preamble m' buf len := by
  have hlong := h.long
  have hsize : m.readLE (buf + 4) 4 = m'.readLE (buf + 4) 4 := Memory.readLE_congr fun x hx => hm x (by omega)
  exact h.agree (fun a ha _ => hm a ha) (hsize ▸ h.sizeAtLeast) (hsize ▸ h.sizeAtMost)

/-! ### The command -/

theorem exec_parseHeader_fails (hruns : tooShort s.inBase s.len = true ∨ s.KeepsDuties .parseHeader)
    (hp : parseHeader s.cfg.aw s.mem s.inBase s.len = none) :
    ∃ t, exec .parseHeader s = .next t ∧ t.result = .parseFail :=
  ⟨s.parsed, exec_parseHeader_runs hruns, by simp [State.parsed, hp]⟩

theorem exec_parseHeader_ok {r : WaveFormat} (hk : s.KeepsDuties .parseHeader)
    (hp : parseHeader s.cfg.aw s.mem s.inBase s.len = some r) :
    exec .parseHeader s = .next ((s.withRecord r).finish .ok) := by
  rw [exec_parseHeader_runs (.inr hk), State.parsed, hp]

end Sys2Proof.Machine

namespace Sys2Proof
open Sys2Proof.Machine

/-- Settles O33: each cause contradicts the preamble. -/
theorem parseFailsOnBadPreamble : Obligations.ParseFailsOnBadPreamble := by
  unfold Obligations.ParseFailsOnBadPreamble
  intro s hk hbad
  refine exec_parseHeader_fails (.inr hk) (parseHeader_eq_none fun hp => ?_)
  obtain habsent | hshort | hriff | hwave := hbad
  · exact hp.present habsent
  · exact absurd hp.long (not_le.2 hshort)
  · exact hriff hp.riff
  · exact hwave hp.wave

/-- Settles O34: the preamble asks the field's range, and the walk reads from offset 12 on. -/
theorem parseFailsOnBadFileSize : Obligations.ParseFailsOnBadFileSize := by
  unfold Obligations.ParseFailsOnBadFileSize
  constructor
  · intro s hk _ hbad
    refine exec_parseHeader_fails (.inr hk) (parseHeader_eq_none fun hp => ?_)
    have := hp.sizeAtLeast
    have := hp.sizeAtMost
    omega
  · intro aw m m' buf len hlen hm hge hle hge' hle'
    refine parseHeader_agree (fun _ _ => Iff.rfl) (fun a ha => hm a ?_ ?_)
      ⟨fun h => h.agree hm hge' hle', fun h => h.agree (fun a ha hout => (hm a ha hout).symm) hge hle⟩
    all_goals omega

/-- Settles O35: the first turn of the walk meets the chunk, which is fatal whether it is rejected or not. -/
theorem parseFailsOnBadFmtChunk : Obligations.ParseFailsOnBadFmtChunk := by
  unfold Obligations.ParseFailsOnBadFmtChunk
  intro s hk hlong hlen htag size fmt ch rate brate balign bits _ hbad
  refine exec_parseHeader_fails (.inr hk) ?_
  by_cases hp : Preamble s.mem s.inBase s.len
  · rw [parseHeader_of_preamble hp, walkBound]
    exact walk_of_chunk_none (by omega) (by omega) (chunk_fmt_eq_none htag (not_fmtPasses_iff.2 hbad))
  · exact parseHeader_eq_none hp

/-- Settles O36: a rejected key chunk ends the parse, and another chunk leaves what was found as it was. -/
theorem chunkRejectionAndSkipping : Obligations.ChunkRejectionAndSkipping := by
  unfold Obligations.ChunkRejectionAndSkipping
  intro aw m buf len fuel off found haw hlen hnone size key
  have hrecord := Found.record_eq_none_iff.2 hnone
  refine ⟨fun hkey hrej => ?_, fun hkey hnext => ?_, fun hkey hnext => ?_⟩
  · exact walk_of_chunk_none haw hlen (by rw [chunk_rejected hrej, if_pos hkey])
  · exact walk_goes_on haw hlen (chunk_skipped hkey) hrecord hnext
  · rw [walk_of_chunk_some haw hlen (chunk_skipped hkey), if_neg (not_not.2 hrecord)]
    exact if_neg (not_lt.2 hnext)

/-- Settles O37: the chunk's checks, then the turn of the walk with its fields recorded. -/
theorem fmtChunksAreCheckedAndRecorded : Obligations.FmtChunksAreCheckedAndRecorded := by
  unfold Obligations.FmtChunksAreCheckedAndRecorded
  intro aw m buf len fuel off found _ htag size p fmt ch rate brate balign bits bad found' next hmax haw hlen
  have haw8 : off + 8 < 2 ^ aw := by omega
  have hlen8 : off + 8 ≤ len := by omega
  have hrej : ¬ Rejected aw len off size := not_rejected hmax haw hlen
  have hbad : ¬ FmtPasses m buf off ↔ bad := not_fmtPasses_iff
  refine ⟨fun h => walk_of_chunk_none haw8 hlen8 (chunk_fmt_eq_none htag (hbad.2 h)), fun h => ?_⟩
  have hc : chunk aw m buf len off found = some found' := by
    rw [chunk_fmt hrej htag, if_pos (not_not.1 (mt hbad.1 h))]
    rfl
  rw [walk_of_chunk_some haw8 hlen8 hc]
  exact if_congr (Found.record_ne_none_iff.trans (and_iff_right (Option.some_ne_none _))) rfl rfl

/-- Settles O38: the turn of the walk with the payload recorded. -/
theorem dataChunksAreRecorded : Obligations.DataChunksAreRecorded := by
  unfold Obligations.DataChunksAreRecorded
  intro aw m buf len fuel off found _ htag size found' next hmax haw hlen
  have hrej : ¬ Rejected aw len off size := not_rejected hmax haw hlen
  rw [walk_of_chunk_some (by omega) (by omega) (chunk_data hrej htag)]
  exact if_congr (Found.record_ne_none_iff.trans (and_iff_left (Option.some_ne_none _))) rfl rfl

/-- Settles O39: the walk turns at the `fmt ` chunk and ends at the `data` chunk. -/
theorem canonicalFileParses : Obligations.CanonicalFileParses := by
  unfold Obligations.CanonicalFileParses
  intro s hk haw hpresent hlong hriff hwave hge hle hfmt hsize hch1 hch8 hrate1 hrate hbalign hbits1 hbits hpcm hdata
    hmax hend
  obtain ⟨fuel, hfuel⟩ : ∃ k, walkBound s.len = k + 1 + 1 := ⟨walkBound s.len - 2, by unfold walkBound; omega⟩
  have hpre : Preamble s.mem s.inBase s.len := ⟨hpresent, hlong, hriff, hwave, hge, hle⟩
  have hnext : nextChunk 12 (s.mem.readLE (s.inBase + 12 + 4) 4) = 36 := congrArg (nextChunk 12) hsize
  have hrej12 : ¬ Rejected s.cfg.aw s.len 12 (s.mem.readLE (s.inBase + 16) 4) :=
    not_rejected (by omega) (by omega) (by omega)
  have hrej36 : ¬ Rejected s.cfg.aw s.len 36 (s.mem.readLE (s.inBase + 40) 4) :=
    not_rejected hmax (by omega) hend
  have hpass : FmtPasses s.mem s.inBase 12 :=
    ⟨hsize.ge, (FmtFields.accepted_iff _).2
      ⟨⟨hch1, hch8⟩, ⟨hrate1, hrate⟩, Nat.ne_zero_of_lt hbalign, ⟨hbits1, hbits⟩, hpcm⟩⟩
  have hc12 := (chunk_fmt (found := { fmt := none, data := none }) hrej12 hfmt).trans (if_pos hpass)
  refine exec_parseHeader_ok hk ?_
  rw [parseHeader_of_preamble hpre, hfuel, walk_goes_on (by omega) (by omega) hc12 rfl (by omega), hnext,
    walk_of_chunk_some (by omega) (by omega) (chunk_data hrej36 hdata)]
  rfl

/-- Settles O40: the two ends of PARSE_HEADER, when it ends, and what it is refused for. -/
theorem parseHeaderTouchesOnlyTheRecord : Obligations.ParseHeaderTouchesOnlyTheRecord := by
  unfold Obligations.ParseHeaderTouchesOnlyTheRecord
  intro s
  refine ⟨fun t h => ?_, fun hk => ⟨_, exec_parseHeader_runs (.inr hk)⟩, fun hshort => ?_,
    fun hpresent hlong ⟨a, ha, hout⟩ => exec_parseHeader_refused hpresent hlong fun hall => hout (hall a ha)⟩
  · obtain ⟨r, -, rfl⟩ | ⟨-, rfl⟩ := exec_parseHeader_cases h
    · exact .inl ⟨rfl, rfl⟩
    · exact .inr ⟨rfl, rfl⟩
  · have hs := tooShort_iff.2 hshort
    exact exec_parseHeader_fails (.inl hs) (if_pos hs)

/-- Settles O41: what the walk finds is good, and so is the record made of it. -/
theorem parsedRecordsAreValid : Obligations.ParsedRecordsAreValid := by
  unfold Obligations.ParsedRecordsAreValid
  intro s t _ h hok
  obtain ⟨r, hp, rfl⟩ | ⟨-, rfl⟩ := exec_parseHeader_cases h
  · obtain ⟨-, found, hgood, hrecord⟩ := parseHeader_good hp
    exact record_valid hgood hrecord
  · cases hok

/-- Settles O42: any two walks with the fuel of R136 agree. -/
theorem walkBoundIsEnough : Obligations.WalkBoundIsEnough := by
  unfold Obligations.WalkBoundIsEnough
  intro aw m buf len extra
  have hfuel := lt_walkBound len
  exact walk_agree (fun _ _ => Iff.rfl) (fun _ _ => rfl) (le_refl _) rfl (by omega) hfuel

/-- Settles O43: the preamble and the walk read the buffer alone. -/
theorem parseDependsOnItsBufferAlone : Obligations.ParseDependsOnItsBufferAlone := by
  unfold Obligations.ParseDependsOnItsBufferAlone
  intro aw m m' buf len hm
  refine parseHeader_agree (fun _ _ => Iff.rfl) (fun a ha => hm a ?_)
    ⟨fun h => h.agree_on_buffer hm, fun h => h.agree_on_buffer fun a ha => (hm a ha).symm⟩
  omega

/-- Settles O44: both widths hold every offset of the buffer. -/
theorem offsetWidthIsUnobservable : Obligations.OffsetWidthIsUnobservable := by
  unfold Obligations.OffsetWidthIsUnobservable
  intro aw aw' m buf len haw haw'
  exact parseHeader_agree (fun n hn => iff_of_true (hn.trans_lt haw) (hn.trans_lt haw')) (fun _ _ => rfl) Iff.rfl

end Sys2Proof
end

section
/-! What an accepted decoder writes (spec/41_linear_pcm_float.md R163, R164; spec/42_companded_law.md R220 to
R223; spec/43_ima_adpcm.md R250, R251): each output word is `State.outputSample` of its frame and side, and the
channels an ADPCM decoder leaves are those of its last frame. All of it depends on the operands, the tables and
the input bytes alone (R186, R225, R252). -/

namespace Sys2Proof.Machine

variable {i : Instr} {s t : State} {m m' : Memory} {right : Bool} {k f a : Nat}

/-- A decoder that ends OK has run: its arguments are valid, the duties kept, and it answers the accepted state. -/
theorem exec_decoder_ok (hd : isDecoder i = true) (h : exec i s = .next t) (hok : t.result = .ok) :
    (isLaw i = true → s.tablesReady = true) ∧ s.ValidArgs i ∧ s.KeepsDuties i ∧ t = s.accepted i := by
  obtain ⟨hready, ⟨-, rfl⟩ | haccepted⟩ := exec_decoder_cases hd h
  · cases hok
  · exact ⟨hready, haccepted⟩

/-! ### The input of a frame -/

theorem inputSpans_sample (s : State) (hd : isDecoder i = true) (ha : isAdpcm i = false) :
    s.inputSpans i = (s.sampleFootprint (s.element i).1 (isStereo i)).reads := by
  cases i with
  | initTables | parseHeader => cases hd
  | imaM | imaS => cases ha
  | _ => rfl

/-- A LIN or LAW decoder reads `n` elements, or `2n` for stereo (R64). -/
theorem readsByte_sample_iff (hd : isDecoder i = true) (ha : isAdpcm i = false) :
    s.ReadsByte i a ↔
      InSpan s.inBase ((s.element i).1 * (if isStereo i = true then 2 else 1) * s.frames) a := by
  rw [← mem_inputSpans_iff s i hd (by simp [ha]), inputSpans_sample s hd ha]
  simp only [State.sampleFootprint, List.mem_singleton, exists_eq_left]
  rfl

/-- Which input element a LIN or LAW decoder converts for a frame and side (R163, R164). -/
def elementIndex (i : Instr) (right : Bool) (k : Nat) : Nat := if isStereo i then 2 * k + right.toNat else k

/-- The address of an input element of a LIN or LAW decoder. -/
def State.elementAddr (s : State) (i : Instr) (right : Bool) (k : Nat) : Nat :=
  s.inBase + (s.element i).1 * elementIndex i right k

/-- The bytes of an input element are bytes the decoder reads. -/
theorem readsByte_element (hd : isDecoder i = true) (ha : isAdpcm i = false) (hk : k < s.frames)
    (hx : InSpan (s.elementAddr i right k) (s.element i).1 a) : s.ReadsByte i a := by
  have hindex : elementIndex i right k + 1 ≤ (if isStereo i = true then 2 else 1) * s.frames := by
    have := right.toNat_le
    unfold elementIndex
    split <;> omega
  have hend := Nat.mul_le_mul_left (s.element i).1 hindex
  rw [Nat.mul_succ, ← Nat.mul_assoc] at hend
  obtain ⟨hx1, hx2⟩ := hx
  rw [State.elementAddr] at hx1 hx2
  rw [readsByte_sample_iff hd ha]
  exact ⟨by omega, by omega⟩

/-- What frame `f` of an ADPCM decoder does to the channel of a side (R250, R251). -/
def State.imaFrame (s : State) (i : Instr) (m : Memory) (right : Bool) (f : Nat) (c : Channel) : Channel :=
  if isStereo i then
    stereoFrameState s.cfg.adpcmIndexByteSigned m s.inBase s.samplesPerBlock.toNat s.blockSize.toNat f right c
  else monoFrameState s.cfg.adpcmIndexByteSigned m s.inBase s.samplesPerBlock.toNat s.blockSize.toNat f c

theorem isBlock_of_frame (hf : f < s.frames) : s.IsBlock (f / s.spb.toInt.toNat) :=
  Nat.lt_of_le_of_lt (Nat.div_mul_le_self f _) hf

/-- The in-block position of a frame lies among the frames of its block. -/
theorem position_lt_framesOfBlock (hspb : 0 < s.spb.toInt) (hf : f < s.frames) :
    f % s.spb.toInt.toNat < s.framesOfBlock (f / s.spb.toInt.toNat) := by
  have hmod := Nat.mod_lt f (show 0 < s.spb.toInt.toNat by omega)
  have hdiv := Nat.div_add_mod' f s.spb.toInt.toNat
  unfold State.framesOfBlock
  omega

/-- A frame of an ADPCM decoder looks at bytes the decoder reads, and at no other (R64). -/
theorem imaFrame_congr (ha : isAdpcm i = true) (hspb : 0 < s.spb.toInt) (hf : f < s.frames)
    (hm : ∀ a, s.ReadsByte i a → m.read a = m'.read a) (right : Bool) (c : Channel) :
    s.imaFrame i m right f c = s.imaFrame i m' right f c := by
  have hb := isBlock_of_frame hf
  have hp := position_lt_framesOfBlock hspb hf
  cases i with
  | imaM =>
    have hhalf : f % s.spb.toInt.toNat / 2 < (s.framesOfBlock (f / s.spb.toInt.toNat) + 1) / 2 := by omega
    exact monoFrameState_congr _ _ _ _ (fun _ x hx => hm x ⟨_, hb, .inl hx⟩)
      (hm _ ⟨_, hb, .inr ⟨Nat.le_add_right _ _, Nat.add_lt_add_left hhalf _⟩⟩)
  | imaS =>
    refine stereoFrameState_congr _ _ _ _ (fun _ x hx => hm x ⟨_, hb, ?_⟩)
      (hm _ ⟨_, hb, .inr (.inr ⟨Nat.le_add_right _ _, Nat.add_lt_add_left hp _⟩)⟩)
    cases right
    · exact .inl hx
    · exact .inr (.inl hx)
  | _ => cases ha

/-- The first frame loads the block header, so it does not look at the channel (R244, R252). -/
theorem imaFrame_zero (c c' : Channel) : s.imaFrame i m right 0 c = s.imaFrame i m right 0 c' := by
  simp [State.imaFrame, stereoFrameState, monoFrameState]

/-- Channel states are fixed by the frames when the first frame ignores the channel. -/
theorem chanAt_congr {c c' : Channel} {frame frame' : Nat → Channel → Channel}
    (h0 : ∀ c c', frame 0 c = frame 0 c') (h : ∀ f ≤ k, ∀ c, frame f c = frame' f c) :
    chanAt c frame k = chanAt c' frame' k := by
  induction k with
  | zero => exact (h0 c c').trans (h 0 (le_refl _) c')
  | succ k ih => rw [chanAt, chanAt, ih fun f hf => h f (by omega), h _ (le_refl _)]

/-! ### The output -/

/-- The bytes of a little-endian number are determined by it (R63). -/
theorem Memory.read_eq_of_readLE_eq {n : Nat} (h : m.readLE a n = m'.readLE a n) {j : Nat} (hj : j < n) :
    m.read (a + j) = m'.read (a + j) := by
  induction n generalizing a j with
  | zero => cases hj
  | succ n ih =>
    rw [Memory.readLE, Memory.readLE] at h
    have hlt := (m.read a).isLt
    have hlt' := (m'.read a).isLt
    cases j with
    | zero => exact BitVec.eq_of_toNat_eq (show (m.read a).toNat = (m'.read a).toNat by omega)
    | succ j =>
      rw [Nat.add_comm j, ← Nat.add_assoc]
      exact ih (by omega) (by omega)

/-- Equal words have equal bytes. -/
theorem read_eq_of_wordAt_eq (h : wordAt m a = wordAt m' a) {j : Nat} (hj : j < 4) :
    m.read (a + j) = m'.read (a + j) := by
  refine Memory.read_eq_of_readLE_eq ?_ hj
  have hword := congrArg BitVec.toNat h
  rw [wordAt, wordAt, BitVec.toNat_ofNat, BitVec.toNat_ofNat] at hword
  have hlt := Memory.readLE_lt m a 4
  have hlt' := Memory.readLE_lt m' a 4
  omega

/-- The output base of a side. -/
def State.outBase (s : State) (right : Bool) : Nat := if right then s.out1Base else s.out0Base

/-- The sample a decoder writes for a frame and side. -/
def State.outputSample (s : State) (i : Instr) (right : Bool) (k : Nat) : F32 :=
  if isAdpcm i then (chanAt (if right then s.ch1 else s.ch0) (s.imaFrame i s.mem right) k).sample
  else (s.element i).2 (s.mem.readLE (s.elementAddr i right k) (s.element i).1)

theorem outputSample_of_not_adpcm (ha : isAdpcm i = false) :
    s.outputSample i right k = (s.element i).2 (s.mem.readLE (s.elementAddr i right k) (s.element i).1) :=
  if_neg (by simp [ha])

theorem accepted_mem_mono (s : State) (hd : isDecoder i = true) (ha : isAdpcm i = false) (hs : isStereo i = false) :
    (s.accepted i).mem =
      monoFrames (s.element i).1 (s.element i).2 s.inBase s.out0Base s.frames 0 s.mem := by
  cases i with
  | initTables | parseHeader => cases hd
  | imaM => cases ha
  | u8S | s16S | s24S | s32S | f32S | f64S | alawS | ulawS | imaS => cases hs
  | _ => rfl

theorem accepted_mem_stereo (s : State) (ha : isAdpcm i = false) (hs : isStereo i = true) :
    (s.accepted i).mem =
      stereoFrames (s.element i).1 (s.element i).2 s.inBase s.out0Base s.out1Base s.frames 0 s.mem := by
  cases i with
  | imaS => cases ha
  | u8S | s16S | s24S | s32S | f32S | f64S | alawS | ulawS => rfl
  | _ => cases hs

/-- The bytes a decoder writes are those of its output words. -/
theorem writesByte_iff (hd : isDecoder i = true) : s.WritesByte i a ↔
    ∃ right : Bool, (right = true → isStereo i = true) ∧ InSpan (s.outBase right) (4 * s.frames) a := by
  simp [State.WritesByte, hd, State.outBase]

/-- The input footprint shares no byte with either output (R72). -/
theorem input_apart (hk : s.KeepsDuties i) (hd : isDecoder i = true) (hr : right = true → isStereo i = true)
    (ha : s.ReadsByte i a) : ¬ InSpan (s.outBase right) (4 * s.frames) a :=
  fun hw => hk.inputApart a ha ((writesByte_iff hd).2 ⟨right, hr, hw⟩)

theorem imaMonoRun_spec (hspb : 0 < s.spb.toInt) (hk : s.KeepsDuties .imaM) :
    s.imaMonoRun.2 = chanBefore s.ch0 (s.imaFrame .imaM s.mem false) s.frames ∧
      ∀ j < s.frames, wordAt s.imaMonoRun.1 (s.out0Base + 4 * j) = s.outputSample .imaM false j := by
  obtain ⟨hchan, hword⟩ := imaMonoFrames_spec s.cfg.adpcmIndexByteSigned s.inBase s.out0Base
    s.samplesPerBlock.toNat s.blockSize.toNat s.frames s.mem s.ch0
    (fun f hf m hm c => imaFrame_congr (i := .imaM) rfl hspb hf
      (fun a ha => hm a (input_apart (right := false) hk rfl nofun ha)) false c)
    s.frames 0 s.mem (Nat.zero_add _) fun _ _ => rfl
  exact ⟨hchan, fun j hj => hword j (Nat.zero_le j) hj⟩

theorem imaStereoRun_spec (hspb : 0 < s.spb.toInt) (hk : s.KeepsDuties .imaS) :
    s.imaStereoRun.2 = (chanBefore s.ch0 (s.imaFrame .imaS s.mem false) s.frames,
        chanBefore s.ch1 (s.imaFrame .imaS s.mem true) s.frames) ∧
      ∀ j < s.frames, wordAt s.imaStereoRun.1 (s.out0Base + 4 * j) = s.outputSample .imaS false j ∧
        wordAt s.imaStereoRun.1 (s.out1Base + 4 * j) = s.outputSample .imaS true j := by
  obtain ⟨hchan, hword⟩ := imaStereoFrames_spec s.cfg.adpcmIndexByteSigned s.inBase s.out0Base s.out1Base
    s.samplesPerBlock.toNat s.blockSize.toNat s.frames s.mem s.ch0 s.ch1 (hk.outputsApart rfl)
    (fun f hf m hm right c => imaFrame_congr (i := .imaS) rfl hspb hf
      (fun a ha => hm a (input_apart (right := false) hk rfl nofun ha)
        (input_apart (right := true) hk rfl (fun _ => rfl) ha)) right c)
    s.frames 0 s.mem (Nat.zero_add _) fun _ _ _ => rfl
  exact ⟨hchan, fun j hj => hword j (Nat.zero_le j) hj⟩

/-- An ADPCM decoder's output word is the sample of its channel after the frame (R250, R251). -/
theorem accepted_word_adpcm (ha : isAdpcm i = true) (hspb : 0 < s.spb.toInt) (hk : s.KeepsDuties i)
    (hr : right = true → isStereo i = true) (hlt : k < s.frames) :
    wordAt (s.accepted i).mem (s.outBase right + 4 * k) = s.outputSample i right k := by
  cases i with
  | imaM =>
    cases right
    · exact (imaMonoRun_spec hspb hk).2 k hlt
    · cases hr rfl
  | imaS =>
    obtain ⟨hleft, hright⟩ := (imaStereoRun_spec hspb hk).2 k hlt
    cases right
    · exact hleft
    · exact hright
  | _ => cases ha

/-- A LIN or LAW decoder's output word is the conversion of its input element (R163, R164). -/
theorem accepted_word_sample (hd : isDecoder i = true) (ha : isAdpcm i = false) (hk : s.KeepsDuties i)
    (hr : right = true → isStereo i = true) (hlt : k < s.frames) :
    wordAt (s.accepted i).mem (s.outBase right + 4 * k) = s.outputSample i right k := by
  have hread : ∀ a, InSpan s.inBase ((s.element i).1 * (if isStereo i = true then 2 else 1) * s.frames) a →
      s.ReadsByte i a := fun a => (readsByte_sample_iff hd ha).2
  rw [outputSample_of_not_adpcm ha, State.elementAddr, elementIndex]
  cases hs : isStereo i
  · obtain rfl : right = false := by simpa [hs] using hr
    rw [accepted_mem_mono s hd ha hs]
    refine monoFrames_word _ _ _ _ s.frames (fun a hin => ?_) _ 0 _ (by omega) k (Nat.zero_le k) (by omega)
    exact input_apart (right := false) hk hd nofun (hread a (by simpa [hs] using hin))
  · obtain ⟨hleft, hright⟩ := stereoFrames_word (s.element i).1 (s.element i).2 s.inBase s.out0Base s.out1Base
      s.frames (fun a hin => have hin := hread a (by simpa [hs] using hin)
        ⟨input_apart (right := false) hk hd nofun hin, input_apart (right := true) hk hd (fun _ => hs) hin⟩)
      (hk.outputsApart hs) s.frames 0 s.mem (by omega) k (Nat.zero_le k) (by omega)
    rw [accepted_mem_stereo s ha hs]
    cases right
    · exact hleft
    · exact hright

/-- Each output word of an accepted decoder is the sample of its frame and side. -/
theorem accepted_word (hd : isDecoder i = true) (hv : s.ValidArgs i) (hk : s.KeepsDuties i)
    (hr : right = true → isStereo i = true) (hlt : k < s.frames) :
    wordAt (s.accepted i).mem (s.outBase right + 4 * k) = s.outputSample i right k := by
  cases ha : isAdpcm i
  · exact accepted_word_sample hd ha hk hr hlt
  · exact accepted_word_adpcm ha (hv.spbPositive ha) hk hr hlt

/-- The channel of each side after an accepted ADPCM decoder (log 7). -/
theorem accepted_channels (ha : isAdpcm i = true) (hv : s.ValidArgs i) (hk : s.KeepsDuties i) :
    (s.accepted i).ch0 = chanBefore s.ch0 (s.imaFrame i s.mem false) s.frames ∧
      (isStereo i = true → (s.accepted i).ch1 = chanBefore s.ch1 (s.imaFrame i s.mem true) s.frames) := by
  have hspb := hv.spbPositive ha
  cases i with
  | imaM => exact ⟨(imaMonoRun_spec hspb hk).1, nofun⟩
  | imaS =>
    have hrun := (imaStereoRun_spec hspb hk).1
    exact ⟨congrArg Prod.fst hrun, fun _ => congrArg Prod.snd hrun⟩
  | _ => cases ha

end Sys2Proof.Machine
end

section
/-! A decoder's answer is fixed by its operands, the tables and the input bytes (R186, R225, R252), and running it
again on that answer changes nothing. -/

namespace Sys2Proof.Machine

variable {i : Instr} {s s' : State} {k a : Nat}

/-- What a decoder's output is a function of: the operands, the tables and the input bytes of `s`. -/
structure SameInputs (i : Instr) (s s' : State) : Prop where
  indexSigned : s'.cfg.adpcmIndexByteSigned = s.cfg.adpcmIndexByteSigned
  inBase : s'.inBase = s.inBase
  out0Base : s'.out0Base = s.out0Base
  out1Base : s'.out1Base = s.out1Base
  count : s'.count = s.count
  spb : s'.spb = s.spb
  blksz : s'.blksz = s.blksz
  alawTab : s'.alawTab = s.alawTab
  ulawTab : s'.ulawTab = s.ulawTab
  bytes : ∀ a, s.ReadsByte i a → s'.mem.read a = s.mem.read a

section
variable (h : SameInputs i s s')
include h

theorem SameInputs.frames_eq : s'.frames = s.frames := by
  rw [State.frames, State.frames, h.count]

theorem SameInputs.outBase_eq (right : Bool) : s'.outBase right = s.outBase right := by
  rw [State.outBase, State.outBase, h.out0Base, h.out1Base]

theorem SameInputs.element_eq (i : Instr) : s'.element i = s.element i := by
  simp only [State.element, h.alawTab, h.ulawTab]

theorem SameInputs.elementAddr_eq (i : Instr) (right : Bool) (k : Nat) :
    s'.elementAddr i right k = s.elementAddr i right k := by
  rw [State.elementAddr, State.elementAddr, h.inBase, h.element_eq]

theorem SameInputs.imaFrame_eq (ha : isAdpcm i = true) (hspb : 0 < s.spb.toInt) {f : Nat} (hf : f < s.frames)
    (right : Bool) (c : Channel) : s'.imaFrame i s'.mem right f c = s.imaFrame i s.mem right f c := by
  rw [← imaFrame_congr ha hspb hf (fun a ha => h.bytes a ha) right c]
  simp only [State.imaFrame, State.samplesPerBlock, State.blockSize, h.indexSigned, h.inBase, h.spb, h.blksz]

theorem SameInputs.chanAt_eq (ha : isAdpcm i = true) (hspb : 0 < s.spb.toInt) (hlt : k < s.frames)
    (right : Bool) (c c' : Channel) :
    chanAt c' (s'.imaFrame i s'.mem right) k = chanAt c (s.imaFrame i s.mem right) k :=
  chanAt_congr imaFrame_zero fun _ hf => h.imaFrame_eq ha hspb (Nat.lt_of_le_of_lt hf hlt) right

theorem SameInputs.outputSample_eq (hd : isDecoder i = true) (hv : s.ValidArgs i) (hlt : k < s.frames)
    (right : Bool) : s'.outputSample i right k = s.outputSample i right k := by
  rw [State.outputSample, State.outputSample]
  by_cases ha : isAdpcm i = true
  · rw [if_pos ha, if_pos ha, h.chanAt_eq ha (hv.spbPositive ha) hlt]
  · rw [if_neg ha, if_neg ha]
    rw [Bool.not_eq_true] at ha
    rw [h.element_eq, h.elementAddr_eq,
      Memory.readLE_congr fun x hx => h.bytes x (readsByte_element hd ha hlt hx)]

/-- Two accepted runs on the same inputs write the same bytes. -/
theorem SameInputs.accepted_read_eq (hv : s.ValidArgs i) (hk : s.KeepsDuties i) (hv' : s'.ValidArgs i)
    (hk' : s'.KeepsDuties i) (hw : s.WritesByte i a) :
    (s'.accepted i).mem.read a = (s.accepted i).mem.read a := by
  have hd := hw.1
  obtain ⟨right, hr, hfrom, hto⟩ := (writesByte_iff hd).1 hw
  obtain ⟨k, j, hj, hlt, rfl⟩ : ∃ k j, j < 4 ∧ k < s.frames ∧ a = s.outBase right + 4 * k + j :=
    ⟨(a - s.outBase right) / 4, (a - s.outBase right) % 4, by omega, by omega, by omega⟩
  refine read_eq_of_wordAt_eq ?_ hj
  rw [accepted_word hd hv hk hr hlt, ← h.outBase_eq, accepted_word hd hv' hk' hr (h.frames_eq ▸ hlt),
    h.outputSample_eq hd hv hlt]

/-- Two accepted ADPCM runs on the same inputs leave the same channels (log 7). -/
theorem SameInputs.accepted_channels_eq (ha : isAdpcm i = true) (hv : s.ValidArgs i) (hk : s.KeepsDuties i)
    (hv' : s'.ValidArgs i) (hk' : s'.KeepsDuties i) :
    (s'.accepted i).ch0 = (s.accepted i).ch0 ∧
      (isStereo i = true → (s'.accepted i).ch1 = (s.accepted i).ch1) := by
  obtain ⟨n, hn⟩ : ∃ n, s.frames = n + 1 :=
    ⟨s.frames - 1, by have := hv.positive; rw [State.frames]; omega⟩
  have hlast (right : Bool) (c c' : Channel) :
      chanBefore c' (s'.imaFrame i s'.mem right) s'.frames = chanBefore c (s.imaFrame i s.mem right) s.frames := by
    rw [h.frames_eq, hn]
    exact h.chanAt_eq ha (hv.spbPositive ha) (by omega) right c c'
  obtain ⟨h0, h1⟩ := accepted_channels ha hv hk
  obtain ⟨h0', h1'⟩ := accepted_channels ha hv' hk'
  exact ⟨by rw [h0, h0', hlast], fun hs => by rw [h1 hs, h1' hs, hlast]⟩

end

/-! ### A second run -/

theorem State.ValidArgs.accepted (hv : s.ValidArgs i) : (s.accepted i).ValidArgs i := by
  rw [accepted_frame]
  exact { hv with }

theorem State.KeepsDuties.accepted (hk : s.KeepsDuties i) : (s.accepted i).KeepsDuties i := by
  rw [accepted_frame]
  exact { hk with }

/-- The run leaves its own inputs as they are, since its outputs lie elsewhere (R72). -/
theorem sameInputs_accepted (hd : isDecoder i = true) (hk : s.KeepsDuties i) : SameInputs i s (s.accepted i) := by
  have hbytes : ∀ a, s.ReadsByte i a → (s.accepted i).mem.read a = s.mem.read a :=
    fun a ha => accepted_read_outside hd (hk.inputApart a ha)
  rw [accepted_frame] at hbytes ⊢
  exact ⟨rfl, rfl, rfl, rfl, rfl, rfl, rfl, rfl, rfl, hbytes⟩

/-- A second accepted run leaves every byte as it reads. -/
theorem accepted_twice_read (hd : isDecoder i = true) (hv : s.ValidArgs i) (hk : s.KeepsDuties i) (a : Nat) :
    ((s.accepted i).accepted i).mem.read a = (s.accepted i).mem.read a := by
  by_cases hw : (s.accepted i).WritesByte i a
  · rw [accepted_frame] at hw
    exact (sameInputs_accepted hd hk).accepted_read_eq hv hk hv.accepted hk.accepted hw
  · exact accepted_read_outside hd hw

theorem accepted_twice_channels (hd : isDecoder i = true) (hv : s.ValidArgs i) (hk : s.KeepsDuties i) :
    ((s.accepted i).accepted i).ch0 = (s.accepted i).ch0 ∧
      ((s.accepted i).accepted i).ch1 = (s.accepted i).ch1 := by
  cases ha : isAdpcm i
  · exact ⟨accepted_ch0 _ ha, accepted_ch1 _ (by rintro rfl; cases ha)⟩
  · obtain ⟨h0, h1⟩ := (sameInputs_accepted hd hk).accepted_channels_eq ha hv hk hv.accepted hk.accepted
    refine ⟨h0, ?_⟩
    by_cases hi : i = .imaS
    · exact h1 (by rw [hi]; rfl)
    · exact accepted_ch1 _ hi

/-- A second accepted run changes nothing but, at most, how the same bytes are listed. -/
theorem accepted_twice_frame (hd : isDecoder i = true) (hv : s.ValidArgs i) (hk : s.KeepsDuties i) :
    (s.accepted i).accepted i = { s.accepted i with mem := ((s.accepted i).accepted i).mem } := by
  obtain ⟨h0, h1⟩ := accepted_twice_channels hd hv hk
  rw [accepted_frame (s.accepted i), h0, h1, ← accepted_result s i]

end Sys2Proof.Machine

namespace Sys2Proof
open Sys2Proof.Machine

/-- Settles O15: validation says `ValidArgs`, and the only other next state of a decoder is the accepted one. -/
theorem decodersRejectExactlyInvalidArguments : Obligations.DecodersRejectExactlyInvalidArguments := by
  unfold Obligations.DecodersRejectExactlyInvalidArguments
  intro i s hd hready
  refine ⟨exec_decoder_invalid hd hready, fun hv t h => ?_⟩
  obtain ⟨-, ⟨hinvalid, -⟩ | ⟨-, -, rfl⟩⟩ := exec_decoder_cases hd h
  · exact absurd hv hinvalid
  · exact accepted_result s i

/-- Settles O55: a run leaves its inputs as they are, and the inputs fix what it writes. -/
theorem decodersAreStatelessAndIdempotent : Obligations.DecodersAreStatelessAndIdempotent := by
  unfold Obligations.DecodersAreStatelessAndIdempotent
  refine ⟨fun i s t hd h => ?_, ?_⟩
  · obtain ⟨hready, ⟨-, rfl⟩ | ⟨hv, hk, rfl⟩⟩ := exec_decoder_cases hd h
    · exact ⟨_, (exec_withResult i s .rejected).trans h, rfl, fun _ => rfl⟩
    · refine ⟨_, exec_decoder_accepted hd (fun hl => ?_) hv.accepted hk.accepted, accepted_twice_frame hd hv hk,
        accepted_twice_read hd hv hk⟩
      rw [accepted_tablesReady, hready hl]
  · intro i s s' t t' hd hsg hin hout0 hout1 hcount hspb hblksz halaw hulaw hbytes h hok h' hok' a hw
    obtain ⟨-, hv, hk, rfl⟩ := exec_decoder_ok hd h hok
    obtain ⟨-, hv', hk', rfl⟩ := exec_decoder_ok hd h' hok'
    exact SameInputs.accepted_read_eq ⟨hsg, hin, hout0, hout1, hcount, hspb, hblksz, halaw, hulaw, hbytes⟩
      hv hk hv' hk' hw

end Sys2Proof
end

section
/-! The decoders by their conversion: a LIN or LAW decoder has the mono or stereo shape of R163 and R164 with the
element width and conversion it uses. -/

namespace Sys2Proof.Machine

variable {i : Instr} {w : Nat} {conv : State → Nat → F32}

/-- The decoder is a LIN or LAW one, with elements of `w` bytes and conversion `conv` (R170 to R181, R220 to R223). -/
structure Converts (i : Instr) (w : Nat) (conv : State → Nat → F32) : Prop where
  decoder : isDecoder i = true
  notAdpcm : isAdpcm i = false
  width : ∀ s : State, (s.element i).1 = w
  value : ∀ (s : State) (e : Nat), e < 256 ^ w → (s.element i).2 e = conv s e

theorem Converts.outputSample_eq (hc : Converts i w conv) (s : State) (right : Bool) (k : Nat) :
    s.outputSample i right k = conv s (s.mem.readLE (s.inBase + w * elementIndex i right k) w) := by
  rw [outputSample_of_not_adpcm hc.notAdpcm, State.elementAddr, hc.width,
    hc.value _ _ (Memory.readLE_lt _ _ _)]

/-- An accepted LIN or LAW decoder changes the buffer space and `STATUS.RESULT` alone. -/
theorem Converts.accepted_frame (hc : Converts i w conv) (s : State) :
    s.accepted i = { s with mem := (s.accepted i).mem, result := .ok } := by
  have h1 : i ≠ .imaS := by rintro rfl; cases hc.notAdpcm
  rw [Machine.accepted_frame, accepted_ch0 s hc.notAdpcm, accepted_ch1 s h1]

theorem Converts.monoDecoder (hc : Converts i w conv) (hs : isStereo i = false) : MonoDecoder i w conv := by
  intro s hready
  refine ⟨exec_decoder_invalid hc.decoder hready, fun hv hk =>
    ⟨_, exec_decoder_accepted hc.decoder hready hv hk, hc.accepted_frame s, fun k hlt => ?_, fun a hout => ?_⟩⟩
  · have hword := accepted_word (right := false) hc.decoder hv hk nofun hlt
    rwa [hc.outputSample_eq, elementIndex, hs] at hword
  · refine accepted_read_outside hc.decoder fun hw => ?_
    simp [State.WritesByte, hs, hout] at hw

theorem Converts.stereoDecoder (hc : Converts i w conv) (hs : isStereo i = true) : StereoDecoder i w conv := by
  intro s hready
  refine ⟨exec_decoder_invalid hc.decoder hready, fun hv hk =>
    ⟨_, exec_decoder_accepted hc.decoder hready hv hk, hc.accepted_frame s, fun k hlt => ?_,
      fun a hout0 hout1 => ?_⟩⟩
  · have hword (right : Bool) := accepted_word (right := right) hc.decoder hv hk (fun _ => hs) hlt
    simp only [hc.outputSample_eq, elementIndex, hs, if_true] at hword
    exact ⟨hword false, hword true⟩
  · refine accepted_read_outside hc.decoder fun hw => ?_
    simp [State.WritesByte, hout0, hout1] at hw

end Sys2Proof.Machine
end

section
/-! The integer conversions (spec/41_linear_pcm_float.md R170 to R177): exact up to 24 bits, and keeping order at
32 (R182). -/

namespace Sys2Proof.Machine

/-- `sext` answers a number of its width in two's complement (R8). -/
theorem sext_bounds (n e : Nat) : -2 ^ n ≤ 2 * sext n e ∧ 2 * sext n e < 2 ^ n :=
  ⟨BitVec.le_two_mul_toInt, BitVec.two_mul_toInt_lt⟩

theorem f32Value_f32 (num : Int) (den : Nat) :
    f32Value (f32 num den) = (if num < 0 then -1 else 1) * magnitudeValue (f32Magnitude num.natAbs den) := by
  rw [f32, f32Value_signed _ (Nat.lt_of_le_of_lt (f32Magnitude_le_inf _ _) (by decide))]
  simp

/-- Rounding keeps the order of the numerators. -/
theorem f32Value_f32_mono {a b : Int} {den : Nat} (hd : 0 < den) (h : a ≤ b) :
    f32Value (f32 a den) ≤ f32Value (f32 b den) := by
  have magnitude_le {x y : Int} (hxy : x.natAbs ≤ y.natAbs) :
      magnitudeValue (f32Magnitude x.natAbs den) ≤ magnitudeValue (f32Magnitude y.natAbs den) :=
    magnitudeValue_strictMono.monotone (f32Magnitude_mono hd hd (Nat.mul_le_mul_right _ hxy))
  have nonneg (x : Int) := magnitudeValue_nonneg (f32Magnitude x.natAbs den)
  rw [f32Value_f32, f32Value_f32]
  rcases lt_or_ge b 0 with hb | hb
  · rw [if_pos (by omega), if_pos hb]
    linarith [magnitude_le (x := b) (y := a) (by omega)]
  rcases lt_or_ge a 0 with ha | ha
  · rw [if_pos ha, if_neg (by omega)]
    linarith [nonneg a, nonneg b]
  · rw [if_neg (by omega), if_neg (by omega)]
    linarith [magnitude_le (x := a) (y := b) (by omega)]

/-- `f32Value_f32_dyadic` for a denominator written out. -/
theorem f32Value_f32_of_eq_two_pow {num : Int} {den k : Nat} (hden : den = 2 ^ k) (hk : k ≤ 149)
    (hn : num.natAbs ≤ 2 ^ 24) : f32Value (f32 num den) = (num : ℚ) / den := by
  rw [hden, f32Value_f32_dyadic hk hn, Nat.cast_pow, Nat.cast_ofNat]

theorem convU8_value {e : Nat} (he : e < 256) : f32Value (convU8 e) = ((e : ℚ) - 128) / 128 := by
  have h := f32Value_f32_of_eq_two_pow (num := (e : Int) - 128) (den := 128) (k := 7) rfl (by decide) (by omega)
  push_cast at h
  exact h

theorem convS16_value (e : Nat) : f32Value (convS16 e) = (sext 16 e : ℚ) / 32768 := by
  have hb := sext_bounds 16 e
  exact f32Value_f32_of_eq_two_pow (k := 15) rfl (by decide) (by omega)

theorem convS24_value (e : Nat) : f32Value (convS24 e) = (sext 24 e : ℚ) / 8388608 := by
  have hb := sext_bounds 24 e
  exact f32Value_f32_of_eq_two_pow (k := 23) rfl (by decide) (by omega)

/-- The binary32 pattern of 1.0. -/
theorem units_one : units 0x3F800000 = 2 ^ 149 := by decide

theorem f32Magnitude_le_one {num den : Nat} (hd : 0 < den) (h : num ≤ den) : f32Magnitude num den ≤ 0x3F800000 :=
  f32Magnitude_le hd (by rw [units_one, Nat.mul_comm]; exact Nat.mul_le_mul_left _ h)

theorem one_le_f32Magnitude {num den : Nat} (hd : 0 < den) (h : den ≤ num) : 0x3F800000 ≤ f32Magnitude num den :=
  le_f32Magnitude hd (by decide) (by rw [units_one, Nat.mul_comm]; exact Nat.mul_le_mul_right _ h)

/-- The top of the 32-bit range rounds up to 1.0: its least sample is the tie below 1.0 (R182). -/
theorem convS32_top {a : Nat} (h : 2147483584 ≤ sext 32 a) : convS32 a = 0x3F800000#32 := by
  obtain ⟨n, hn⟩ := Int.eq_ofNat_of_zero_le (show 0 ≤ sext 32 a by omega)
  have hb := sext_bounds 32 a
  have hle : f32Magnitude n 2147483648 ≤ 0x3F800000 := f32Magnitude_le_one (by decide) (by omega)
  have hge : f32Magnitude 2147483584 2147483648 ≤ f32Magnitude n 2147483648 :=
    f32Magnitude_mono (by decide) (by decide) (by omega)
  have htie : f32Magnitude 2147483584 2147483648 = 0x3F800000 := by decide
  have hmag : f32Magnitude n 2147483648 = 0x3F800000 := by omega
  rw [convS32, hn, f32, Int.natAbs_natCast, hmag, decide_eq_false (by omega)]
  rfl

end Sys2Proof.Machine
end

section
/-! The float conversions (spec/41_linear_pcm_float.md R178 to R181, R185) by bit pattern: the magnitude bits alone
say whether a value is a NaN, an infinity, or above 1.0. -/

namespace Sys2Proof.Machine

/-! ### The values of float patterns -/

/-- The significand scaled by its exponent field, `k` being the number of fraction bits; a subnormal counts as at
exponent 1 (R8). -/
def scaledSignificand (k ex frac : Nat) : Nat := if ex = 0 then frac * 2 else (frac + 2 ^ k) * 2 ^ ex

theorem scaledSignificand_eq (k ex frac : Nat) :
    (frac + if ex = 0 then 0 else 2 ^ k) * 2 ^ max ex 1 = scaledSignificand k ex frac := by
  rw [scaledSignificand]
  split
  · next h => rw [h, Nat.add_zero]; rfl
  · rw [Nat.max_eq_left (by omega)]

/-- A value is above 1.0 exactly when its magnitude bits are above those of 1.0, whose exponent field is `bias`. -/
theorem one_lt_scaledSignificand_iff {k bias ex frac : Nat} (hfrac : frac < 2 ^ k) (hbias : 0 < bias) :
    2 ^ (k + bias) < scaledSignificand k ex frac ↔ bias * 2 ^ k < ex * 2 ^ k + frac := by
  rw [scaledSignificand]
  rcases Nat.lt_trichotomy ex bias with hlt | rfl | hgt
  · -- below 1.0
    have hbits : (ex + 1) * 2 ^ k ≤ bias * 2 ^ k := Nat.mul_le_mul_right _ hlt
    rw [Nat.succ_mul] at hbits
    refine iff_of_false (not_lt.2 ?_) (by omega)
    split
    · calc frac * 2 ≤ 2 ^ k * 2 ^ 1 := Nat.mul_le_mul_right _ hfrac.le
        _ = 2 ^ (k + 1) := (pow_add 2 k 1).symm
        _ ≤ 2 ^ (k + bias) := Nat.pow_le_pow_right (by decide) (by omega)
    · calc (frac + 2 ^ k) * 2 ^ ex ≤ 2 ^ (k + 1) * 2 ^ ex := Nat.mul_le_mul_right _ (by omega)
        _ = 2 ^ (k + (ex + 1)) := by rw [← pow_add]; congr 1; omega
        _ ≤ 2 ^ (k + bias) := Nat.pow_le_pow_right (by decide) (by omega)
  · -- from 1.0 to below 2.0
    rw [if_neg (by omega), pow_add, Nat.mul_lt_mul_right (Nat.two_pow_pos ex)]
    omega
  · -- 2.0 and above
    have hbits : (bias + 1) * 2 ^ k ≤ ex * 2 ^ k := Nat.mul_le_mul_right _ hgt
    have hpos := Nat.two_pow_pos k
    rw [Nat.succ_mul] at hbits
    refine iff_of_true ?_ (by omega)
    rw [if_neg (by omega)]
    calc 2 ^ (k + bias) < 2 ^ (k + ex) := Nat.pow_lt_pow_right (by decide) (by omega)
      _ = 2 ^ k * 2 ^ ex := pow_add 2 k ex
      _ ≤ (frac + 2 ^ k) * 2 ^ ex := Nat.mul_le_mul_right _ (by omega)

theorem unpack32_eq (w : F32) :
    unpack32 w = if w.toNat / 2 ^ 23 % 256 = 255 then (if w.toNat % 2 ^ 23 = 0 then .inf w.msb else .nan)
      else .finite w.msb (scaledSignificand 23 (w.toNat / 2 ^ 23 % 256) (w.toNat % 2 ^ 23)) (2 ^ 150) := by
  simp only [unpack32, BitVec.extractLsb'_toNat, Nat.shiftRight_eq_div_pow, pow_zero, Nat.div_one]
  rw [scaledSignificand_eq]

theorem unpack64_eq (w : F64) :
    unpack64 w = if w.toNat / 2 ^ 52 % 2048 = 2047 then (if w.toNat % 2 ^ 52 = 0 then .inf w.msb else .nan)
      else .finite w.msb (scaledSignificand 52 (w.toNat / 2 ^ 52 % 2048) (w.toNat % 2 ^ 52)) (2 ^ 1075) := by
  simp only [unpack64, BitVec.extractLsb'_toNat, Nat.shiftRight_eq_div_pow, pow_zero, Nat.div_one]
  rw [scaledSignificand_eq]

/-- What a binary32 pattern stands for, by its magnitude bits. -/
theorem unpack32_cases (w : F32) :
    (0x7F800000 < w.toNat % 2 ^ 31 ∧ unpack32 w = .nan) ∨
    (w.toNat % 2 ^ 31 = 0x7F800000 ∧ unpack32 w = .inf w.msb) ∨
    (w.toNat % 2 ^ 31 < 0x7F800000 ∧ ∃ num, unpack32 w = .finite w.msb num (2 ^ 150) ∧
      (2 ^ 150 < num ↔ 0x3F800000 < w.toNat % 2 ^ 31)) := by
  rw [unpack32_eq]
  split
  · split
    · exact .inr (.inl ⟨by omega, rfl⟩)
    · exact .inl ⟨by omega, rfl⟩
  · refine .inr (.inr ⟨by omega, _, rfl, ?_⟩)
    rw [one_lt_scaledSignificand_iff (k := 23) (bias := 127) (Nat.mod_lt _ (by decide)) (by decide)]
    omega

/-- What a binary64 pattern stands for, by its magnitude bits. -/
theorem unpack64_cases (w : F64) :
    (0x7FF0000000000000 < w.toNat % 2 ^ 63 ∧ unpack64 w = .nan) ∨
    (w.toNat % 2 ^ 63 = 0x7FF0000000000000 ∧ unpack64 w = .inf w.msb) ∨
    (w.toNat % 2 ^ 63 < 0x7FF0000000000000 ∧
      unpack64 w =
        .finite w.msb (scaledSignificand 52 (w.toNat / 2 ^ 52 % 2048) (w.toNat % 2 ^ 52)) (2 ^ 1075) ∧
      (2 ^ 1075 < scaledSignificand 52 (w.toNat / 2 ^ 52 % 2048) (w.toNat % 2 ^ 52) ↔
        0x3FF0000000000000 < w.toNat % 2 ^ 63)) := by
  rw [unpack64_eq]
  split
  · split
    · exact .inr (.inl ⟨by omega, rfl⟩)
    · exact .inl ⟨by omega, rfl⟩
  · refine .inr (.inr ⟨by omega, rfl, ?_⟩)
    rw [one_lt_scaledSignificand_iff (k := 52) (bias := 1023) (Nat.mod_lt _ (by decide)) (by decide)]
    omega

/-! ### The clamp -/

/-- 1.0 with a sign. -/
theorem signed_one (neg : Bool) : signed neg 0x3F800000 = if neg = true then 0xBF800000#32 else 0x3F800000#32 := by
  cases neg <;> rfl

theorem f32Clamped_toNat (w : F32) : f32Clamped w.toNat =
    if 0x7F800000 < w.toNat % 2 ^ 31 then 0
    else if 0x3F800000 < w.toNat % 2 ^ 31 then signed w.msb 0x3F800000 else w := by
  have hsign : (w.toNat < 2 ^ 31) = (w.msb = false) := by rw [BitVec.msb_eq_decide]; simp
  simp only [f32Clamped, hsign, signed_one, BitVec.ofNat_toNat, BitVec.setWidth_eq]
  cases w.msb <;> rfl

/-- The NaN and clamp policy of `convF32` on a value with pattern `w` (R178). -/
def FloatValue.clampTo (x : FloatValue) (w : F32) : F32 :=
  if x = .nan then 0
  else if x.aboveOne then 0x3F800000#32
  else if x.belowMinusOne then 0xBF800000#32
  else w

theorem convF32_toNat (w : F32) : convF32 w.toNat = (unpack32 w).clampTo w := by
  rw [convF32, BitVec.ofNat_toNat, BitVec.setWidth_eq]
  rfl

theorem clampTo_inf (neg : Bool) (w : F32) : (FloatValue.inf neg).clampTo w = signed neg 0x3F800000 := by
  cases neg <;> rfl

theorem clampTo_finite (neg : Bool) (num den : Nat) (w : F32) :
    (FloatValue.finite neg num den).clampTo w = if den < num then signed neg 0x3F800000 else w := by
  cases neg <;> simp [FloatValue.clampTo, FloatValue.aboveOne, FloatValue.belowMinusOne, signed_one]

/-- F32's conversion, by bit pattern (R178). -/
theorem convF32_eq_f32Clamped (w : F32) : convF32 w.toNat = f32Clamped w.toNat := by
  rw [convF32_toNat, f32Clamped_toNat]
  obtain ⟨hm, hx⟩ | ⟨hm, hx⟩ | ⟨hm, num, hx, hone⟩ := unpack32_cases w
  · rw [if_pos hm, hx]
    rfl
  · rw [if_neg (by omega), if_pos (by omega), hx, clampTo_inf]
  · rw [if_neg (by omega), hx, clampTo_finite, if_congr hone rfl rfl]

/-! ### Clamping and narrowing -/

theorem f32Magnitude_one : f32Magnitude 1 1 = 0x3F800000 :=
  f32Magnitude_exact (by decide) (by decide) (by rw [units_one, Nat.one_mul, Nat.mul_one])

theorem narrow_clampUnit_inf (neg : Bool) : (FloatValue.inf neg).clampUnit.narrow = signed neg 0x3F800000 := by
  rw [← f32Magnitude_one]
  cases neg <;> rfl

theorem narrow_clampUnit_finite (neg : Bool) (num den : Nat) : (FloatValue.finite neg num den).clampUnit.narrow =
    signed neg (if den < num then 0x3F800000 else f32Magnitude num den) := by
  rw [← f32Magnitude_one]
  by_cases h : den < num <;> cases neg <;>
    simp [FloatValue.clampUnit, FloatValue.aboveOne, FloatValue.belowMinusOne, FloatValue.narrow, h]

/-- Clamping the value first is clamping the rounded magnitude, since 1.0 is a binary32 value (R185). -/
theorem clamped_f32Magnitude {num den : Nat} (hd : 0 < den) :
    (if den < num then 0x3F800000 else f32Magnitude num den) = min (f32Magnitude num den) 0x3F800000 := by
  split
  · next h => rw [Nat.min_eq_right (one_le_f32Magnitude hd h.le)]
  · next h => rw [Nat.min_eq_left (f32Magnitude_le_one hd (not_lt.1 h))]

theorem f32Clamped_signed (neg : Bool) {p : Nat} (hp : p ≤ 0x7F800000) :
    f32Clamped (signed neg p).toNat = signed neg (min p 0x3F800000) := by
  rw [f32Clamped_toNat, signed_magnitude neg (by omega), signed_msb, if_neg (by omega)]
  split
  · rw [Nat.min_eq_right (by omega)]
  · rw [Nat.min_eq_left (by omega)]

/-- Clamping and then narrowing is narrowing and then clamping (R185), for an infinity. -/
theorem narrow_clampUnit_comm_inf (neg : Bool) :
    (FloatValue.inf neg).clampUnit.narrow = f32Clamped (FloatValue.inf neg).narrow.toNat := by
  rw [narrow_clampUnit_inf, FloatValue.narrow, f32Clamped_signed _ (le_refl _)]
  rfl

/-- Clamping and then narrowing is narrowing and then clamping (R185), for a finite value. -/
theorem narrow_clampUnit_comm_finite (neg : Bool) (num : Nat) {den : Nat} (hd : 0 < den) :
    (FloatValue.finite neg num den).clampUnit.narrow = f32Clamped (FloatValue.finite neg num den).narrow.toNat := by
  rw [narrow_clampUnit_finite, clamped_f32Magnitude hd, FloatValue.narrow,
    f32Clamped_signed _ (f32Magnitude_le_inf _ _)]

theorem convF64_toNat (w : F64) :
    convF64 w.toNat = if unpack64 w = .nan then 0 else (unpack64 w).clampUnit.narrow := by
  rw [convF64, BitVec.ofNat_toNat, BitVec.setWidth_eq]

theorem convF64_eq_f32Clamped {w : F64} (h : unpack64 w ≠ .nan) :
    convF64 w.toNat = f32Clamped (unpack64 w).narrow.toNat := by
  rw [convF64_toNat, if_neg h]
  obtain ⟨-, hx⟩ | ⟨-, hx⟩ | ⟨-, hx, -⟩ := unpack64_cases w
  · exact absurd hx h
  · rw [hx, narrow_clampUnit_comm_inf]
  · rw [hx]
    exact narrow_clampUnit_comm_finite _ _ (by positivity)

/-- F64's conversion, by bit pattern (R180). -/
theorem convF64_eq_f64ClampedThenNarrowed (w : F64) : convF64 w.toNat = f64ClampedThenNarrowed w.toNat := by
  have hmsb : w.msb = decide (2 ^ 63 ≤ w.toNat) := BitVec.msb_eq_decide w
  have hsign : (w.toNat < 2 ^ 63) = (w.msb = false) := by simp [hmsb]
  have hone : (if w.toNat < 2 ^ 63 then 0x3F800000#32 else 0xBF800000#32) = signed w.msb 0x3F800000 := by
    simp only [hsign, signed_one]
    cases w.msb <;> rfl
  rw [convF64_toNat, f64ClampedThenNarrowed, hone, ← hmsb]
  obtain ⟨hm, hx⟩ | ⟨hm, hx⟩ | ⟨hm, hx, habove⟩ := unpack64_cases w
  · rw [if_pos hx, if_pos hm]
  · rw [if_neg (by rw [hx]; nofun), if_neg (by omega), if_pos (by omega), hx, narrow_clampUnit_inf]
  · rw [if_neg (by rw [hx]; nofun), if_neg (by omega), hx, narrow_clampUnit_finite, apply_ite (signed _),
      if_congr habove rfl rfl]
    rfl

end Sys2Proof.Machine
end

section
/-! Every sample a decoder writes is a normalized float (R184, R254): the integer formats and the ADPCM predictor
lie in [-1, 1], the float formats are clamped, and a table's entries are the parameters' (R219). -/

namespace Sys2Proof.Machine

variable {i : Instr} {s : State} {right : Bool} {k : Nat}

theorem normalized_iff (w : F32) : normalized w = true ↔ w.toNat % 2 ^ 31 ≤ 0x3F800000 := by
  have hmask : (w &&& 0x7FFFFFFF#32).toNat = w.toNat % 2 ^ 31 := by
    rw [BitVec.toNat_and]
    exact Nat.and_two_pow_sub_one_eq_mod _ 31
  rw [normalized, hmask, decide_eq_true_eq]

theorem normalized_f32 {num : Int} {den : Nat} (hd : 0 < den) (h : num.natAbs ≤ den) :
    normalized (f32 num den) = true := by
  rw [normalized_iff, f32_magnitude]
  exact f32Magnitude_le_one hd h

theorem normalized_f32Clamped (w : F32) : normalized (f32Clamped w.toNat) = true := by
  rw [normalized_iff, f32Clamped_toNat]
  split
  · decide
  · split
    · rw [signed_magnitude _ (by decide)]
    · omega

theorem normalized_convF64 (w : F64) : normalized (convF64 w.toNat) = true := by
  by_cases h : unpack64 w = .nan
  · rw [convF64_toNat, if_pos h]
    decide
  · rw [convF64_eq_f32Clamped h]
    exact normalized_f32Clamped _

theorem normalized_lawEntry {tab : Vector F32 256} (h : tab.toList.all normalized = true) (code : Nat) :
    normalized (lawEntry tab code) = true :=
  List.all_eq_true.1 h _ (Vector.mem_toList_iff.2 (Vector.getElem_mem _))

theorem normalized_sample (c : Channel) : normalized c.sample = true := by
  have hlow := BitVec.le_two_mul_toInt (x := c.pred)
  have hhigh := BitVec.two_mul_toInt_lt (x := c.pred)
  exact normalized_f32 (by decide) (by omega)

/-- Each conversion of a LIN or LAW decoder, on an element of its width, answers normalized floats (R184). -/
theorem normalized_element (hi : s.Inv) (hw : s.cfg.wellFormed = true) (hd : isDecoder i = true)
    (ha : isAdpcm i = false) (hready : isLaw i = true → s.tablesReady = true) {e : Nat}
    (he : e < 256 ^ (s.element i).1) :
    normalized ((s.element i).2 e) = true := by
  simp only [Config.wellFormed, Config.alawOk, Config.ulawOk, Bool.and_eq_true] at hw
  obtain ⟨⟨-, halaw⟩, hulaw⟩ := hw
  cases i with
  | initTables | parseHeader => cases hd
  | imaM | imaS => cases ha
  | u8M | u8S =>
    have he : e < 256 := he
    exact normalized_f32 (by decide) (by omega)
  | s16M | s16S =>
    have hb := sext_bounds 16 e
    exact normalized_f32 (by decide) (by omega)
  | s24M | s24S =>
    have hb := sext_bounds 24 e
    exact normalized_f32 (by decide) (by omega)
  | s32M | s32S =>
    have hb := sext_bounds 32 e
    exact normalized_f32 (by decide) (by omega)
  | f32M | f32S =>
    have hconv := convF32_eq_f32Clamped (BitVec.ofNatLT e he)
    have hclamp := normalized_f32Clamped (BitVec.ofNatLT e he)
    rwa [← hconv] at hclamp
  | f64M | f64S => exact normalized_convF64 (BitVec.ofNatLT e he)
  | alawM | alawS =>
    have htab := (hi.tables (hready rfl)).1
    exact normalized_lawEntry (htab ▸ halaw) e
  | ulawM | ulawS =>
    have htab := (hi.tables (hready rfl)).2
    exact normalized_lawEntry (htab ▸ hulaw) e

theorem normalized_outputSample (hi : s.Inv) (hw : s.cfg.wellFormed = true) (hd : isDecoder i = true)
    (hready : isLaw i = true → s.tablesReady = true) : normalized (s.outputSample i right k) = true := by
  cases ha : isAdpcm i
  · rw [outputSample_of_not_adpcm ha]
    exact normalized_element hi hw hd ha hready (Memory.readLE_lt _ _ _)
  · rw [State.outputSample, if_pos ha]
    exact normalized_sample _

end Sys2Proof.Machine
end

section
/-! The statements on the LIN formats (spec/41_linear_pcm_float.md). -/

namespace Sys2Proof
open Sys2Proof.Machine

/-- Settles O20, by the decoders' conversion; a sample of 8 bits over a power of two is exact. -/
theorem u8DecodersConvertEachSample : Obligations.U8DecodersConvertEachSample := by
  unfold Obligations.U8DecodersConvertEachSample
  exact ⟨rfl, rfl, Converts.monoDecoder ⟨rfl, rfl, fun _ => rfl, fun _ _ _ => rfl⟩ rfl,
    Converts.stereoDecoder ⟨rfl, rfl, fun _ => rfl, fun _ _ _ => rfl⟩ rfl, fun _ => convU8_value, by decide⟩

/-- Settles O21, as for 8 bits. -/
theorem s16DecodersConvertEachSample : Obligations.S16DecodersConvertEachSample := by
  unfold Obligations.S16DecodersConvertEachSample
  exact ⟨rfl, rfl, Converts.monoDecoder ⟨rfl, rfl, fun _ => rfl, fun _ _ _ => rfl⟩ rfl,
    Converts.stereoDecoder ⟨rfl, rfl, fun _ => rfl, fun _ _ _ => rfl⟩ rfl, fun e _ => convS16_value e,
    by decide⟩

/-- Settles O22, as for 8 bits. -/
theorem s24DecodersConvertEachSample : Obligations.S24DecodersConvertEachSample := by
  unfold Obligations.S24DecodersConvertEachSample
  exact ⟨rfl, rfl, Converts.monoDecoder ⟨rfl, rfl, fun _ => rfl, fun _ _ _ => rfl⟩ rfl,
    Converts.stereoDecoder ⟨rfl, rfl, fun _ => rfl, fun _ _ _ => rfl⟩ rfl, fun e _ => convS24_value e,
    by decide⟩

/-- Settles O23, by the decoders' conversion; the corner values are evaluated. -/
theorem s32DecodersConvertEachSample : Obligations.S32DecodersConvertEachSample := by
  unfold Obligations.S32DecodersConvertEachSample
  exact ⟨rfl, rfl, Converts.monoDecoder ⟨rfl, rfl, fun _ => rfl, fun _ _ _ => rfl⟩ rfl,
    Converts.stereoDecoder ⟨rfl, rfl, fun _ => rfl, fun _ _ _ => rfl⟩ rfl, by decide⟩

/-- Settles O24: the magnitude bits alone decide between a NaN, a clamped value and one passed through. -/
theorem f32DecodersClampEachSample : Obligations.F32DecodersClampEachSample := by
  unfold Obligations.F32DecodersClampEachSample
  have hconv (e : Nat) (he : e < 256 ^ 4) : convF32 e = f32Clamped e := convF32_eq_f32Clamped (BitVec.ofNatLT e he)
  exact ⟨rfl, rfl, Converts.monoDecoder ⟨rfl, rfl, fun _ => rfl, fun _ => hconv⟩ rfl,
    Converts.stereoDecoder ⟨rfl, rfl, fun _ => rfl, fun _ => hconv⟩ rfl⟩

/-- Settles O25: the magnitude bits alone decide between a NaN, a clamped value and one narrowed. -/
theorem f64DecodersClampThenNarrow : Obligations.F64DecodersClampThenNarrow := by
  unfold Obligations.F64DecodersClampThenNarrow
  have hconv (e : Nat) (he : e < 256 ^ 8) : convF64 e = f64ClampedThenNarrowed e :=
    convF64_eq_f64ClampedThenNarrowed (BitVec.ofNatLT e he)
  exact ⟨rfl, rfl, Converts.monoDecoder ⟨rfl, rfl, fun _ => rfl, fun _ => hconv⟩ rfl,
    Converts.stereoDecoder ⟨rfl, rfl, fun _ => rfl, fun _ => hconv⟩ rfl⟩

/-- Settles O46: 1.0 is a binary32 value, so rounding does not cross it. -/
theorem clampAndNarrowCommute : Obligations.ClampAndNarrowCommute := by
  unfold Obligations.ClampAndNarrowCommute
  intro e h
  have hword : convF64 e = convF64 (BitVec.ofNat 64 e).toNat := by
    rw [convF64_toNat, convF64]
  rw [hword, convF64_eq_f32Clamped h]

/-- Settles O47: the conversions up to 24 bits are exact, and rounding keeps order. -/
theorem integerConversionsKeepOrder : Obligations.IntegerConversionsKeepOrder := by
  unfold Obligations.IntegerConversionsKeepOrder
  refine ⟨fun a b hab hb => ?_, fun a b _ _ hab => ?_, fun a b _ _ hab => ?_, fun a b hab => ?_,
    fun a => convS32_top⟩
  · rw [convU8_value (hab.trans hb), convU8_value hb]
    gcongr
  · rw [convS16_value, convS16_value]
    gcongr
  · rw [convS24_value, convS24_value]
    gcongr
  · exact f32Value_f32_mono (by decide) hab

/-- Settles O48: each output word is a sample of its decoder, and each sample is normalized. -/
theorem outputsAreNormalized : Obligations.OutputsAreNormalized := by
  unfold Obligations.OutputsAreNormalized
  intro i s t hd hi hw h hok k hlt
  obtain ⟨hready, hv, hk, rfl⟩ := exec_decoder_ok hd h hok
  have hword {right : Bool} (hr : right = true → isStereo i = true) :
      normalized (wordAt (s.accepted i).mem (s.outBase right + 4 * k)) = true := by
    rw [accepted_word hd hv hk hr hlt]
    exact normalized_outputSample hi hw hd hready
  exact ⟨hword (right := false) nofun, fun hs => hword (right := true) fun _ => hs⟩

end Sys2Proof
end

section
/-! The companded-law integers (spec/42_companded_law.md R213, R216) by the number of the code, their ranges, and
their odd symmetry under the sign bit of the code (R219). -/

namespace Sys2Proof.Machine

/-! ### The fields of a code -/

theorem Byte.exponent_toNat (u : Byte) : (u.extractLsb' 4 3).toNat = u.toNat / 16 % 8 := by
  rw [BitVec.extractLsb'_toNat, Nat.shiftRight_eq_div_pow]

theorem Byte.mantissa_toNat (u : Byte) : (u.extractLsb' 0 4).toNat = u.toNat % 16 := by
  rw [BitVec.extractLsb'_toNat, Nat.shiftRight_zero]

theorem Byte.msb_iff (u : Byte) : u.msb = true ↔ u.toNat / 128 = 1 := by
  have hu : u.toNat < 2 ^ 8 := u.isLt
  rw [BitVec.msb_eq_decide, decide_eq_true_iff]
  omega

theorem Byte.invert_toNat (c : Byte) : (c ^^^ 0xFF#8).toNat = 255 - c.toNat := by
  rw [show 0xFF#8 = BitVec.allOnes 8 from rfl, BitVec.xor_allOnes, BitVec.toNat_not]

/-- Flipping bit 7 flips the sign and keeps the exponent and the mantissa. -/
theorem Byte.flip_fields (u : Byte) :
    (u ^^^ 0x80#8).extractLsb' 4 3 = u.extractLsb' 4 3 ∧ (u ^^^ 0x80#8).extractLsb' 0 4 = u.extractLsb' 0 4 ∧
    (u ^^^ 0x80#8).msb = !u.msb := by
  rw [BitVec.extractLsb'_xor, BitVec.extractLsb'_xor, BitVec.msb_xor]
  exact ⟨BitVec.xor_zero, BitVec.xor_zero, Bool.xor_true _⟩

theorem Byte.xor_flip (c mask : Byte) : c ^^^ 0x80#8 ^^^ mask = c ^^^ mask ^^^ 0x80#8 := by ac_rfl

/-! ### μ-law -/

/-- The magnitude of a μ-law integer, `u` being the code with its bits inverted (R213). -/
def ulawMagnitude (u : Nat) : Int := (33 + 2 * (u % 16 : Nat)) * 2 ^ (u / 16 % 8) - 33

theorem ulawInt_eq (c : Byte) : ulawInt c =
    if (255 - c.toNat) / 128 = 1 then -ulawMagnitude (255 - c.toNat) else ulawMagnitude (255 - c.toNat) := by
  simp only [ulawInt, ulawMagnitude, Byte.msb_iff, Byte.exponent_toNat, Byte.mantissa_toNat, Byte.invert_toNat,
    Nat.shiftLeft_eq]
  push_cast
  rfl

theorem ulawMagnitude_bounds (u : Nat) : 0 ≤ ulawMagnitude u ∧ ulawMagnitude u ≤ 8031 := by
  have hlow : 33 + 2 * (u % 16) ≤ (33 + 2 * (u % 16)) * 2 ^ (u / 16 % 8) :=
    Nat.le_mul_of_pos_right _ (Nat.two_pow_pos _)
  have hhigh : (33 + 2 * (u % 16)) * 2 ^ (u / 16 % 8) ≤ (33 + 2 * 15) * 2 ^ 7 := by
    gcongr <;> omega
  rw [ulawMagnitude]
  zify at hlow hhigh ⊢
  omega

/-- Only a code whose exponent and mantissa are 0 has magnitude 0. -/
theorem ulawMagnitude_ne_zero {u : Nat} (h : u % 128 ≠ 0) : ulawMagnitude u ≠ 0 := by
  have hgrows : 33 < (33 + 2 * (u % 16)) * 2 ^ (u / 16 % 8) := by
    by_cases hex : u / 16 % 8 = 0
    · rw [hex]
      omega
    · have htwo : 2 ^ 1 ≤ 2 ^ (u / 16 % 8) := Nat.pow_le_pow_right (by decide) (by omega)
      have := Nat.mul_le_mul_left (33 + 2 * (u % 16)) htwo
      omega
  rw [ulawMagnitude]
  zify at hgrows ⊢
  omega

/-- The two μ-law zeros are the codes 0x7F and 0xFF (R219). -/
theorem ulawInt_ne_zero {c : Byte} (h7F : c ≠ 0x7F#8) (hFF : c ≠ 0xFF#8) : ulawInt c ≠ 0 := by
  have hmag : ulawMagnitude (255 - c.toNat) ≠ 0 := ulawMagnitude_ne_zero (by bv_omega)
  rw [ulawInt_eq]
  split <;> omega

theorem ulawInt_natAbs_le (c : Byte) : (ulawInt c).natAbs ≤ 8031 := by
  have := ulawMagnitude_bounds (255 - c.toNat)
  rw [ulawInt_eq]
  split <;> omega

theorem ulawInt_flip (c : Byte) : ulawInt (c ^^^ 0x80#8) = -ulawInt c := by
  obtain ⟨hex, hman, hsign⟩ := Byte.flip_fields (c ^^^ 0xFF#8)
  rw [ulawInt, Byte.xor_flip, ulawInt, hex, hman, hsign]
  cases (c ^^^ 0xFF#8).msb <;> simp

/-! ### A-law -/

/-- The magnitude of an A-law integer, `a` being the code exclusive-or 0x55 (R216). -/
def alawMagnitude (a : Nat) : Int :=
  if a / 16 % 8 = 0 then a % 16 * 16 + 8 else (a % 16 * 16 + 264) * 2 ^ (a / 16 % 8 - 1)

theorem alawInt_eq (c : Byte) : alawInt c =
    if (c.toNat ^^^ 0x55) / 128 = 1 then alawMagnitude (c.toNat ^^^ 0x55) else -alawMagnitude (c.toNat ^^^ 0x55) := by
  have ha : (c ^^^ 0x55#8).toNat = c.toNat ^^^ 0x55 := BitVec.toNat_xor _ _
  simp only [alawInt, alawMagnitude, Byte.msb_iff, Byte.exponent_toNat, Byte.mantissa_toNat, ha, Nat.shiftLeft_eq]
  push_cast
  rfl

theorem alawMagnitude_bounds (a : Nat) : 8 ≤ alawMagnitude a ∧ alawMagnitude a ≤ 32256 := by
  have hlow : a % 16 * 16 + 264 ≤ (a % 16 * 16 + 264) * 2 ^ (a / 16 % 8 - 1) :=
    Nat.le_mul_of_pos_right _ (Nat.two_pow_pos _)
  have hhigh : (a % 16 * 16 + 264) * 2 ^ (a / 16 % 8 - 1) ≤ (15 * 16 + 264) * 2 ^ 6 := by
    gcongr <;> omega
  rw [alawMagnitude]
  zify at hlow hhigh
  split <;> omega

theorem alawInt_ne_zero (c : Byte) : alawInt c ≠ 0 := by
  have := alawMagnitude_bounds (c.toNat ^^^ 0x55)
  rw [alawInt_eq]
  split <;> omega

theorem alawInt_natAbs_le (c : Byte) : (alawInt c).natAbs ≤ 32256 := by
  have := alawMagnitude_bounds (c.toNat ^^^ 0x55)
  rw [alawInt_eq]
  split <;> omega

theorem alawInt_flip (c : Byte) : alawInt (c ^^^ 0x80#8) = -alawInt c := by
  obtain ⟨hex, hman, hsign⟩ := Byte.flip_fields (c ^^^ 0x55#8)
  rw [alawInt, Byte.xor_flip, alawInt, hex, hman, hsign]
  cases (c ^^^ 0x55#8).msb <;> simp

end Sys2Proof.Machine
end

section
/-! The default tables (spec/42_companded_law.md R214, R217, R219), a table's entry at a code, and INIT_TABLES run
twice (R212). -/

namespace Sys2Proof.Machine

/-! ### Entries of a table -/

theorem lawEntry_eq_getElem? (tab : Vector F32 256) {code : Nat} (h : code < 256) :
    lawEntry tab code = tab[code]?.getD 0 := by
  simp only [lawEntry, Nat.mod_eq_of_lt h, Vector.getElem?_eq_getElem h, Option.getD_some]

theorem lawEntry_tableOf (entry : Byte → F32) (c : Byte) : lawEntry (tableOf entry) c.toNat = entry c := by
  simp only [lawEntry, tableOf, Vector.getElem_ofFn, Nat.mod_eq_of_lt c.isLt]
  rfl

theorem tableOf_all {entry : Byte → F32} {p : F32 → Bool} (h : ∀ c, p (entry c) = true) :
    (tableOf entry).toList.all p = true := by
  rw [List.all_eq_true]
  intro w hw
  obtain ⟨c, hc, rfl⟩ := Vector.mem_iff_getElem.1 (Vector.mem_toList_iff.1 hw)
  rw [tableOf, Vector.getElem_ofFn]
  exact h _

/-! ### The default entries -/

theorem signed_not (neg : Bool) (p : Nat) : signed (!neg) p = signed neg p ^^^ 0x80000000#32 := by
  have hflip : BitVec.ofBool (!neg) = BitVec.ofBool neg ^^^ 1#1 := by cases neg <;> rfl
  rw [signed, signed, hflip, show 0x80000000#32 = 1#1 ++ 0#31 from rfl, BitVec.xor_append, BitVec.xor_zero]

/-- `f32` is odd but at 0, whose image has one sign. -/
theorem f32_neg {num : Int} (h : num ≠ 0) (den : Nat) : f32 (-num) den = f32 num den ^^^ 0x80000000#32 := by
  have hsign : decide (-num < 0) = !decide (num < 0) := by
    rw [← decide_not]
    exact decide_eq_decide.2 (by omega)
  rw [f32, Int.natAbs_neg, hsign, signed_not, f32]

theorem alawEntry_value (c : Byte) : f32Value (alawEntry c) = (alawInt c : ℚ) / 32768 := by
  have := alawInt_natAbs_le c
  exact f32Value_f32_of_eq_two_pow (k := 15) rfl (by decide) (by omega)

/-- No A-law entry is a zero of either sign (R219). -/
theorem alawEntry_magnitude_ne_zero (c : Byte) : (alawEntry c).toNat % 2 ^ 31 ≠ 0 := by
  intro h
  have hzero : f32Value (alawEntry c) = 0 := by
    rw [← abs_eq_zero, abs_f32Value, h, magnitudeValue_zero]
  rw [alawEntry_value, div_eq_zero_iff, Int.cast_eq_zero] at hzero
  exact hzero.elim (alawInt_ne_zero c) (by norm_num)

theorem normalized_alawEntry (c : Byte) : normalized (alawEntry c) = true := by
  have := alawInt_natAbs_le c
  exact normalized_f32 (by decide) (by omega)

theorem normalized_ulawEntry (c : Byte) : normalized (ulawEntry c) = true :=
  normalized_f32 (by decide) (ulawInt_natAbs_le c)

theorem defaultConfig_wellFormed : defaultConfig.wellFormed = true := by
  simp [Config.wellFormed, Config.maxIndexOk, Config.alawOk, Config.ulawOk, defaultConfig,
    tableOf_all normalized_alawEntry, tableOf_all normalized_ulawEntry]

/-- The extremes of the A-law table (R219, R220). -/
theorem alawEntry_extremes : alawEntry 0xAA#8 = 0x3F7C0000#32 ∧ alawEntry 0x2A#8 = 0xBF7C0000#32 := by decide

/-- The extremes of the μ-law table, and its zeros (R219, R222). -/
theorem ulawEntry_extremes_zeros :
    ulawEntry 0x00#8 = 0xBF800000#32 ∧ ulawEntry 0x80#8 = 0x3F800000#32 ∧
    ulawEntry 0xFF#8 = 0x00000000#32 ∧ ulawEntry 0x7F#8 = 0x00000000#32 := by decide

/-! ### INIT_TABLES -/

/-- A second INIT_TABLES changes nothing (R212). -/
theorem exec_initTables_twice {s t : State} (h : exec .initTables s = .next t) : exec .initTables t = .next t := by
  cases h
  rfl

end Sys2Proof.Machine
end

section
/-! The statements on unit LAW and its tables (spec/42_companded_law.md). -/

namespace Sys2Proof
open Sys2Proof.Machine

/-- Settles O26, by the decoders' conversion; the corner entries are evaluated. -/
theorem alawDecodersLookUpEachCode : Obligations.AlawDecodersLookUpEachCode := by
  unfold Obligations.AlawDecodersLookUpEachCode
  have hconv (s : State) (c : Nat) (hc : c < 256 ^ 1) : lawEntry s.alawTab c = s.alawTab[c]?.getD 0 :=
    lawEntry_eq_getElem? _ hc
  exact ⟨rfl, rfl, Converts.monoDecoder ⟨rfl, rfl, fun _ => rfl, hconv⟩ rfl,
    Converts.stereoDecoder ⟨rfl, rfl, fun _ => rfl, hconv⟩ rfl, by decide, by decide, alawEntry_extremes⟩

/-- Settles O27, as for A-law. -/
theorem ulawDecodersLookUpEachCode : Obligations.UlawDecodersLookUpEachCode := by
  unfold Obligations.UlawDecodersLookUpEachCode
  have hconv (s : State) (c : Nat) (hc : c < 256 ^ 1) : lawEntry s.ulawTab c = s.ulawTab[c]?.getD 0 :=
    lawEntry_eq_getElem? _ hc
  obtain ⟨hmin, hmax, hzero, hzero'⟩ := ulawEntry_extremes_zeros
  exact ⟨rfl, rfl, Converts.monoDecoder ⟨rfl, rfl, fun _ => rfl, hconv⟩ rfl,
    Converts.stereoDecoder ⟨rfl, rfl, fun _ => rfl, hconv⟩ rfl, hmin, hmax, hzero, hzero', by decide⟩

/-- Settles O49: the fields of a code are digits of its number, and an A-law integer over 2^15 is exact. -/
theorem defaultTablesFollowTheirFormulas : Obligations.DefaultTablesFollowTheirFormulas := by
  unfold Obligations.DefaultTablesFollowTheirFormulas
  refine ⟨fun c => ?_, fun c => ?_, fun c => ⟨lawEntry_tableOf alawEntry c, lawEntry_tableOf ulawEntry c⟩⟩
  · obtain ⟨hnonneg, hle⟩ := ulawMagnitude_bounds (255 - c.toNat)
    exact ⟨ulawInt_eq c, hnonneg, hle, rfl⟩
  · obtain ⟨hge, hle⟩ := alawMagnitude_bounds (c.toNat ^^^ 0x55)
    exact ⟨alawInt_eq c, hge, hle, alawEntry_value c⟩

/-- Settles O17: each LAW decoder asks for the tables before it looks at its arguments. -/
theorem lawDecodersNeedTheTables : Obligations.LawDecodersNeedTheTables := by
  unfold Obligations.LawDecodersNeedTheTables
  intro i s hl hready
  exact exec_law_not_ready s hl hready

/-- Settles O19: the next state is the tables of the parameters, ready, whatever was there. -/
theorem initTablesFillsBothTables : Obligations.InitTablesFillsBothTables := by
  unfold Obligations.InitTablesFillsBothTables
  refine ⟨rfl, fun t ht => ?_, fun s => ⟨_, exec_initTables s, rfl, fun c h => ⟨rfl, rfl⟩,
    exec_initTables_twice (exec_initTables s)⟩⟩
  cases ht
  rfl

/-- Settles O50: the integers are odd under the code's sign bit and zero at two μ-law codes alone. -/
theorem defaultTablesHaveTheirProperties : Obligations.DefaultTablesHaveTheirProperties := by
  unfold Obligations.DefaultTablesHaveTheirProperties
  obtain ⟨hmin, hmax, hzero, hzero'⟩ := ulawEntry_extremes_zeros
  refine ⟨defaultConfig_wellFormed, fun c => ?_, fun c h7F hFF => ?_, hmin, hmax, hzero, hzero',
    fun c => ⟨fun h => ?_, fun h => ?_⟩, alawEntry_extremes⟩
  · rw [alawEntry, alawInt_flip, f32_neg (alawInt_ne_zero c), alawEntry]
  · rw [ulawEntry, ulawInt_flip, f32_neg (ulawInt_ne_zero h7F hFF), ulawEntry]
  · exact alawEntry_magnitude_ne_zero c (by rw [h]; rfl)
  · exact alawEntry_magnitude_ne_zero c (by rw [h]; rfl)

end Sys2Proof
end

section
/-! One nibble of the ADPCM decoder and the block header (spec/43_ima_adpcm.md R244, R245), in integers. -/

namespace Sys2Proof.Machine

theorem clamp_eq_max_min {lo hi : Int} (h : lo ≤ hi) (v : Int) : clamp v lo hi = max lo (min v hi) := by
  rw [clamp]
  split
  · omega
  · split <;> omega

theorem clampIndex_val (v : Int) : ((clampIndex v).val : Int) = max 0 (min v 88) := by
  have hval : (clampIndex v).val = min v.toNat 88 := rfl
  omega

/-- A bit of a nibble is a digit of its number. -/
theorem nibble_bit_iff (nib : BitVec 4) {j : Nat} (hj : j < 4) : nib[j] = true ↔ nib.toNat / 2 ^ j % 2 = 1 := by
  rw [BitVec.getElem_eq_testBit_toNat, Nat.testBit_eq_decide_div_mod_eq, decide_eq_true_iff]

/-- `diff` of R245 with its shifts read as divisions. -/
theorem nibbleDiff_eq (step : Nat) (nib : BitVec 4) : (nibbleDiff step nib : Int) =
    step / 8 + (if nib.toNat / 4 % 2 = 1 then (step : Int) else 0)
      + (if nib.toNat / 2 % 2 = 1 then (step : Int) / 2 else 0)
      + (if nib.toNat % 2 = 1 then (step : Int) / 4 else 0) := by
  have hbit0 := nibble_bit_iff nib (j := 0) (by decide)
  rw [pow_zero, Nat.div_one] at hbit0
  simp only [nibbleDiff, nibble_bit_iff, hbit0, Nat.shiftRight_eq_div_pow]
  push_cast
  rfl

theorem nibble_sign_iff (nib : BitVec 4) : nib[3] = true ↔ nib.toNat / 8 = 1 := by
  have hlt := nib.isLt
  rw [nibble_bit_iff nib (by decide)]
  omega

/-- The clamped sum is an s16, so the register holds it as it is (R249). -/
theorem step_pred_toInt (c : Channel) (nib : BitVec 4) : (c.step nib).pred.toInt =
    max (-32768) (min (if nib[3] then c.pred.toInt - nibbleDiff stepTable[c.idx] nib
      else c.pred.toInt + nibbleDiff stepTable[c.idx] nib) 32767) := by
  rw [← clamp_eq_max_min (by decide)]
  refine BitVec.toInt_ofInt_eq_self (by decide) ?_ ?_ <;> rw [clamp_eq_max_min (by decide)] <;> omega

/-- The sample is exact: an s16 over 2^15 (R249). -/
theorem sample_value (c : Channel) : f32Value c.sample = (c.pred.toInt : ℚ) / 32768 := by
  have hlow := BitVec.le_two_mul_toInt (x := c.pred)
  have hhigh := BitVec.two_mul_toInt_lt (x := c.pred)
  exact f32Value_f32_of_eq_two_pow (k := 15) rfl (by decide) (by omega)

/-- The index of a header is its third byte, clamped (R244). -/
theorem loadHeader_idx (signedIndex : Bool) (m : Memory) (h : Nat) :
    (loadHeader signedIndex m h).idx =
      clampIndex (if signedIndex then (m.read (h + 2)).toInt else (m.read (h + 2)).toNat) := by
  rw [loadHeader, Memory.readLE_one, sext, BitVec.ofNat_toNat, BitVec.setWidth_eq]

/-- A header depends on its first three bytes alone (R244). -/
theorem loadHeader_congr {m m' : Memory} {h : Nat} (hm : ∀ x, InSpan h 3 x → m.read x = m'.read x)
    (signedIndex : Bool) : loadHeader signedIndex m h = loadHeader signedIndex m' h := by
  have hpred : m.readLE h 2 = m'.readLE h 2 := Memory.readLE_congr fun x hx => hm x ⟨hx.1, by omega⟩
  have hidx : m.readLE (h + 2) 1 = m'.readLE (h + 2) 1 :=
    Memory.readLE_congr fun x hx => hm x ⟨by omega, by omega⟩
  rw [loadHeader, loadHeader, hpred, hidx]

end Sys2Proof.Machine
end

section
/-! An accepted ADPCM decoder frame by frame (spec/43_ima_adpcm.md R250, R251): each frame takes the channel from the
block header or from the frame before. -/

namespace Sys2Proof.Machine

variable {i : Instr} {s : State} {right : Bool}

/-- A channel's state after a frame, from the state after the frame before; the first frame looks at none. -/
theorem chanAt_eq_frame_pred {init : Channel} {frame : Nat → Channel → Channel}
    (h0 : ∀ c c', frame 0 c = frame 0 c') (f : Nat) :
    chanAt init frame f = frame f (chanAt init frame (f - 1)) := by
  cases f with
  | zero => exact h0 _ _
  | succ f => rfl

theorem chanBefore_eq_chanAt_pred {n : Nat} (hn : 0 < n) (init : Channel) (frame : Nat → Channel → Channel) :
    chanBefore init frame n = chanAt init frame (n - 1) := by
  cases n with
  | zero => cases hn
  | succ n => rfl

theorem State.ValidArgs.frames_pos (hv : s.ValidArgs i) : 0 < s.frames := by
  have := hv.positive
  rw [State.frames]
  omega

theorem lowNibble_eq (byte : Nat) : lowNibble byte = BitVec.ofNat 4 (byte % 16) :=
  BitVec.eq_of_toNat_eq (by simp [lowNibble])

/-- A mono frame, its data byte read as one byte (R246). -/
theorem imaFrame_mono (s : State) (f : Nat) (c : Channel) :
    let p := f % s.spb.toInt.toNat
    let block := s.blockAddr (f / s.spb.toInt.toNat)
    let byte := (s.mem.read (block + 4 + p / 2)).toNat
    s.imaFrame .imaM s.mem false f c =
      (if p = 0 then loadHeader s.cfg.adpcmIndexByteSigned s.mem block else c).step
        (BitVec.ofNat 4 (if p % 2 = 0 then byte % 16 else byte / 16)) := by
  intro p block byte
  rw [apply_ite (BitVec.ofNat 4), ← lowNibble_eq]
  rfl

/-- A stereo frame, its data byte read as one byte, for the channel of a side (R247). -/
theorem imaFrame_stereo (s : State) (right : Bool) (f : Nat) (c : Channel) :
    let p := f % s.spb.toInt.toNat
    let block := s.blockAddr (f / s.spb.toInt.toNat)
    let byte := (s.mem.read (block + 8 + p)).toNat
    s.imaFrame .imaS s.mem right f c =
      (if p = 0 then loadHeader s.cfg.adpcmIndexByteSigned s.mem (if right then block + 4 else block) else c).step
        (BitVec.ofNat 4 (if right then byte / 16 else byte % 16)) := by
  intro p block byte
  rw [apply_ite (BitVec.ofNat 4), ← lowNibble_eq]
  rfl

/-- The channel of each side after an accepted ADPCM decoder is that of the last frame (log 7). -/
theorem accepted_channels_last (ha : isAdpcm i = true) (hv : s.ValidArgs i) (hk : s.KeepsDuties i) :
    (s.accepted i).ch0 = chanAt s.ch0 (s.imaFrame i s.mem false) (s.frames - 1) ∧
      (isStereo i = true → (s.accepted i).ch1 = chanAt s.ch1 (s.imaFrame i s.mem true) (s.frames - 1)) := by
  obtain ⟨hleft, hright⟩ := accepted_channels ha hv hk
  rw [chanBefore_eq_chanAt_pred hv.frames_pos] at hleft hright
  exact ⟨hleft, hright⟩

end Sys2Proof.Machine
end

section
/-! Whole blocks decoded apart (spec/43_ima_adpcm.md R252): a command that starts at a block of another one's input
writes, for each of its frames, what the other command writes for it. -/

namespace Sys2Proof.Machine

variable {i : Instr} {s s' : State} {right : Bool} {k f a : Nat}

/-- The first frame of an IMA block (R243). -/
def State.blockStart (s : State) (k : Nat) : Nat := k * s.spb.toInt.toNat

/-- `s'` asks for frames of `s`'s command alone, from the first frame of block `k` on, and sees the same input bytes. -/
structure BlocksOf (i : Instr) (s s' : State) (k : Nat) : Prop where
  cfg : s'.cfg = s.cfg
  spb : s'.spb = s.spb
  blksz : s'.blksz = s.blksz
  inBase : s'.inBase = s.blockAddr k
  out0Base : s'.out0Base = s.out0Base + 4 * s.blockStart k
  out1Base : s'.out1Base = s.out1Base + 4 * s.blockStart k
  framesPos : 0 < s'.frames
  framesLe : s.blockStart k + s'.frames ≤ s.frames
  bytes : ∀ a, s.ReadsByte i a → s'.mem.read a = s.mem.read a

/-- Channel states of frames shifted by `d`, when frame `d` ignores the channel. -/
theorem chanAt_shift {c c' : Channel} {frame frame' : Nat → Channel → Channel} {d n : Nat}
    (hd : ∀ c c', frame d c = frame d c') (h : ∀ f ≤ n, ∀ c, frame' f c = frame (d + f) c) :
    chanAt c' frame' n = chanAt c frame (d + n) := by
  induction n with
  | zero => rw [chanAt_eq, chanAt_eq c, h 0 (le_refl _)]; exact hd _ _
  | succ n ih => rw [chanAt, h _ (le_refl _), ih fun f hf => h f (by omega)]; rfl

/-- The first frame of a block loads the header, so it does not look at the channel (R244, R252). -/
theorem imaFrame_blockStart (s : State) (i : Instr) (m : Memory) (right : Bool) (k : Nat) (c c' : Channel) :
    s.imaFrame i m right (s.blockStart k) c = s.imaFrame i m right (s.blockStart k) c' := by
  have hpos : s.blockStart k % s.samplesPerBlock.toNat = 0 := Nat.mul_mod_left _ _
  simp [State.imaFrame, stereoFrameState, monoFrameState, hpos]

namespace BlocksOf

variable (h : BlocksOf i s s' k)
include h

theorem outBase_eq (right : Bool) : s'.outBase right = s.outBase right + 4 * s.blockStart k := by
  cases right
  · exact h.out0Base
  · exact h.out1Base

theorem blockAddr_eq (b : Nat) : s'.blockAddr b = s.blockAddr (k + b) := by
  rw [State.blockAddr, h.inBase, h.blksz, State.blockAddr, State.blockAddr, Nat.add_mul, Nat.add_assoc]

theorem isBlock {b : Nat} (hb : s'.IsBlock b) : s.IsBlock (k + b) := by
  have hle := h.framesLe
  rw [State.IsBlock, h.spb] at hb
  rw [State.IsBlock, Nat.add_mul]
  rw [State.blockStart] at hle
  omega

theorem framesOfBlock_le (b : Nat) : s'.framesOfBlock b ≤ s.framesOfBlock (k + b) := by
  have hle := h.framesLe
  rw [State.framesOfBlock, h.spb, State.framesOfBlock, Nat.add_mul]
  rw [State.blockStart] at hle
  omega

/-- Its input bytes are among those of the whole command. -/
theorem readsByte (ha : isAdpcm i = true) (hr : s'.ReadsByte i a) : s.ReadsByte i a := by
  cases i with
  | imaM =>
    obtain ⟨b, hb, hin⟩ := hr
    have hle := h.framesOfBlock_le b
    rw [h.blockAddr_eq] at hin
    exact ⟨k + b, h.isBlock hb, hin.imp id fun hin => ⟨hin.1, by omega⟩⟩
  | imaS =>
    obtain ⟨b, hb, hin⟩ := hr
    have hle := h.framesOfBlock_le b
    rw [h.blockAddr_eq] at hin
    exact ⟨k + b, h.isBlock hb, hin.imp id (Or.imp id fun hin => ⟨hin.1, by omega⟩)⟩
  | _ => cases ha

/-- Its output bytes are among those of the whole command, side by side. -/
theorem inSpan_outBase (right : Bool) (hin : InSpan (s'.outBase right) (4 * s'.frames) a) :
    InSpan (s.outBase right) (4 * s.frames) a := by
  have hle := h.framesLe
  rw [h.outBase_eq] at hin
  exact ⟨by omega, by omega⟩

theorem writesByte (hw : s'.WritesByte i a) : s.WritesByte i a := by
  obtain ⟨right, hr, hin⟩ := (writesByte_iff hw.1).1 hw
  exact (writesByte_iff hw.1).2 ⟨right, hr, h.inSpan_outBase right hin⟩

theorem validArgs (hv : s.ValidArgs i) : s'.ValidArgs i where
  inPresent := by have := hv.inPresent; rw [h.inBase, State.blockAddr]; omega
  out0Present := by have := hv.out0Present; rw [h.out0Base]; omega
  out1Present hs := by have := hv.out1Present hs; rw [h.out1Base]; omega
  positive := by have := h.framesPos; rw [State.frames] at this; omega
  guarded := by
    have hle := h.framesLe
    have hguard := hv.guarded
    rw [State.frames, State.frames] at hle
    rw [h.cfg]
    omega
  spbPositive := h.spb ▸ hv.spbPositive
  spbEven := h.spb ▸ hv.spbEven
  blkszPositive := h.blksz ▸ hv.blkszPositive

theorem keepsDuties (ha : isAdpcm i = true) (hk : s.KeepsDuties i) : s'.KeepsDuties i where
  readsAllocated a hr := h.cfg ▸ hk.readsAllocated a (h.readsByte ha hr)
  writesAllocated a hw := h.cfg ▸ hk.writesAllocated a (h.writesByte hw)
  inputApart a hr hw := hk.inputApart a (h.readsByte ha hr) (h.writesByte hw)
  outputsApart hs a h0 h1 := hk.outputsApart hs a (h.inSpan_outBase false h0) (h.inSpan_outBase true h1)

/-- Its frame `f` is frame `k * SPB + f` of the whole command. -/
theorem imaFrame_eq (ha : isAdpcm i = true) (hspb : 0 < s.spb.toInt) (hf : f < s'.frames) (right : Bool)
    (c : Channel) :
    s'.imaFrame i s'.mem right f c = s.imaFrame i s.mem right (s.blockStart k + f) c := by
  have hle := h.framesLe
  have hpos : (s.blockStart k + f) % s.samplesPerBlock.toNat = f % s.samplesPerBlock.toNat :=
    Nat.mul_add_mod_self_right k _ f
  have hdiv : (s.blockStart k + f) / s.samplesPerBlock.toNat = k + f / s.samplesPerBlock.toNat := by
    have hspb' : 0 < s.samplesPerBlock.toNat := by rw [State.samplesPerBlock]; omega
    rw [State.blockStart, Nat.add_comm, ← State.samplesPerBlock, Nat.add_mul_div_right _ _ hspb', Nat.add_comm]
  have hspb_eq : s'.samplesPerBlock = s.samplesPerBlock := congrArg BitVec.toInt h.spb
  have hblock : s'.inBase + f / s.samplesPerBlock.toNat * s'.blockSize.toNat =
      s.inBase + (k + f / s.samplesPerBlock.toNat) * s.blockSize.toNat := h.blockAddr_eq _
  rw [← imaFrame_congr ha hspb (by omega) h.bytes right c]
  simp only [State.imaFrame, stereoFrameState, monoFrameState, hpos, hdiv, hspb_eq, hblock, h.cfg]

theorem chanAt_eq (ha : isAdpcm i = true) (hspb : 0 < s.spb.toInt) (hf : f < s'.frames) (right : Bool)
    (c c' : Channel) :
    chanAt c' (s'.imaFrame i s'.mem right) f = chanAt c (s.imaFrame i s.mem right) (s.blockStart k + f) :=
  chanAt_shift (imaFrame_blockStart s i s.mem right k)
    fun _ hg => h.imaFrame_eq ha hspb (Nat.lt_of_le_of_lt hg hf) right

/-- It writes what the whole command writes there. -/
theorem accepted_read_eq (ha : isAdpcm i = true) (hv : s.ValidArgs i) (hk : s.KeepsDuties i)
    (hw : s'.WritesByte i a) : (s'.accepted i).mem.read a = (s.accepted i).mem.read a := by
  have hspb := hv.spbPositive ha
  have hle := h.framesLe
  obtain ⟨right, hr, hfrom, hto⟩ := (writesByte_iff hw.1).1 hw
  obtain ⟨f, j, hj, hf, rfl⟩ : ∃ f j, j < 4 ∧ f < s'.frames ∧ a = s'.outBase right + 4 * f + j :=
    ⟨(a - s'.outBase right) / 4, (a - s'.outBase right) % 4, by omega, by omega, by omega⟩
  have hsample : s'.outputSample i right f = s.outputSample i right (s.blockStart k + f) := by
    simp only [State.outputSample, if_pos ha]
    rw [h.chanAt_eq ha hspb hf]
  have haddr : s'.outBase right + 4 * f = s.outBase right + 4 * (s.blockStart k + f) := by
    rw [h.outBase_eq]
    omega
  refine read_eq_of_wordAt_eq ?_ hj
  rw [accepted_word hw.1 (h.validArgs hv) (h.keepsDuties ha hk) hr hf, hsample, haddr,
    accepted_word hw.1 hv hk hr (by omega)]

/-- When it ends with the whole command's last frame, it leaves the same channels (log 7). -/
theorem accepted_channels_eq (ha : isAdpcm i = true) (hv : s.ValidArgs i) (hk : s.KeepsDuties i)
    (hend : s.blockStart k + s'.frames = s.frames) :
    (s'.accepted i).ch0 = (s.accepted i).ch0 ∧
      (isStereo i = true → (s'.accepted i).ch1 = (s.accepted i).ch1) := by
  have hpos := h.framesPos
  have hlast (right : Bool) (c c' : Channel) : chanAt c' (s'.imaFrame i s'.mem right) (s'.frames - 1) =
      chanAt c (s.imaFrame i s.mem right) (s.frames - 1) := by
    rw [h.chanAt_eq ha (hv.spbPositive ha) (by omega) right c]
    congr 1
    omega
  obtain ⟨hleft, hright⟩ := accepted_channels_last ha hv hk
  obtain ⟨hleft', hright'⟩ := accepted_channels_last ha (h.validArgs hv) (h.keepsDuties ha hk)
  exact ⟨by rw [hleft, hleft', hlast], fun hs => by rw [hright hs, hright' hs, hlast]⟩

end BlocksOf

/-! ### The cut -/

theorem isDecoder_of_isAdpcm (ha : isAdpcm i = true) : isDecoder i = true := by
  cases i with
  | imaM | imaS => rfl
  | _ => cases ha

/-- An ADPCM decoder is no LAW decoder, so it needs no tables (R224). -/
theorem tablesReady_of_isAdpcm (ha : isAdpcm i = true) (hl : isLaw i = true) : s.tablesReady = true := by
  cases i with
  | imaM | imaS => cases hl
  | _ => cases ha

/-- A count no larger than the command's own is read back as it was written (R161). -/
theorem frames_ofNat {n : Nat} (h : n ≤ s.frames) : (BitVec.ofNat 32 n).toInt.toNat = n := by
  have hcount := BitVec.two_mul_toInt_lt (x := s.count)
  rw [State.frames] at h
  rw [BitVec.toInt_ofNat', Int.bmod_eq_of_le] <;> omega

/-- The command for the first `k` whole blocks (R252). -/
def State.firstBlocks (s : State) (k : Nat) : State := { s with count := BitVec.ofNat 32 (s.blockStart k) }

/-- The command for the blocks from `k` on, issued in a state `u` (R252). -/
def State.restAfter (s u : State) (k : Nat) : State :=
  { u with
    inBase := s.blockAddr k, out0Base := s.out0Base + 4 * s.blockStart k, out1Base := s.out1Base + 4 * s.blockStart k
    count := BitVec.ofNat 32 (s.frames - s.blockStart k) }

theorem blocksOf_firstBlocks (i : Instr) (hpos : 0 < s.blockStart k) (hlt : s.blockStart k < s.frames) :
    BlocksOf i s (s.firstBlocks k) 0 := by
  have hframes : (s.firstBlocks k).frames = s.blockStart k := frames_ofNat hlt.le
  have hzero : s.blockStart 0 = 0 := Nat.zero_mul _
  exact {
    cfg := rfl, spb := rfl, blksz := rfl
    inBase := by rw [State.blockAddr, Nat.zero_mul]; rfl
    out0Base := by rw [hzero]; rfl
    out1Base := by rw [hzero]; rfl
    framesPos := by omega
    framesLe := by omega
    bytes := fun _ _ => rfl }

theorem restAfter_frames (s u : State) (k : Nat) : (s.restAfter u k).frames = s.frames - s.blockStart k :=
  frames_ofNat (Nat.sub_le _ _)

/-- The first command leaves the input of the second as it was, since its outputs lie elsewhere (R72). -/
theorem blocksOf_restAfter (ha : isAdpcm i = true) (hk : s.KeepsDuties i) (hpos : 0 < s.blockStart k)
    (hlt : s.blockStart k < s.frames) : BlocksOf i s (s.restAfter ((s.firstBlocks k).accepted i) k) k := by
  have hfirst := blocksOf_firstBlocks i hpos hlt
  have hframes := restAfter_frames s ((s.firstBlocks k).accepted i) k
  have hbytes (a : Nat) (hr : s.ReadsByte i a) : ((s.firstBlocks k).accepted i).mem.read a = s.mem.read a :=
    accepted_read_outside (isDecoder_of_isAdpcm ha) fun hw => hk.inputApart a hr (hfirst.writesByte hw)
  rw [accepted_frame] at hframes hbytes ⊢
  exact {
    cfg := rfl, spb := rfl, blksz := rfl, inBase := rfl, out0Base := rfl, out1Base := rfl
    framesPos := by omega
    framesLe := by omega
    bytes := hbytes }

/-- Each output byte of the whole command is one of the two parts'. -/
theorem writesByte_split (u : State) (hlt : s.blockStart k < s.frames) (hw : s.WritesByte i a) :
    (s.firstBlocks k).WritesByte i a ∨ (s.restAfter u k).WritesByte i a := by
  obtain ⟨right, hr, hin⟩ := (writesByte_iff hw.1).1 hw
  have hfirst : (s.firstBlocks k).frames = s.blockStart k := frames_ofNat hlt.le
  have hrest := restAfter_frames s u k
  have hbase : (s.restAfter u k).outBase right = s.outBase right + 4 * s.blockStart k := by cases right <;> rfl
  by_cases hcut : a < s.outBase right + 4 * s.blockStart k
  · exact .inl ((writesByte_iff hw.1).2 ⟨right, hr, hin.1, by rw [hfirst]; exact hcut⟩)
  · exact .inr ((writesByte_iff hw.1).2 ⟨right, hr, by omega, by omega⟩)

end Sys2Proof.Machine
end

section
/-! The statements on unit ADPCM (spec/43_ima_adpcm.md). -/

namespace Sys2Proof
open Sys2Proof.Machine

/-- Settles O28: the bits of the nibble are digits of its number, and both clamps keep their register's range. -/
theorem nibbleStepFollowsTheTables : Obligations.NibbleStepFollowsTheTables := by
  unfold Obligations.NibbleStepFollowsTheTables
  intro c nib
  refine ⟨?_, clampIndex_val _, sample_value _⟩
  rw [step_pred_toInt, nibbleDiff_eq]
  simp only [nibble_sign_iff]

/-- Settles O30: the frame loop's channel is that of each frame, and the first frame ignores what was there. -/
theorem imaMonoDecodesEachFrame : Obligations.ImaMonoDecodesEachFrame := by
  unfold Obligations.ImaMonoDecodesEachFrame
  refine ⟨rfl, fun s => ⟨exec_decoder_invalid rfl nofun, fun hv hk =>
    ⟨_, chanAt s.ch0 (s.imaFrame .imaM s.mem false), exec_decoder_accepted rfl nofun hv hk, ?_, fun f hf =>
      ⟨?_, ?_⟩, fun a hout => ?_⟩⟩⟩
  · rw [← (accepted_channels_last rfl hv hk).1]
    exact accepted_frame s .imaM
  · exact (chanAt_eq_frame_pred imaFrame_zero f).trans (imaFrame_mono s f _)
  · exact accepted_word (right := false) rfl hv hk nofun hf
  · exact accepted_read_outside rfl fun hw => hw.2.elim hout nofun

/-- Settles O31, as for mono, for each side. -/
theorem imaStereoDecodesEachFrame : Obligations.ImaStereoDecodesEachFrame := by
  unfold Obligations.ImaStereoDecodesEachFrame
  refine ⟨rfl, fun s => ⟨exec_decoder_invalid rfl nofun, fun hv hk =>
    ⟨_, chanAt s.ch0 (s.imaFrame .imaS s.mem false), chanAt s.ch1 (s.imaFrame .imaS s.mem true),
      exec_decoder_accepted rfl nofun hv hk, ?_, fun f hf => ⟨?_, ?_, ?_, ?_⟩, fun a hout0 hout1 => ?_⟩⟩⟩
  · obtain ⟨hleft, hright⟩ := accepted_channels_last rfl hv hk
    rw [← hleft, ← hright rfl]
    exact accepted_frame s .imaS
  · exact (chanAt_eq_frame_pred imaFrame_zero f).trans (imaFrame_stereo s false f _)
  · exact (chanAt_eq_frame_pred imaFrame_zero f).trans (imaFrame_stereo s true f _)
  · exact accepted_word (right := false) rfl hv hk nofun hf
  · exact accepted_word (right := true) rfl hv hk (fun _ => rfl) hf
  · exact accepted_read_outside rfl fun hw => hw.2.elim hout0 fun hw => hout1 hw.2

/-- Settles O32: each part writes what the whole command writes there, and the second ends with its last frame. -/
theorem imaBlocksDecodeIndependently : Obligations.ImaBlocksDecodeIndependently := by
  unfold Obligations.ImaBlocksDecodeIndependently
  intro i s k ha hv hk hkpos hlt
  have hd := isDecoder_of_isAdpcm ha
  have hlaw {u : State} : isLaw i = true → u.tablesReady = true := tablesReady_of_isAdpcm ha
  have hspb := hv.spbPositive ha
  have hpos : 0 < s.blockStart k := Nat.mul_pos hkpos (by omega)
  have hfirst := blocksOf_firstBlocks i hpos hlt
  have hrest := blocksOf_restAfter ha hk hpos hlt
  refine ⟨s.accepted i, (s.firstBlocks k).accepted i, (s.restAfter ((s.firstBlocks k).accepted i) k).accepted i,
    exec_decoder_accepted hd hlaw hv hk,
    exec_decoder_accepted hd hlaw (hfirst.validArgs hv) (hfirst.keepsDuties ha hk),
    exec_decoder_accepted hd hlaw (hrest.validArgs hv) (hrest.keepsDuties ha hk), fun a => ?_, ?_⟩
  · by_cases hwRest : (s.restAfter ((s.firstBlocks k).accepted i) k).WritesByte i a
    · exact hrest.accepted_read_eq ha hv hk hwRest
    rw [accepted_read_outside hd hwRest]
    by_cases hwFirst : (s.firstBlocks k).WritesByte i a
    · exact hfirst.accepted_read_eq ha hv hk hwFirst
    have hw : ¬ s.WritesByte i a := fun hw => (writesByte_split _ hlt hw).elim hwFirst hwRest
    exact (accepted_read_outside hd hwFirst).trans (accepted_read_outside hd hw).symm
  · have hend : s.blockStart k + (s.restAfter ((s.firstBlocks k).accepted i) k).frames = s.frames := by
      rw [restAfter_frames]
      exact Nat.add_sub_cancel' hlt.le
    obtain ⟨hleft, hright⟩ := hrest.accepted_channels_eq ha hv hk hend
    refine ⟨hleft, ?_⟩
    by_cases hi : i = .imaS
    · exact hright (by rw [hi]; rfl)
    · rw [accepted_ch1 _ hi, accepted_ch1 s hi]
      exact accepted_ch1 _ hi

/-- Settles O29: a header's predictor is its first two bytes, its index the third, and it looks at no fourth. -/
theorem blockHeaderLoadsTheState : Obligations.BlockHeaderLoadsTheState := by
  unfold Obligations.BlockHeaderLoadsTheState
  refine fun m h => ⟨fun _ => rfl, ?_, ?_, fun signedIndex v => ?_⟩
  · rw [loadHeader_idx]
    rfl
  · rw [loadHeader_idx]
    exact clampIndex_val _
  · exact loadHeader_congr (fun x hx => Memory.read_write_other _ _ _ (by omega)) signedIndex

end Sys2Proof
end

section
/-! Exceptions (spec/60_exceptions.md): the code an operation can end with (R271), what a failure changes (R272),
and the host actions a step can refuse or fault on (R277, R303). -/

namespace Sys2Proof.Machine

variable {i : Instr} {s t : State} {v : Nat} {r : Refusal} {f : Fault}

/-! ### The end of an operation -/

/-- The codes each kind of operation can end with (R271). -/
theorem exec_result_cases (h : exec i s = .next t) :
    (isDecoder i = true ∧ (t.result = .ok ∨ t.result = .rejected)) ∨
      (i = .parseHeader ∧ (t.result = .ok ∨ t.result = .parseFail)) ∨ (i = .initTables ∧ t.result = .ok) := by
  obtain ⟨hi, rfl⟩ | ⟨hi, ⟨record, rfl⟩ | rfl⟩ | ⟨hd, rfl | rfl⟩ := exec_next_cases h
  · exact .inr (.inr ⟨hi, rfl⟩)
  · exact .inr (.inl ⟨hi, .inl rfl⟩)
  · exact .inr (.inl ⟨hi, .inr rfl⟩)
  · exact .inl ⟨hd, .inr rfl⟩
  · exact .inl ⟨hd, .inl (accepted_result s i)⟩

/-- ILLEGAL_CMD is the decoder's verdict on a word, never an operation's (R96, R271). -/
theorem exec_result_ne_illegalCmd (h : exec i s = .next t) : t.result ≠ .illegalCmd := by
  obtain ⟨-, hr | hr⟩ | ⟨-, hr | hr⟩ | ⟨-, hr⟩ := exec_result_cases h <;> simp [hr]

theorem exec_rejected (h : exec i s = .next t) (hr : t.result = .rejected) : t = s.finish .rejected := by
  obtain ⟨-, rfl⟩ | ⟨-, ⟨record, rfl⟩ | rfl⟩ | ⟨-, rfl | rfl⟩ := exec_next_cases h
  · cases hr
  · cases hr
  · cases hr
  · rfl
  · rw [accepted_result] at hr
    cases hr

theorem exec_parseFail (h : exec i s = .next t) (hr : t.result = .parseFail) : t = s.loseRecord.finish .parseFail := by
  obtain ⟨-, rfl⟩ | ⟨-, ⟨record, rfl⟩ | rfl⟩ | ⟨-, rfl | rfl⟩ := exec_next_cases h
  · cases hr
  · cases hr
  · rfl
  · cases hr
  · rw [accepted_result] at hr
    cases hr

/-! ### The end of a command -/

theorem issue_illegalCmd (h : issue v s = .next t) (hr : t.result = .illegalCmd) :
    t = (s.withCmd (BitVec.ofNat 32 v)).finish .illegalCmd := by
  simp only [issue] at h
  split at h
  · exact absurd hr (exec_result_ne_illegalCmd h)
  · cases h
    rfl

/-- A write of `CMD` is refused only when the operation it starts is. -/
theorem issue_refused (h : issue v s = .refused r) : ∃ i, exec i (s.withCmd (BitVec.ofNat 32 v)) = .refused r := by
  simp only [issue] at h
  split at h
  · exact ⟨_, h⟩
  · cases h

theorem issue_ne_fault : issue v s ≠ .fault f := by
  simp only [issue]
  split
  · exact exec_ne_fault _ _ _
  · exact nofun

/-- A reset during a command is refused only when the operation it starts is (log 18). -/
theorem issueThenReset_refused (h : issueThenReset v s = .refused r) :
    ∃ i, exec i (s.withCmd (BitVec.ofNat 32 v)) = .refused r := by
  simp only [issueThenReset] at h
  split at h
  · cases h
  · next i _ =>
    refine ⟨i, ?_⟩
    split at h
    · cases h
    · cases h
    · next he => rw [he, h]

theorem issueThenReset_ne_fault : issueThenReset v s ≠ .fault f := by
  simp only [issueThenReset]
  split
  · exact nofun
  · split
    · exact nofun
    · next he => exact absurd he (exec_ne_fault _ _ _)
    · exact nofun

/-! ### The steps that answer no next state -/

/-- A refused step is a command whose operation is refused, or a narrow register write. -/
theorem step_refused_cases (h : step s = .refused r) :
    (∃ v rest, (s.host = .wr 0 v :: rest ∨ s.host = .resetDuring v :: rest) ∧
      ∃ i, exec i ((s.withHost rest).withCmd (BitVec.ofNat 32 v)) = .refused r) ∨
    ∃ reg v rest, s.host = .wrPart reg v :: rest ∧ r = .partialWidthWrite := by
  cases hh : s.host with
  | nil => rw [step_idle hh] at h; cases h
  | cons a rest =>
    cases a with
    | wr reg v =>
      by_cases hr : reg = 0
      · subst hr
        rw [step_action hh] at h
        exact .inl ⟨v, rest, .inl rfl, issue_refused h⟩
      · rw [step_write hh hr] at h; cases h
    | resetDuring v =>
      rw [step_action hh] at h
      exact .inl ⟨v, rest, .inr rfl, issueThenReset_refused h⟩
    | wrPart reg v => rw [step_action hh] at h; cases h; exact .inr ⟨reg, v, rest, rfl, rfl⟩
    | rd reg => rw [step_read hh] at h; cases h
    | reset => rw [step_action hh] at h; cases h
    | st8 a bytes => rw [step_action hh] at h; exact absurd h withinSpace_ne_refused
    | ld8 a => rw [step_action hh] at h; exact absurd h withinSpace_ne_refused
    | ld32 a => rw [step_action hh] at h; exact absurd h withinSpace_ne_refused

/-- A faulting step is a host access of the buffer space (log 12). -/
theorem step_fault_cases (h : step s = .fault f) :
    (∃ a bytes rest, s.host = .st8 a bytes :: rest) ∨ (∃ a rest, s.host = .ld8 a :: rest) ∨
      ∃ a rest, s.host = .ld32 a :: rest := by
  cases hh : s.host with
  | nil => rw [step_idle hh] at h; cases h
  | cons a rest =>
    cases a with
    | wr reg v =>
      by_cases hr : reg = 0
      · subst hr
        rw [step_action hh] at h
        exact absurd h issue_ne_fault
      · rw [step_write hh hr] at h; cases h
    | resetDuring v => rw [step_action hh] at h; exact absurd h issueThenReset_ne_fault
    | wrPart reg v => rw [step_action hh] at h; cases h
    | rd reg => rw [step_read hh] at h; cases h
    | reset => rw [step_action hh] at h; cases h
    | st8 a bytes => exact .inl ⟨a, bytes, rest, rfl⟩
    | ld8 a => exact .inr (.inl ⟨a, rest, rfl⟩)
    | ld32 a => exact .inr (.inr ⟨a, rest, rfl⟩)

end Sys2Proof.Machine
end

section
/-! The statements on failures and refusals (spec/60_exceptions.md). -/

namespace Sys2Proof
open Sys2Proof.Machine

/-- Settles O14: the three kinds of operation are apart, and each has its own codes. -/
theorem eachOperationEndsWithItsCodes : Obligations.EachOperationEndsWithItsCodes := by
  unfold Obligations.EachOperationEndsWithItsCodes
  refine fun i s => ⟨exec_ne_fault i s, fun t h => ?_⟩
  obtain ⟨hd, hr⟩ | ⟨rfl, hr⟩ | ⟨rfl, hr⟩ := exec_result_cases h
  · refine ⟨fun _ => hr, ?_, ?_⟩
    · rintro rfl
      cases hd
    · rintro rfl
      cases hd
  · exact ⟨nofun, fun _ => hr, nofun⟩
  · exact ⟨nofun, nofun, fun _ => hr⟩

/-- Settles O16: each failing code has one next state, and ILLEGAL_CMD comes from no operation. -/
theorem failuresChangeNothingElse : Obligations.FailuresChangeNothingElse := by
  unfold Obligations.FailuresChangeNothingElse
  refine ⟨fun i s t h => ⟨exec_rejected h, fun hr => ?_⟩, fun s t v rest hh h hr => ?_⟩
  · rw [exec_parseFail h hr]
    rfl
  · rw [step_action hh] at h
    exact issue_illegalCmd h hr

/-- Settles O56: a refused command is a refused operation, and a fault is left to the host's own accesses. -/
theorem refusalsAreTheSpecsOwn : Obligations.RefusalsAreTheSpecsOwn := by
  unfold Obligations.RefusalsAreTheSpecsOwn
  refine fun s => ⟨fun r h => ?_, fun reg v rest hh => step_action hh, fun f h => step_fault_cases h⟩
  obtain ⟨v, rest, hh, i, he⟩ | hpart := step_refused_cases h
  · exact .inl ⟨v, rest, hh, exec_refused_cases he⟩
  · exact .inr hpart

end Sys2Proof
end

section
/-! The reset event during a command (spec/70_reset_and_hazards.md section 1, log 18): what it leaves of the
state, and that the bytes it loses are fixed by the operands and the count of draws. -/

namespace Sys2Proof.Machine

variable {i : Instr} {s u : State} {a : Nat}

theorem afterReset_cutShort (s : State) (rest : List HostAction) (i : Instr) (c : ResultCode) :
    AfterReset s rest ((s.withHost rest).cutShort i c) := by
  obtain ⟨k, hframe⟩ := cutShort_frame (s.withHost rest) i c
  rw [AfterReset, hframe]
  rfl

/-- A byte lost to the reset is a draw, whatever the buffer space held (log 5). -/
theorem cutShort_read_inside (m : Memory) (hw : s.WritesByte i a) :
    ((s.withMem m).cutShort i .ok).mem.read a = (s.cutShort i .ok).mem.read a :=
  Memory.read_loseSpans_inside m s.mem s.draws (s.outputFootprint i) ((mem_outputFootprint_iff s i a).2 hw)

theorem State.ValidArgs.withMem (hv : s.ValidArgs i) (m : Memory) : (s.withMem m).ValidArgs i := { hv with }

theorem State.KeepsDuties.withMem (hk : s.KeepsDuties i) (m : Memory) : (s.withMem m).KeepsDuties i := { hk with }

/-- Whether a decoder ends OK is decided by its operands and the allocation, not by the buffer space. -/
theorem exec_decoder_ok_withMem (hd : isDecoder i = true) (h : exec i s = .next u) (hok : u.result = .ok)
    (m : Memory) : exec i (s.withMem m) = .next ((s.withMem m).accepted i) := by
  obtain ⟨hready, ⟨-, rfl⟩ | ⟨hv, hk, -⟩⟩ := exec_decoder_cases hd h
  · cases hok
  · exact exec_decoder_accepted hd hready (hv.withMem m) (hk.withMem m)

end Sys2Proof.Machine
end

section
/-! Clean runs (spec/70_reset_and_hazards.md section 4, R310, R311): an invariant under which no step is
refused, and the one that holds of a host with harmless actions pending. -/

namespace Sys2Proof.Machine

variable {s t : State} {r : Refusal}

theorem exec_host {i : Instr} (h : exec i s = .next t) : t.host = s.host := by
  rw [exec_frame h]

@[simp] theorem State.writeRegister_host (s : State) (reg v : Nat) : (s.writeRegister reg v).host = s.host := by
  rw [writeRegister_frame]

@[simp] theorem State.readRegister_host (s : State) (reg : Nat) : (s.readRegister reg).host = s.host := rfl

@[simp] theorem State.cutShort_host (s : State) (i : Instr) (c : ResultCode) : (s.cutShort i c).host = s.host := by
  obtain ⟨k, hframe⟩ := cutShort_frame s i c
  rw [hframe]
  rfl

/-- Each step takes the action it serves off the host's pending ones, and puts none there (R310). -/
theorem step_host (h : step s = .next t) : t.host = s.host.tail := by
  obtain ⟨hh, rfl⟩ | ⟨rest, h⟩ := step_cases h
  · simp [hh]
  obtain ⟨v, i, hh, -, he⟩ | ⟨v, e, hh, -, rfl⟩ | ⟨reg, v, -, hh, rfl⟩ | ⟨reg, hh, rfl⟩ | ⟨a, bytes, hh, -, rfl⟩ |
    ⟨a, n, ⟨hh, -⟩ | ⟨hh, -⟩, rfl⟩ | ⟨hh, rfl⟩ | ⟨v, e, hh, -, rfl⟩ | ⟨v, i, u, hh, -, -, rfl⟩ := h
  · rw [exec_host he, hh]
    rfl
  all_goals simp [hh]

/-- A predicate that every step keeps and under which none is refused makes every run clean (R310). -/
theorem cleanRun_of_invariant {P : State → Prop} (hclean : ∀ s r, P s → step s ≠ .refused r)
    (hkeep : ∀ s t, P s → step s = .next t → P t) (k : Nat) (hs : P s) : CleanRun k s := by
  induction k generalizing s with
  | zero => exact nofun
  | succ k ih =>
    intro r
    simp only [Host.Core.run, Host.Check.core_step]
    cases h : step s with
    | next t => exact ih (hkeep s t hs h) r
    | fault f => exact nofun
    | refused r' => exact absurd h (hclean s r' hs)

/-- Whole-register writes, and no command but INIT_TABLES and the illegal ones (R311). -/
def Harmless (a : HostAction) : Prop :=
  (∀ reg v, a ≠ .wrPart reg v) ∧
    ∀ v i, a = .wr 0 v ∨ a = .resetDuring v → decode (BitVec.ofNat 32 v) = .ok i → i = .initTables

/-- An illegal command and INIT_TABLES always end, a reset during them or not. -/
theorem step_harmless_ne_refused (hs : ∀ a ∈ s.host, Harmless a) : step s ≠ .refused r := by
  intro h
  obtain ⟨v, rest, hh, -⟩ | ⟨reg, v, rest, hh, -⟩ := step_refused_cases h
  · have hinit : ∀ i, decode (BitVec.ofNat 32 v) = .ok i → i = .initTables := by
      rcases hh with hh | hh <;> rw [hh] at hs
      · exact fun i => (hs _ (List.mem_cons_self ..)).2 v i (.inl rfl)
      · exact fun i => (hs _ (List.mem_cons_self ..)).2 v i (.inr rfl)
    cases hd : decode (BitVec.ofNat 32 v) with
    | error e =>
      rcases hh with hh | hh
      · cases (step_illegal hh hd).symm.trans h
      · cases (step_resetDuring_illegal hh hd).symm.trans h
    | ok i =>
      obtain rfl := hinit i hd
      rcases hh with hh | hh
      · cases (step_command hh hd).symm.trans h
      · cases (step_resetDuring hh hd (exec_initTables _)).symm.trans h
  · rw [hh] at hs
    exact (hs _ (List.mem_cons_self ..)).1 reg v rfl

end Sys2Proof.Machine
end

section
/-! The statements on the reset event during a command and on clean runs (spec/70_reset_and_hazards.md). -/

namespace Sys2Proof
open Sys2Proof.Machine

/-- Settles O60: the step cuts the operation short, and a decoder that was to end OK was to do so with any other
buffer space. -/
theorem resetDuringACommandLosesItsOutput : Obligations.ResetDuringACommandLosesItsOutput := by
  unfold Obligations.ResetDuringACommandLosesItsOutput
  refine fun s v rest hh => ⟨fun hill => ?_, fun i hd => ⟨fun r => step_resetDuring_refused hh hd, fun u he => ?_⟩⟩
  · cases hd : decode (BitVec.ofNat 32 v) with
    | error e => exact ⟨(s.withHost rest).applyReset, step_resetDuring_illegal hh hd, rfl, rfl⟩
    | ok i => exact absurd hd (hill i)
  · refine ⟨(s.withHost rest).cutShort i u.result, step_resetDuring hh hd he, afterReset_cutShort s rest i u.result,
      fun a ha => cutShort_read_outside ha, fun m a hok hw => ?_⟩
    have he' := exec_decoder_ok_withMem hw.1 he hok m
    refine ⟨((s.withHost rest).withMem m).cutShort i .ok, ?_, ?_⟩
    · rw [step_resetDuring (s := { s with mem := m }) hh hd he', accepted_result]
      rfl
    · rw [hok]
      exact cutShort_read_inside (s := s.withHost rest) m hw

/-- Settles O57: the pending actions stay harmless, since a step only takes one away. -/
theorem harmlessRunsAreClean : Obligations.HarmlessRunsAreClean := by
  unfold Obligations.HarmlessRunsAreClean
  intro k s hs
  refine cleanRun_of_invariant (P := fun s => ∀ a ∈ s.host, Harmless a) (fun _ _ => step_harmless_ne_refused)
    (fun s t hs h a ha => ?_) k hs
  rw [step_host h] at ha
  exact hs a (List.mem_of_mem_tail ha)

end Sys2Proof
end
